-- ==== Sys2Proof/Config.lean ====
section
/-! DEFINITION. The implementation parameters of 00_scope.md R6, in one record. -/

namespace Sys2Proof

/-- The outcomes 44_framing_commands.md R217 allows for FINISH on a decoder that received no byte
(`EMPTY_DECODE`, left OPEN by 92_eei_decisions.md D11). -/
inductive EmptyDecode where
  | formatError
  | truncatedStreamError
  | ok
  deriving DecidableEq, Repr

/-- The two parameters whose other values the spec defines as well (93_implementation_defined.md U4, U5).
Every rule that depends on one takes this record as an argument. -/
structure Variant where
  /-- `OVERLAP_SEARCH`: may the match search run past the end of the window (42_lz77_encode.md R164). -/
  overlapSearch : Bool
  /-- `EMPTY_DECODE`: outcome of FINISH in HEADER (44_framing_commands.md R217). -/
  emptyDecode : EmptyDecode
  deriving DecidableEq, Repr

/-- The named parameters of 00_scope.md R6. Log 10: the spec calls the literals unaudited, so each is named here
once. -/
structure Config where
  byteBits : Nat
  rleMagic : BitVec byteBits
  lzMagic : BitVec byteBits
  maxRun : Nat
  windowSize : Nat
  maxMatchLength : Nat
  minMatchLength : Nat
  maxOffsetField : Nat
  flagLiteral : BitVec byteBits
  flagMatch : BitVec byteBits
  variant : Variant
  deriving DecidableEq, Repr

/-- This hardware: the values of the table of 00_scope.md R6. `OVERLAP_SEARCH = 0` is D9 (log 9);
`EMPTY_DECODE = FormatError` is the value the spec takes for an OPEN parameter, D11 (log 8). -/
abbrev Config.hw : Config where
  byteBits := 8
  rleMagic := 0x52#_
  lzMagic := 0x4C#_
  maxRun := 255
  windowSize := 20
  maxMatchLength := 255
  minMatchLength := 3
  maxOffsetField := 255
  flagLiteral := 0x00#_
  flagMatch := 0x01#_
  variant := { overlapSearch := false, emptyDecode := .formatError }

end Sys2Proof
end

