-- ==== Sys2Proof/Word.lean ====
section
/-! DEFINITION. The data unit of every space (20_memory.md R61) and the command word (30_encoding.md R101). -/

namespace Sys2Proof

/-- A byte, an unsigned integer 0..255; bit 7 is the most significant (00_scope.md R11). Its width is `BYTE_BITS`
of R6, 8. -/
abbrev Byte := BitVec Config.hw.byteBits

/-- A command word `CMD = {op[2:0], data[7:0]}`, 11 bits (30_encoding.md R101). -/
abbrev CommandWord := BitVec (3 + Config.hw.byteBits)

end Sys2Proof
end

