-- ==== Sys2Proof/Syntax.lean ====
section
/-! DEFINITION. One constructor per row of spec/opcode_table.json: the command words (30_encoding.md R102)
and the wire units (R91 to R97, R191), which "the decoders execute" (R90). -/

namespace Sys2Proof

inductive Instr where
  /-- `START RLE_ENC`, 44_framing_commands.md R211. -/
  | startRleEnc
  /-- `START RLE_DEC`, R211. -/
  | startRleDec
  /-- `START LZ_ENC`, R211. -/
  | startLzEnc
  /-- `START LZ_DEC`, R211. -/
  | startLzDec
  /-- `PUSH b`, R213. -/
  | push (b : Byte)
  /-- `EOC`, R215. -/
  | eoc
  /-- `FINISH`, R216. -/
  | finish
  /-- `ABORT`, R212. -/
  | abort
  /-- `op = 101`, R219. -/
  | reserved5
  /-- `op = 110`, R219. -/
  | reserved6
  /-- `op = 111`, R219. -/
  | reserved7
  /-- The first byte of an RLE stream, 30_encoding.md R97. -/
  | rleMagic
  /-- `R(value, count)`, R92. -/
  | rlePair (value count : Byte)
  /-- The first byte of an LZ77 stream, R97. -/
  | lzMagic
  /-- `L(b)`, R94. -/
  | lzLiteral (b : Byte)
  /-- `M(offset, length)`, R95. -/
  | lzMatch (offset length : Byte)
  /-- A flag byte whose highest set bit is bit 7 (R96; 43_lz77_decode.md R191); the operand is the whole byte. -/
  | lzUnknownFlagB7 (flag : Byte)
  /-- A flag byte whose highest set bit is bit 6. -/
  | lzUnknownFlagB6 (flag : Byte)
  /-- A flag byte whose highest set bit is bit 5. -/
  | lzUnknownFlagB5 (flag : Byte)
  /-- A flag byte whose highest set bit is bit 4. -/
  | lzUnknownFlagB4 (flag : Byte)
  /-- A flag byte whose highest set bit is bit 3. -/
  | lzUnknownFlagB3 (flag : Byte)
  /-- A flag byte whose highest set bit is bit 2. -/
  | lzUnknownFlagB2 (flag : Byte)
  /-- A flag byte whose highest set bit is bit 1. -/
  | lzUnknownFlagB1 (flag : Byte)
  deriving DecidableEq, Repr

end Sys2Proof
end

