-- ==== Sys2Proof/WellFormed.lean ====
section
/-! DEFINITION. Which terms of `Instr` stand for words of the table. Only the seven unknown-flag rows
constrain their operand; every other operand takes all 256 values (30_encoding.md R92, R94, R95). -/

namespace Sys2Proof

/-- The operand of an unknown-flag row matches that row's `mask` and `match` in spec/opcode_table.json.
A count, offset or length of 0 is well-formed: it is an encoding the decoders execute, by raising an
error (R100). -/
def Instr.wf : Instr → Bool
  | .startRleEnc | .startRleDec | .startLzEnc | .startLzDec => true
  | .push _ | .eoc | .finish | .abort => true
  | .reserved5 | .reserved6 | .reserved7 => true
  | .rleMagic | .rlePair _ _ | .lzMagic | .lzLiteral _ | .lzMatch _ _ => true
  | .lzUnknownFlagB7 f => f &&& 0x80#_ == 0x80#_
  | .lzUnknownFlagB6 f => f &&& 0xC0#_ == 0x40#_
  | .lzUnknownFlagB5 f => f &&& 0xE0#_ == 0x20#_
  | .lzUnknownFlagB4 f => f &&& 0xF0#_ == 0x10#_
  | .lzUnknownFlagB3 f => f &&& 0xF8#_ == 0x08#_
  | .lzUnknownFlagB2 f => f &&& 0xFC#_ == 0x04#_
  | .lzUnknownFlagB1 f => f &&& 0xFE#_ == 0x02#_

end Sys2Proof
end

