-- ==== Sys2Proof/Decode.lean ====
section
/-! DEFINITION. What the HOST can present to the ENGINE, the decoder of it, and the encoder
(30_encoding.md; spec/opcode_table.json). -/

namespace Sys2Proof

/-- The wire formats of spec/opcode_table.json (its "format" column, `CMD11` apart). Which one a stream's
next bytes are in depends only on `MODE` and the position in the stream (30_encoding.md R96). -/
inductive Format where
  | rleHeader
  | rleBody
  | lzHeader
  | lzToken
  deriving DecidableEq, Repr

/-- One move of the HOST (70_reset_and_hazards.md R286). -/
inductive Input where
  /-- A command word on the command port (44_framing_commands.md R227). -/
  | command (w : CommandWord)
  /-- The bytes of one wire unit, presented back to back by PUSH commands (log 3). The format says only
  which row of the table the bytes are read as. -/
  | wire (fmt : Format) (bytes : List Byte)
  /-- `rst` asserted for a clock edge (70_reset_and_hazards.md R270). -/
  | rst
  deriving DecidableEq, Repr

/-- Why a move is no instruction of the table. -/
inductive Reject where
  /-- A stream whose first byte is not the format's magic byte (30_encoding.md R97). -/
  | wrongMagic
  /-- The bytes end before the unit does (R96). -/
  | incompleteUnit
  /-- Bytes follow the unit. -/
  | trailingBytes
  /-- `rst` is a line of the port list, not a command (44_framing_commands.md R227). -/
  | resetLine
  deriving DecidableEq, Repr

/-! ### Command words -/

/-- `CMD[10:8]` (30_encoding.md R101). -/
def opField (w : CommandWord) : BitVec 3 := w.extractLsb' Config.hw.byteBits 3

/-- `CMD[7:0]` (R101). -/
def dataField (w : CommandWord) : Byte := w.extractLsb' 0 Config.hw.byteBits

/-- START's mode field, `data[1:0]` (R103). -/
def modeField (w : CommandWord) : BitVec 2 := w.extractLsb' 0 2

/-- START's four modes (R103); `data[7:2]` is not decoded (R104). -/
def decodeStart (m : BitVec 2) : Instr :=
  if m = 0b00#2 then .startRleEnc
  else if m = 0b01#2 then .startRleDec
  else if m = 0b10#2 then .startLzEnc
  else .startLzDec

/-- The operation codes of 30_encoding.md R102. Total: every 11-bit word is a command. -/
def decodeCommand (w : CommandWord) : Instr :=
  if opField w = 0b000#3 then decodeStart (modeField w)
  else if opField w = 0b001#3 then .push (dataField w)
  else if opField w = 0b010#3 then .eoc
  else if opField w = 0b011#3 then .finish
  else if opField w = 0b100#3 then .abort
  else if opField w = 0b101#3 then .reserved5
  else if opField w = 0b110#3 then .reserved6
  else .reserved7

/-! ### Wire units -/

/-- The row of a flag byte in `0x02..0xFF`, by its highest set bit (spec/opcode_table.json, the seven
LZ_UNKNOWN_FLAG rows). -/
def unknownFlagRow (f : Byte) : Instr :=
  if 0x80 ≤ f.toNat then .lzUnknownFlagB7 f
  else if 0x40 ≤ f.toNat then .lzUnknownFlagB6 f
  else if 0x20 ≤ f.toNat then .lzUnknownFlagB5 f
  else if 0x10 ≤ f.toNat then .lzUnknownFlagB4 f
  else if 0x08 ≤ f.toNat then .lzUnknownFlagB3 f
  else if 0x04 ≤ f.toNat then .lzUnknownFlagB2 f
  else .lzUnknownFlagB1 f

/-- An LZ77 token is told by its flag byte alone (30_encoding.md R96). -/
def decodeToken (flag : Byte) (rest : List Byte) : Except Reject (Instr × List Byte) :=
  if flag = Config.hw.flagLiteral then
    match rest with
    | b :: rest => .ok (.lzLiteral b, rest)
    | [] => .error .incompleteUnit
  else if flag = Config.hw.flagMatch then
    match rest with
    | offset :: length :: rest => .ok (.lzMatch offset length, rest)
    | _ => .error .incompleteUnit
  else .ok (unknownFlagRow flag, rest)

/-- The first wire unit of a stream's bytes in the given format, and the bytes after it
(30_encoding.md R91 to R97). -/
def decodeUnit : Format → List Byte → Except Reject (Instr × List Byte)
  | _, [] => .error .incompleteUnit
  | .rleHeader, m :: rest =>
    if m = Config.hw.rleMagic then .ok (.rleMagic, rest) else .error .wrongMagic
  | .lzHeader, m :: rest =>
    if m = Config.hw.lzMagic then .ok (.lzMagic, rest) else .error .wrongMagic
  | .rleBody, [_] => .error .incompleteUnit
  | .rleBody, value :: count :: rest => .ok (.rlePair value count, rest)
  | .lzToken, flag :: rest => decodeToken flag rest

/-- The instruction a move stands for: a command word, or bytes that are exactly one unit. -/
def decode : Input → Except Reject Instr
  | .command w => .ok (decodeCommand w)
  | .wire fmt bytes =>
    match decodeUnit fmt bytes with
    | .ok (i, []) => .ok i
    | .ok (_, _ :: _) => .error .trailingBytes
    | .error e => .error e
  | .rst => .error .resetLine

/-! ### The encoder -/

/-- `{op, data}` (30_encoding.md R101). -/
def commandWord (op : BitVec 3) (data : Byte) : CommandWord := op ++ data

/-- The bytes of a wire unit, first byte on the wire first (R91 to R97); a command has none. -/
def unitBytes : Instr → List Byte
  | .rleMagic => [Config.hw.rleMagic]
  | .rlePair value count => [value, count]
  | .lzMagic => [Config.hw.lzMagic]
  | .lzLiteral b => [Config.hw.flagLiteral, b]
  | .lzMatch offset length => [Config.hw.flagMatch, offset, length]
  | .lzUnknownFlagB7 f | .lzUnknownFlagB6 f | .lzUnknownFlagB5 f | .lzUnknownFlagB4 f
  | .lzUnknownFlagB3 f | .lzUnknownFlagB2 f | .lzUnknownFlagB1 f => [f]
  | .startRleEnc | .startRleDec | .startLzEnc | .startLzDec | .push _ | .eoc | .finish | .abort
  | .reserved5 | .reserved6 | .reserved7 => []

/-- The words of an instruction: the canonical command word of 30_encoding.md R105 (ignored bits zero),
or the unit's bytes in its format. -/
def encode : Instr → Input
  | .startRleEnc => .command (commandWord 0b000#3 0x00#_)
  | .startRleDec => .command (commandWord 0b000#3 0x01#_)
  | .startLzEnc => .command (commandWord 0b000#3 0x02#_)
  | .startLzDec => .command (commandWord 0b000#3 0x03#_)
  | .push b => .command (commandWord 0b001#3 b)
  | .eoc => .command (commandWord 0b010#3 0x00#_)
  | .finish => .command (commandWord 0b011#3 0x00#_)
  | .abort => .command (commandWord 0b100#3 0x00#_)
  | .reserved5 => .command (commandWord 0b101#3 0x00#_)
  | .reserved6 => .command (commandWord 0b110#3 0x00#_)
  | .reserved7 => .command (commandWord 0b111#3 0x00#_)
  | .rleMagic => .wire .rleHeader (unitBytes .rleMagic)
  | .rlePair value count => .wire .rleBody (unitBytes (.rlePair value count))
  | .lzMagic => .wire .lzHeader (unitBytes .lzMagic)
  | .lzLiteral b => .wire .lzToken (unitBytes (.lzLiteral b))
  | .lzMatch offset length => .wire .lzToken (unitBytes (.lzMatch offset length))
  | .lzUnknownFlagB7 f => .wire .lzToken (unitBytes (.lzUnknownFlagB7 f))
  | .lzUnknownFlagB6 f => .wire .lzToken (unitBytes (.lzUnknownFlagB6 f))
  | .lzUnknownFlagB5 f => .wire .lzToken (unitBytes (.lzUnknownFlagB5 f))
  | .lzUnknownFlagB4 f => .wire .lzToken (unitBytes (.lzUnknownFlagB4 f))
  | .lzUnknownFlagB3 f => .wire .lzToken (unitBytes (.lzUnknownFlagB3 f))
  | .lzUnknownFlagB2 f => .wire .lzToken (unitBytes (.lzUnknownFlagB2 f))
  | .lzUnknownFlagB1 f => .wire .lzToken (unitBytes (.lzUnknownFlagB1 f))

/-! ### The table's own numbering -/

/-- The CMD11 rows of spec/opcode_table.json: mask, match, and the instruction of a matching word. -/
structure CommandRow where
  mask : CommandWord
  pattern : CommandWord
  instr : CommandWord → Instr

/-- spec/opcode_table.json, rows of format CMD11, in its order. -/
def commandRows : List CommandRow :=
  [ ⟨0x703#_, 0x000#_, fun _ => .startRleEnc⟩, ⟨0x703#_, 0x001#_, fun _ => .startRleDec⟩,
    ⟨0x703#_, 0x002#_, fun _ => .startLzEnc⟩, ⟨0x703#_, 0x003#_, fun _ => .startLzDec⟩,
    ⟨0x700#_, 0x100#_, fun w => .push (dataField w)⟩, ⟨0x700#_, 0x200#_, fun _ => .eoc⟩,
    ⟨0x700#_, 0x300#_, fun _ => .finish⟩, ⟨0x700#_, 0x400#_, fun _ => .abort⟩,
    ⟨0x700#_, 0x500#_, fun _ => .reserved5⟩, ⟨0x700#_, 0x600#_, fun _ => .reserved6⟩,
    ⟨0x700#_, 0x700#_, fun _ => .reserved7⟩ ]

/-- The format of an 8-bit unit of the table: the two magic bytes, else a flag byte. `0x52` and `0x4C` are
also flag bytes of the row LZ_UNKNOWN_FLAG_B6; the table gives no bit that tells the formats apart, and the
magic rows are taken (log 4). -/
def byteFormat (b : Byte) : Format :=
  if b = Config.hw.rleMagic then .rleHeader
  else if b = Config.hw.lzMagic then .lzHeader
  else .lzToken

/-- Byte `k` of a word, counted from the least significant. -/
def wireByte (w k : Nat) : Byte := BitVec.ofNat Config.hw.byteBits (w / 2 ^ (k * Config.hw.byteBits))

/-- The move that presents a word numbered as spec/opcode_table.json numbers it (a unit's first byte on the
wire is its most significant byte). The 16-bit words below `0x800` are command words as well as RLE pairs and
Literals; they are read as commands, and the words above as RLE pairs (log 4). -/
def tableInput (nbits w : Nat) : Option Input :=
  if nbits = Config.hw.byteBits then
    some (.wire (byteFormat (wireByte w 0)) [wireByte w 0])
  else if nbits = 3 + Config.hw.byteBits then
    some (.command (BitVec.ofNat (3 + Config.hw.byteBits) w))
  else if nbits = 2 * Config.hw.byteBits then
    if w < 2 ^ (3 + Config.hw.byteBits) then some (.command (BitVec.ofNat (3 + Config.hw.byteBits) w))
    else some (.wire .rleBody [wireByte w 1, wireByte w 0])
  else if nbits = 3 * Config.hw.byteBits then
    some (.wire .lzToken [wireByte w 2, wireByte w 1, wireByte w 0])
  else none

/-- The instruction the decoder reads from a word of the table's numbering. -/
def decodeTableWord (nbits w : Nat) : Option Instr :=
  match tableInput nbits w with
  | some x =>
    match decode x with
    | .ok i => some i
    | .error _ => none
  | none => none

end Sys2Proof
end

