-- ==== Sys2Proof/Machine/State.lean ====
section
/-! DEFINITION. The state of one ENGINE instance (10_state.md R20), its reset value (R39), and the reasons a
step can stop. -/

namespace Sys2Proof.Machine

/-- `PHASE` (10_state.md R21). -/
inductive Phase where
  | idle
  | header
  | body
  | done
  | error
  deriving DecidableEq, Repr

/-- `MODE` (10_state.md R22). -/
inductive Mode where
  | rleEnc
  | rleDec
  | lzEnc
  | lzDec
  deriving DecidableEq, Repr

/-- `ERR` (10_state.md R23, 60_exceptions.md R241). -/
inductive Err where
  | noError
  | formatError
  | corruptDataError
  | unknownTokenError
  | truncatedStreamError
  deriving DecidableEq, Repr

/-- The 3-bit code of `PHASE` (10_state.md R21). -/
def Phase.code : Phase → BitVec 3
  | .idle => 0#3
  | .header => 1#3
  | .body => 2#3
  | .done => 3#3
  | .error => 4#3

/-- The 2-bit code of `MODE` (10_state.md R22: bit 0 decode, bit 1 LZ77). -/
def Mode.code : Mode → BitVec 2
  | .rleEnc => 0#2
  | .rleDec => 1#2
  | .lzEnc => 2#2
  | .lzDec => 3#2

/-- The 3-bit code of `ERR` (60_exceptions.md R241). -/
def Err.code : Err → BitVec 3
  | .noError => 0#3
  | .formatError => 1#3
  | .corruptDataError => 2#3
  | .unknownTokenError => 3#3
  | .truncatedStreamError => 4#3

/-- Uses of a storage element that the spec says no rule makes, "a fault, not a value" (20_memory.md R62;
93_implementation_defined.md U1). Safe: the model stops where the spec gives no value (log 7). No state
that meets the invariant of Safety.lean reaches one. -/
inductive Fault where
  /-- `WinRead(k)` with `k >= WLEN` (20_memory.md R62). Raised by `winRead`. Safe. -/
  | winReadPastEnd
  /-- `LA[k]` with `k >= LA_LEN` (R66). Raised by `laRead`. Safe. -/
  | laReadPastEnd
  /-- `LaPush` with `LA_LEN >= 255` (R66). Raised by `laPush`. Safe. -/
  | laPushWhenFull
  /-- `LaPopFront` with `LA_LEN = 0` (R67). Raised by `laPopFront`. Safe. -/
  | laPopWhenEmpty
  /-- `RUN_VALUE` or `RUN_LEN` read while `RUN_OPEN = 0` (10_state.md R25, R26). Raised by `readRun`. Safe. -/
  | runHoldsNoValue
  /-- `RES0` read while `RES_LEN = 0`, or `RES1` while `RES_LEN < 2` (10_state.md R30). Raised by `readRes0`
  and `readRes1`. Safe. -/
  | residueHoldsNoValue
  deriving DecidableEq, Repr

/-- An instruction without a meaning. No arm of `exec` answers it: every row of the table is modelled. -/
inductive Refusal where
  /-- Raised by an arm of `exec` whose instruction has no meaning yet; there is none. Safe. -/
  | notModelled (mnemonic : String)
  deriving DecidableEq, Repr

/-- The registers of 10_state.md R20, under the spec's names, and the two streams of R36. -/
@[ext]
structure State where
  /-- `PHASE` (R21). -/
  phase : Phase
  /-- `MODE` (R22). -/
  mode : Mode
  /-- `ERR` (R23). -/
  err : Err
  /-- `RUN_OPEN` (R24). -/
  runOpen : Bool
  /-- `RUN_VALUE` (R25): read through `readRun` only. -/
  runValue : Byte
  /-- `RUN_LEN` (R26): read through `readRun` only. -/
  runLen : Byte
  /-- `WIN`, oldest byte first (R27; sequence form, 20_memory.md R65); `WLEN` is its length. -/
  win : List Byte
  /-- `LA`, next byte to encode first (R29); `LA_LEN` is its length. -/
  la : List Byte
  /-- `RES_LEN`, 0..2 (R30). -/
  resLen : Fin 3
  /-- `RES0` (R30): read through `readRes0` only. -/
  res0 : Byte
  /-- `RES1` (R30): read through `readRes1` only. -/
  res1 : Byte
  /-- Hidden `EOC_SEEN` (R35 a; 42_lz77_encode.md R162). -/
  eocSeen : Bool
  /-- `OUT` (R36): every byte emitted so far, oldest first. The model's own field (log 2). -/
  out : List Byte
  /-- `IN` (R36): the HOST's moves not yet taken, next first. The model's own field (log 1). -/
  input : List Input
  deriving DecidableEq, Repr

/-- `WLEN` (10_state.md R27). -/
def State.wlen (s : State) : Nat := s.win.length

/-- `LA_LEN` (10_state.md R29). -/
def State.laLen (s : State) : Nat := s.la.length

/-- The state after reset: the table of 10_state.md R39. The spec leaves `RUN_VALUE`, `RUN_LEN`, `RES0` and
`RES1` unspecified; they are 0 here (DESIGN CHOICE, log 5). Nothing has been emitted and no move is
presented (log 1, log 2). -/
def State.reset : State where
  phase := .idle
  mode := .rleEnc
  err := .noError
  runOpen := false
  runValue := 0#_
  runLen := 0#_
  win := []
  la := []
  resLen := 0
  res0 := 0#_
  res1 := 0#_
  eocSeen := false
  out := []
  input := []

end Sys2Proof.Machine
end

