-- ==== Sys2Proof/Machine/Ops.lean ====
section
/-! DEFINITION. The primitives of 00_scope.md R12 over the window, the look-ahead and the output, the one
operation that enters an error, and reset. No other definition touches these spaces (20_memory.md). -/

namespace Sys2Proof.Machine

/-- How a rule's pseudocode ends: a next state, or a use of storage the spec forbids. -/
abbrev Result := Except Fault State

/-- The outcome of a step whose rule ended so. -/
def toOutcome : Result → Host.Outcome State Fault Refusal
  | .ok s => .next s
  | .error f => .fault f

/-! ### Output -/

/-- `Emit` of each byte of `bs` in order (20_memory.md R68). -/
def emitAll (bs : List Byte) (s : State) : State := { s with out := s.out ++ bs }

/-! ### The window FIFO -/

/-- `WinRead(k)` (20_memory.md R62): a fault when `k >= WLEN`. -/
def winRead (k : Nat) (s : State) : Except Fault Byte :=
  match s.win[k]? with
  | some b => .ok b
  | none => .error .winReadPastEnd

/-- The sequence form of `WinAppend` (20_memory.md R63): append at the back, drop the oldest when full. -/
def windowAppend (w : List Byte) (b : Byte) : List Byte :=
  if w.length < Config.hw.windowSize then w ++ [b] else w.drop 1 ++ [b]

/-- `WinAppend(b)` (20_memory.md R63). -/
def winAppend (b : Byte) (s : State) : State := { s with win := windowAppend s.win b }

/-- `WinClear()` (20_memory.md R64). -/
def winClear (s : State) : State := { s with win := [] }

/-! ### The look-ahead -/

/-- `LA[k]` (20_memory.md R66): a fault when `k >= LA_LEN`. -/
def laRead (k : Nat) (s : State) : Except Fault Byte :=
  match s.la[k]? with
  | some b => .ok b
  | none => .error .laReadPastEnd

/-- `LaPush(b)` (20_memory.md R66), legal only when `LA_LEN < 255`. -/
def laPush (b : Byte) (s : State) : Result :=
  if s.la.length < Config.hw.maxMatchLength then .ok { s with la := s.la ++ [b] }
  else .error .laPushWhenFull

/-- `LaPopFront()` (20_memory.md R67), legal only when `LA_LEN > 0`: the byte and the state after. -/
def laPopFront (s : State) : Except Fault (Byte × State) :=
  match s.la with
  | b :: rest => .ok (b, { s with la := rest })
  | [] => .error .laPopWhenEmpty

/-- `WinAppend(LaPopFront())`, `n` times (42_lz77_encode.md R168). -/
def moveToWindow : Nat → State → Result
  | 0, s => .ok s
  | n + 1, s =>
    match laPopFront s with
    | .ok (b, s) => moveToWindow n (winAppend b s)
    | .error f => .error f

/-! ### Errors -/

/-- `raise <Kind>` (60_exceptions.md R248): `ERR` and `PHASE` and nothing else. There is no return from it
(R249); START, ABORT and `rst` leave ERROR. -/
def raise (k : Err) (s : State) : State := { s with err := k, phase := .error }

/-! ### Instances and reset -/

/-- `Magic(m)` (30_encoding.md R97). -/
def magic : Mode → Byte
  | .rleEnc | .rleDec => Config.hw.rleMagic
  | .lzEnc | .lzDec => Config.hw.lzMagic

/-- The first line of START and of ABORT (44_framing_commands.md R211, R212). The data registers are left as
they were and hold no value (10_state.md R40). -/
def clearInstance (s : State) : State :=
  { winClear s with runOpen := false, la := [], resLen := 0, err := .noError, eocSeen := false }

/-- `rst` (70_reset_and_hazards.md R270): every register takes its reset value. OUT keeps the bytes already
transferred, and the HOST's later moves still come (10_state.md R39 "reset emits nothing and retracts
nothing"; log 14). -/
def applyRst (s : State) : State := { State.reset with out := s.out, input := s.input }

end Sys2Proof.Machine
end

