-- ==== Sys2Proof/Machine/Operands.lean ====
section
/-! DEFINITION. The data registers a rule takes its operands from, with the condition under which each holds
a value (10_state.md R25, R26, R30). -/

namespace Sys2Proof.Machine

/-- `RUN_VALUE` and `RUN_LEN`, which hold a value only while a run is open (10_state.md R25, R26). -/
def readRun (s : State) : Except Fault (Byte × Byte) :=
  if s.runOpen then .ok (s.runValue, s.runLen) else .error .runHoldsNoValue

/-- `RES0`, which holds no value when `RES_LEN = 0` (10_state.md R30). -/
def readRes0 (s : State) : Except Fault Byte :=
  if s.resLen = 0 then .error .residueHoldsNoValue else .ok s.res0

/-- `RES1`, which holds no value when `RES_LEN < 2` (10_state.md R30). -/
def readRes1 (s : State) : Except Fault Byte :=
  if s.resLen = 2 then .ok s.res1 else .error .residueHoldsNoValue

end Sys2Proof.Machine
end

