-- ==== Sys2Proof/Machine/Flags.lean ====
section
/-! DEFINITION. The comparator, the token-decision enable, the status word and lines, and the role of the
next input byte: every condition the rules compute from the registers (10_state.md R33, R34, R37). -/

namespace Sys2Proof.Machine

/-- The run comparator `extend(b)` (40_rle_encode.md R121). -/
def extend (b : Byte) (s : State) : Bool :=
  s.runOpen && b == s.runValue && decide (s.runLen.toNat < Config.hw.maxRun)

/-- Token-decision enable (42_lz77_encode.md R162). -/
def tokenEnable (s : State) : Bool :=
  decide (s.la.length = Config.hw.maxMatchLength) || (s.eocSeen && decide (0 < s.la.length))

/-- The line `done` (10_state.md R37). -/
def State.doneLine (s : State) : Bool := s.phase == .done

/-- The line `error` (10_state.md R37). -/
def State.errorLine (s : State) : Bool := s.phase == .error

/-- `STATUS`: `[2:0] = PHASE`, `[4:3] = MODE`, `[7:5] = ERR` (10_state.md R37). -/
def State.status (s : State) : BitVec 8 := s.err.code ++ s.mode.code ++ s.phase.code

/-- What the next input byte means to the instance (10_state.md R33). -/
inductive ByteRole where
  | ignored
  | magicByte
  | data
  | value
  | count
  | flag
  | literalByte
  | offset
  | length
  deriving DecidableEq, Repr

/-- The tuple (`PHASE`, `MODE`, `RES_LEN`), and `RES0` where it decides, read as the role of the next byte
(10_state.md R33). -/
def State.nextRole (s : State) : ByteRole :=
  match s.phase with
  | .idle | .done | .error => .ignored
  | .header => .magicByte
  | .body =>
    match s.mode with
    | .rleEnc | .lzEnc => .data
    | .rleDec => if s.resLen = 0 then .value else .count
    | .lzDec =>
      if s.resLen = 0 then .flag
      else if s.resLen = 1 then
        if s.res0 = Config.hw.flagLiteral then .literalByte else .offset
      else .length

end Sys2Proof.Machine
end

