-- ==== Sys2Proof/Machine/LzDecode.lean ====
section
/-! DEFINITION. LZ_DEC: the residue, the validations and the self-overlapping copy (43_lz77_decode.md). -/

namespace Sys2Proof.Machine

/-- `Copy(offset, length)` (43_lz77_decode.md R194): each byte is read, emitted and appended before the next is
read, so a copy may read bytes it has itself appended (20_memory.md R75). The source index is evaluated afresh
each step. -/
def copy (offset : Nat) : (length : Nat) → State → Result
  | 0, s => .ok s
  | n + 1, s =>
    match winRead (s.win.length - offset) s with
    | .ok c => copy offset n (winAppend c (emitAll [c] s))
    | .error f => .error f

/-- `LZ_DEC.PUSH b` with `RES_LEN = 0` (43_lz77_decode.md R191): a flag byte. -/
def lzDecFlag (b : Byte) (s : State) : Result :=
  if b = Config.hw.flagLiteral ∨ b = Config.hw.flagMatch then .ok { s with res0 := b, resLen := 1 }
  else .ok (raise .unknownTokenError s)

/-- `LZ_DEC.PUSH b` with `RES_LEN = 1` (43_lz77_decode.md R192): a literal byte or an offset. -/
def lzDecSecond (b : Byte) (s : State) : Result :=
  match readRes0 s with
  | .ok flag =>
    if flag = Config.hw.flagLiteral then .ok { winAppend b (emitAll [b] s) with resLen := 0 }
    else .ok { s with res1 := b, resLen := 2 }
  | .error f => .error f

/-- `LZ_DEC.PUSH b` with `RES_LEN = 2` (43_lz77_decode.md R193): the length; validate, then copy. -/
def lzDecLength (b : Byte) (s : State) : Result :=
  match readRes1 s with
  | .ok offset =>
    if offset = 0#_ ∨ b = 0#_ ∨ s.win.length < offset.toNat then .ok (raise .corruptDataError s)
    else
      match copy offset.toNat b.toNat s with
      | .ok s => .ok { s with resLen := 0 }
      | .error f => .error f
  | .error f => .error f

/-- `LZ_DEC.PUSH b`, by `RES_LEN` (43_lz77_decode.md R190). -/
def lzDecPush (b : Byte) (s : State) : Result :=
  if s.resLen = 0 then lzDecFlag b s
  else if s.resLen = 1 then lzDecSecond b s
  else lzDecLength b s

/-- `LZ_DEC.EOC` (43_lz77_decode.md R195): a split token stays in the residue. -/
def lzDecEoc (s : State) : Result := .ok s

/-- `LZ_DEC.FINISH` (43_lz77_decode.md R196). -/
def lzDecFinish (s : State) : Result :=
  if s.resLen ≠ 0 then .ok (raise .truncatedStreamError s) else .ok { s with phase := .done }

end Sys2Proof.Machine
end

