-- ==== Sys2Proof/Machine/LzEncode.lean ====
section
/-! DEFINITION. LZ_ENC: the look-ahead, the match detector, the Literal/Match mux and the serialiser
(42_lz77_encode.md). -/

namespace Sys2Proof.Machine

/-! ### The match detector -/

/-- Length of the longest common prefix of two sequences, by byte equality. -/
def commonPrefix : List Byte → List Byte → Nat
  | a :: as, b :: bs => if a = b then commonPrefix as bs + 1 else 0
  | _, _ => 0

/-- What the look-ahead is compared with at window position `i`: the suffix `window[i..]`, which
`OVERLAP_SEARCH = 1` continues by the look-ahead itself (42_lz77_encode.md R164). -/
def matchSource (overlap : Bool) (win la : List Byte) (i : Nat) : List Byte :=
  win.drop i ++ if overlap then la else []

/-- `CurLen(i)`: "the longest common prefix length between `window[i..]` and the look-ahead buffer, capped by
look-ahead length" (42_lz77_encode.md R164). -/
def curLen (overlap : Bool) (win la : List Byte) (i : Nat) : Nat :=
  commonPrefix (matchSource overlap win la i) la

/-- The pseudocode of R164 as the spec writes it, index by index, `fuel` comparisons at most. The machine
runs `curLen`; the two are the same number. -/
def curLenLoop (overlap : Bool) (i : Nat) (s : State) : (fuel k : Nat) → Except Fault Nat
  | 0, k => .ok k
  | fuel + 1, k =>
    if k < s.la.length then
      if i + k < s.win.length then
        match winRead (i + k) s, laRead k s with
        | .ok src, .ok b => if src ≠ b then .ok k else curLenLoop overlap i s fuel (k + 1)
        | .error f, _ => .error f
        | _, .error f => .error f
      else if overlap then
        match laRead (i + k - s.win.length) s, laRead k s with
        | .ok src, .ok b => if src ≠ b then .ok k else curLenLoop overlap i s fuel (k + 1)
        | .error f, _ => .error f
        | _, .error f => .error f
      else .ok k
    else .ok k

/-- The best match so far, `(BEST_I, BEST_LEN)`. -/
abbrev Best := Nat × Nat

/-- One iteration of the search: `>=`, so a later equal match replaces an earlier one (42_lz77_encode.md R165). -/
def improve (overlap : Bool) (win la : List Byte) (best : Best) (i : Nat) : Best :=
  if best.2 ≤ curLen overlap win la i then (i, curLen overlap win la i) else best

/-- `Search()`: positions `0 .. WLEN-1` ascending from `(0, 0)` (42_lz77_encode.md R165). -/
def search (overlap : Bool) (win la : List Byte) : Best :=
  (List.range win.length).foldl (improve overlap win la) (0, 0)

/-! ### The mux and the serialiser -/

/-- One LZ77 output unit (10_state.md R41): transient, never stored. -/
inductive Token where
  | literal (b : Byte)
  | copyOf (offset length : Nat)
  deriving DecidableEq, Repr

/-- The decision `is_match` (42_lz77_encode.md R167): the offset and length of the Match to emit, if any. -/
def decideMatch (overlap : Bool) (win la : List Byte) : Option (Nat × Nat) :=
  let best := search overlap win la
  let offset := win.length - best.1
  if Config.hw.minMatchLength ≤ best.2 ∧ offset ≤ Config.hw.maxOffsetField then some (offset, best.2)
  else none

/-- The bytes of a token on the wire (30_encoding.md R94, R95). -/
def Token.bytes : Token → List Byte
  | .literal b => unitBytes (.lzLiteral b)
  | .copyOf offset length => unitBytes (.lzMatch (BitVec.ofNat Config.hw.byteBits offset) (BitVec.ofNat Config.hw.byteBits length))

/-- A Literal of the front byte, which moves to the window (42_lz77_encode.md R169, R170). -/
def literalToken (s : State) : Result :=
  match laPopFront s with
  | .ok (b, s) => .ok (winAppend b (emitAll (Token.literal b).bytes s))
  | .error f => .error f

/-- `Token()` (42_lz77_encode.md R176): search, decide, emit, and only then move (70_reset_and_hazards.md R278). -/
def token (v : Variant) (s : State) : Result :=
  match decideMatch v.overlapSearch s.win s.la with
  | some (offset, length) => moveToWindow length (emitAll (Token.copyOf offset length).bytes s)
  | none => literalToken s

/-- `while` the token decision is enabled, `Token()` (42_lz77_encode.md R163); `fuel` bounds the iterations
and the look-ahead's length is enough, since a token removes at least one byte (R173; log 17). -/
def drain (v : Variant) : (fuel : Nat) → State → Result
  | 0, s => .ok s
  | fuel + 1, s =>
    if tokenEnable s then
      match token v s with
      | .ok s => drain v fuel s
      | .error f => .error f
    else .ok s

/-- The Finalize loop (42_lz77_encode.md R170): a Literal of each byte left, with no search. -/
def flushLiterals : (fuel : Nat) → State → Result
  | 0, s => .ok s
  | fuel + 1, s =>
    if s.la.length = 0 then .ok s
    else
      match literalToken s with
      | .ok s => flushLiterals fuel s
      | .error f => .error f

/-! ### The commands -/

/-- `LZ_ENC.PUSH b` (42_lz77_encode.md R161). -/
def lzEncPush (v : Variant) (b : Byte) (s : State) : Result :=
  match laPush b s with
  | .ok s => if s.la.length = Config.hw.maxMatchLength then token v s else .ok s
  | .error f => .error f

/-- `LZ_ENC.EOC` (42_lz77_encode.md R163), with the hidden flag of R162: set, and cleared when the look-ahead
has drained. -/
def lzEncEoc (v : Variant) (s : State) : Result :=
  match drain v s.la.length { s with eocSeen := true } with
  | .ok s => .ok { s with eocSeen := false }
  | .error f => .error f

/-- `LZ_ENC.FINISH` (42_lz77_encode.md R170). -/
def lzEncFinish (s : State) : Result :=
  match flushLiterals s.la.length s with
  | .ok s => .ok { s with phase := .done }
  | .error f => .error f

end Sys2Proof.Machine
end

