-- ==== Sys2Proof/Machine/RleDecode.lean ====
section
/-! DEFINITION. RLE_DEC: pairs expanded as their counts arrive (41_rle_decode.md). -/

namespace Sys2Proof.Machine

/-- `RLE_DEC.PUSH b` (41_rle_decode.md R141): a value byte, or the count that completes a pair. -/
def rleDecPush (b : Byte) (s : State) : Result :=
  if s.resLen = 0 then .ok { s with res0 := b, resLen := 1 }
  else if b = 0#_ then .ok (raise .corruptDataError s)
  else
    match readRes0 s with
    | .ok value => .ok { emitAll (List.replicate b.toNat value) s with resLen := 0 }
    | .error f => .error f

/-- `RLE_DEC.EOC` (41_rle_decode.md R142): a split pair stays in the residue. -/
def rleDecEoc (s : State) : Result := .ok s

/-- `RLE_DEC.FINISH` (41_rle_decode.md R143). -/
def rleDecFinish (s : State) : Result :=
  if s.resLen ≠ 0 then .ok (raise .truncatedStreamError s) else .ok { s with phase := .done }

end Sys2Proof.Machine
end

