-- ==== Sys2Proof/Machine/RleEncode.lean ====
section
/-! DEFINITION. RLE_ENC: the run tracker and the pair serialiser (40_rle_encode.md). -/

namespace Sys2Proof.Machine

/-- The closed run as a pair, value then count (40_rle_encode.md R122, R124). -/
def emitRun (s : State) : Result :=
  match readRun s with
  | .ok (value, len) => .ok (emitAll [value, len] s)
  | .error f => .error f

/-- A new run of length 1 (40_rle_encode.md R122). -/
def openRun (b : Byte) (s : State) : State :=
  { s with runOpen := true, runValue := b, runLen := 1#_ }

/-- `RLE_ENC.PUSH b` (40_rle_encode.md R122). A saturated run is flushed by the next byte. -/
def rleEncPush (b : Byte) (s : State) : Result :=
  if s.runOpen = false then .ok (openRun b s)
  else if extend b s then .ok { s with runLen := s.runLen + 1#_ }
  else
    match emitRun s with
    | .ok s => .ok (openRun b s)
    | .error f => .error f

/-- `RLE_ENC.EOC` (40_rle_encode.md R123): the open run is kept. -/
def rleEncEoc (s : State) : Result := .ok s

/-- `RLE_ENC.FINISH` (40_rle_encode.md R124). -/
def rleEncFinish (s : State) : Result :=
  if s.runOpen then
    match emitRun s with
    | .ok s => .ok { s with runOpen := false, phase := .done }
    | .error f => .error f
  else .ok { s with phase := .done }

end Sys2Proof.Machine
end

