-- ==== Sys2Proof/Machine/Framing.lean ====
section
/-! DEFINITION. The framing engine: the commands and their dispatch by `PHASE` and `MODE`
(44_framing_commands.md). -/

namespace Sys2Proof.Machine

/-- `START m` (44_framing_commands.md R211). -/
def start (m : Mode) (s : State) : State :=
  let s := { clearInstance s with mode := m }
  match m with
  | .rleEnc | .lzEnc => { emitAll [magic m] s with phase := .body }
  | .rleDec | .lzDec => { s with phase := .header }

/-- `ABORT` (44_framing_commands.md R212): nothing is flushed, `MODE` keeps its value. -/
def abortInstance (s : State) : State := { clearInstance s with phase := .idle }

/-- `PUSH b` in HEADER, the magic check (44_framing_commands.md R214). -/
def checkMagic (b : Byte) (s : State) : State :=
  if b = magic s.mode then { s with phase := .body } else raise .formatError s

/-- `PUSH b` (44_framing_commands.md R213; ignored phases R218, log 11). -/
def pushByte (v : Variant) (b : Byte) (s : State) : Result :=
  match s.phase with
  | .idle | .done | .error => .ok s
  | .header => .ok (checkMagic b s)
  | .body =>
    match s.mode with
    | .rleEnc => rleEncPush b s
    | .rleDec => rleDecPush b s
    | .lzEnc => lzEncPush v b s
    | .lzDec => lzDecPush b s

/-- `EOC` (44_framing_commands.md R215). -/
def endChunk (v : Variant) (s : State) : Result :=
  match s.phase with
  | .idle | .done | .error | .header => .ok s
  | .body =>
    match s.mode with
    | .rleEnc => rleEncEoc s
    | .rleDec => rleDecEoc s
    | .lzEnc => lzEncEoc v s
    | .lzDec => lzDecEoc s

/-- `FINISH` in HEADER (44_framing_commands.md R217): the parameter `EMPTY_DECODE` decides (log 8). -/
def finishEmpty (v : Variant) (s : State) : State :=
  match v.emptyDecode with
  | .formatError => raise .formatError s
  | .truncatedStreamError => raise .truncatedStreamError s
  | .ok => { s with phase := .done }

/-- `FINISH` (44_framing_commands.md R216). -/
def finishStream (v : Variant) (s : State) : Result :=
  match s.phase with
  | .idle | .done | .error => .ok s
  | .header => .ok (finishEmpty v s)
  | .body =>
    match s.mode with
    | .rleEnc => rleEncFinish s
    | .rleDec => rleDecFinish s
    | .lzEnc => lzEncFinish s
    | .lzDec => lzDecFinish s

/-- A reserved operation (44_framing_commands.md R219; 30_encoding.md R104). -/
def noOperation (s : State) : Result := .ok s

/-! ### The meanings of the command words -/

/-- START_RLE_ENC (44_framing_commands.md R211). -/
def execStartRleEnc (s : State) : Host.Outcome State Fault Refusal := toOutcome (.ok (start .rleEnc s))

/-- START_RLE_DEC (44_framing_commands.md R211). -/
def execStartRleDec (s : State) : Host.Outcome State Fault Refusal := toOutcome (.ok (start .rleDec s))

/-- START_LZ_ENC (44_framing_commands.md R211). -/
def execStartLzEnc (s : State) : Host.Outcome State Fault Refusal := toOutcome (.ok (start .lzEnc s))

/-- START_LZ_DEC (44_framing_commands.md R211). -/
def execStartLzDec (s : State) : Host.Outcome State Fault Refusal := toOutcome (.ok (start .lzDec s))

/-- PUSH (44_framing_commands.md R213). -/
def execPush (b : Byte) (s : State) : Host.Outcome State Fault Refusal :=
  toOutcome (pushByte Config.hw.variant b s)

/-- EOC (44_framing_commands.md R215). -/
def execEoc (s : State) : Host.Outcome State Fault Refusal := toOutcome (endChunk Config.hw.variant s)

/-- FINISH (44_framing_commands.md R216). -/
def execFinish (s : State) : Host.Outcome State Fault Refusal := toOutcome (finishStream Config.hw.variant s)

/-- ABORT (44_framing_commands.md R212). -/
def execAbort (s : State) : Host.Outcome State Fault Refusal := toOutcome (.ok (abortInstance s))

/-- RESERVED_5 (44_framing_commands.md R219). -/
def execReserved5 (s : State) : Host.Outcome State Fault Refusal := toOutcome (noOperation s)

/-- RESERVED_6 (44_framing_commands.md R219). -/
def execReserved6 (s : State) : Host.Outcome State Fault Refusal := toOutcome (noOperation s)

/-- RESERVED_7 (44_framing_commands.md R219). -/
def execReserved7 (s : State) : Host.Outcome State Fault Refusal := toOutcome (noOperation s)

end Sys2Proof.Machine
end

