-- ==== Sys2Proof/Machine/Wire.lean ====
section
/-! DEFINITION. The wire units as instructions: "the decoders execute them" (30_encoding.md R90). A unit
reaches the ENGINE as its bytes, one PUSH each, in the order of the wire (20_memory.md R70; 43_lz77_decode.md
R190), so that is what running one means, in every phase and mode (log 3). -/

namespace Sys2Proof.Machine

/-- The bytes PUSHed one after another, with no other command between. -/
def deliver (v : Variant) : List Byte → State → Result
  | [], s => .ok s
  | b :: bs, s =>
    match pushByte v b s with
    | .ok s => deliver v bs s
    | .error f => .error f

/-- RLE_MAGIC (30_encoding.md R97; accepted by 44_framing_commands.md R214). -/
def execRleMagic (s : State) : Host.Outcome State Fault Refusal :=
  toOutcome (deliver Config.hw.variant (unitBytes .rleMagic) s)

/-- RLE_PAIR (30_encoding.md R92; executed by 41_rle_decode.md R141). -/
def execRlePair (value count : Byte) (s : State) : Host.Outcome State Fault Refusal :=
  toOutcome (deliver Config.hw.variant (unitBytes (.rlePair value count)) s)

/-- LZ_MAGIC (30_encoding.md R97; accepted by 44_framing_commands.md R214). -/
def execLzMagic (s : State) : Host.Outcome State Fault Refusal :=
  toOutcome (deliver Config.hw.variant (unitBytes .lzMagic) s)

/-- LZ_LITERAL (30_encoding.md R94; executed by 43_lz77_decode.md R191, R192). -/
def execLzLiteral (b : Byte) (s : State) : Host.Outcome State Fault Refusal :=
  toOutcome (deliver Config.hw.variant (unitBytes (.lzLiteral b)) s)

/-- LZ_MATCH (30_encoding.md R95; executed by 43_lz77_decode.md R191 to R194). -/
def execLzMatch (offset length : Byte) (s : State) : Host.Outcome State Fault Refusal :=
  toOutcome (deliver Config.hw.variant (unitBytes (.lzMatch offset length)) s)

/-- LZ_UNKNOWN_FLAG_B7 (43_lz77_decode.md R191). -/
def execLzUnknownFlagB7 (flag : Byte) (s : State) : Host.Outcome State Fault Refusal :=
  toOutcome (deliver Config.hw.variant (unitBytes (.lzUnknownFlagB7 flag)) s)

/-- LZ_UNKNOWN_FLAG_B6 (43_lz77_decode.md R191). -/
def execLzUnknownFlagB6 (flag : Byte) (s : State) : Host.Outcome State Fault Refusal :=
  toOutcome (deliver Config.hw.variant (unitBytes (.lzUnknownFlagB6 flag)) s)

/-- LZ_UNKNOWN_FLAG_B5 (43_lz77_decode.md R191). -/
def execLzUnknownFlagB5 (flag : Byte) (s : State) : Host.Outcome State Fault Refusal :=
  toOutcome (deliver Config.hw.variant (unitBytes (.lzUnknownFlagB5 flag)) s)

/-- LZ_UNKNOWN_FLAG_B4 (43_lz77_decode.md R191). -/
def execLzUnknownFlagB4 (flag : Byte) (s : State) : Host.Outcome State Fault Refusal :=
  toOutcome (deliver Config.hw.variant (unitBytes (.lzUnknownFlagB4 flag)) s)

/-- LZ_UNKNOWN_FLAG_B3 (43_lz77_decode.md R191). -/
def execLzUnknownFlagB3 (flag : Byte) (s : State) : Host.Outcome State Fault Refusal :=
  toOutcome (deliver Config.hw.variant (unitBytes (.lzUnknownFlagB3 flag)) s)

/-- LZ_UNKNOWN_FLAG_B2 (43_lz77_decode.md R191). -/
def execLzUnknownFlagB2 (flag : Byte) (s : State) : Host.Outcome State Fault Refusal :=
  toOutcome (deliver Config.hw.variant (unitBytes (.lzUnknownFlagB2 flag)) s)

/-- LZ_UNKNOWN_FLAG_B1 (43_lz77_decode.md R191). -/
def execLzUnknownFlagB1 (flag : Byte) (s : State) : Host.Outcome State Fault Refusal :=
  toOutcome (deliver Config.hw.variant (unitBytes (.lzUnknownFlagB1 flag)) s)

end Sys2Proof.Machine
end

