-- ==== Sys2Proof/Machine/Dispatch.lean ====
section
/-! DEFINITION. One arm per row of spec/opcode_table.json. -/

namespace Sys2Proof.Machine

def exec (i : Instr) (s : State) : Host.Outcome State Fault Refusal :=
  match i with
  | .startRleEnc => Sys2Proof.Machine.execStartRleEnc s
  | .startRleDec => Sys2Proof.Machine.execStartRleDec s
  | .startLzEnc => Sys2Proof.Machine.execStartLzEnc s
  | .startLzDec => Sys2Proof.Machine.execStartLzDec s
  | .push b => Sys2Proof.Machine.execPush b s
  | .eoc => Sys2Proof.Machine.execEoc s
  | .finish => Sys2Proof.Machine.execFinish s
  | .abort => Sys2Proof.Machine.execAbort s
  | .reserved5 => Sys2Proof.Machine.execReserved5 s
  | .reserved6 => Sys2Proof.Machine.execReserved6 s
  | .reserved7 => Sys2Proof.Machine.execReserved7 s
  | .rleMagic => Sys2Proof.Machine.execRleMagic s
  | .rlePair value count => Sys2Proof.Machine.execRlePair value count s
  | .lzMagic => Sys2Proof.Machine.execLzMagic s
  | .lzLiteral b => Sys2Proof.Machine.execLzLiteral b s
  | .lzMatch offset length => Sys2Proof.Machine.execLzMatch offset length s
  | .lzUnknownFlagB7 flag => Sys2Proof.Machine.execLzUnknownFlagB7 flag s
  | .lzUnknownFlagB6 flag => Sys2Proof.Machine.execLzUnknownFlagB6 flag s
  | .lzUnknownFlagB5 flag => Sys2Proof.Machine.execLzUnknownFlagB5 flag s
  | .lzUnknownFlagB4 flag => Sys2Proof.Machine.execLzUnknownFlagB4 flag s
  | .lzUnknownFlagB3 flag => Sys2Proof.Machine.execLzUnknownFlagB3 flag s
  | .lzUnknownFlagB2 flag => Sys2Proof.Machine.execLzUnknownFlagB2 flag s
  | .lzUnknownFlagB1 flag => Sys2Proof.Machine.execLzUnknownFlagB1 flag s

end Sys2Proof.Machine
end

