-- ==== Sys2Proof/Machine/Fetch.lean ====
section
/-! DEFINITION. Taking the HOST's next move: what plays the part of an instruction fetch (20_memory.md R60
"the commands arrive on a port and are not stored"; 70_reset_and_hazards.md R286). -/

namespace Sys2Proof.Machine

/-- A move that is no instruction of the table. `rst` resets (70_reset_and_hazards.md R270); bytes that are not
exactly one unit are still bytes the HOST PUSHes (44_framing_commands.md R210 "Every command is total";
log 18). Every command word is an instruction, so the last case is not reached. -/
def takeOther : Input → State → Host.Outcome State Fault Refusal
  | .rst, s => toOutcome (.ok (applyRst s))
  | .wire _ bytes, s => toOutcome (deliver Config.hw.variant bytes s)
  | .command _, s => toOutcome (.ok s)

/-- One move of the HOST, already taken from `input`: the instruction it decodes to is executed. -/
def take (x : Input) (s : State) : Host.Outcome State Fault Refusal :=
  match decode x with
  | .ok i => exec i s
  | .error _ => takeOther x s

/-- The next move, if the HOST has one; an idle ENGINE keeps all state (60_exceptions.md R259). -/
def takeNext (s : State) : Host.Outcome State Fault Refusal :=
  match s.input with
  | [] => toOutcome (.ok s)
  | x :: rest => take x { s with input := rest }

/-- The word of the table's numbering placed as the HOST's next move; a width the table does not have places
nothing. -/
def present (s : State) (nbits w : Nat) : State :=
  match tableInput nbits w with
  | some x => { s with input := x :: s.input }
  | none => s

end Sys2Proof.Machine
end

