-- ==== Sys2Proof/Machine/Step.lean ====
section
/-! DEFINITION. One step of the machine: the HOST's next move, taken to its end (44_framing_commands.md R221). -/

namespace Sys2Proof.Machine

/-- One step. With no move presented the ENGINE waits. -/
def step (s : State) : Host.Outcome State Fault Refusal := takeNext s

/-- `s` with a word of spec/opcode_table.json as the HOST's next move. -/
def State.withFetchWord (s : State) (nbits w : Nat) : State := present s nbits w

end Sys2Proof.Machine
end

