-- ==== Sys2Proof/Machine/Window.lean ====
section
/-! DEFINITION. The two physical organisations of the window that 20_memory.md R65 calls conforming. The
machine uses the sequence form; each organisation's view is that sequence (log 6). -/

namespace Sys2Proof.Machine

/-- (b) The circular buffer `WMEM[0..19]` with `W_HEAD` and `WLEN` (20_memory.md R65). -/
structure Ring where
  wmem : List Byte
  wHead : Nat
  wLen : Nat
  deriving DecidableEq, Repr

/-- The buffer has its 20 cells, and its pointers are in range. -/
abbrev Ring.wf (r : Ring) : Prop :=
  r.wmem.length = Config.hw.windowSize ∧ r.wHead < Config.hw.windowSize ∧ r.wLen ≤ Config.hw.windowSize

/-- `WIN[k] = WMEM[(W_HEAD + k) mod 20]`, for `k < WLEN` (20_memory.md R65). -/
def Ring.view (r : Ring) : List Byte :=
  (List.range r.wLen).map fun k => r.wmem.getD ((r.wHead + k) % Config.hw.windowSize) 0#_

/-- The append of the circular buffer, below capacity and at capacity (20_memory.md R65). -/
def Ring.append (r : Ring) (b : Byte) : Ring :=
  if r.wLen < Config.hw.windowSize then
    { r with wmem := r.wmem.set ((r.wHead + r.wLen) % Config.hw.windowSize) b, wLen := r.wLen + 1 }
  else
    { r with wmem := r.wmem.set r.wHead b, wHead := (r.wHead + 1) % Config.hw.windowSize }

/-- `WinClear()` (20_memory.md R64): the cells are not cleared. -/
def Ring.clear (r : Ring) : Ring := { r with wLen := 0 }

/-- Reset (10_state.md R39, 70_reset_and_hazards.md R270): `W_HEAD = 0` and `WLEN = 0`; the cells, which are
unspecified and hold no value, are left as they were. -/
def Ring.reset (r : Ring) : Ring := { r with wHead := 0, wLen := 0 }

/-- (a) The 20-stage byte shift register, newest first, with `WLEN` saturating at 20 (20_memory.md R65). -/
structure ShiftRegister where
  stages : List Byte
  wLen : Nat
  deriving DecidableEq, Repr

/-- The register has its 20 stages. -/
abbrev ShiftRegister.wf (r : ShiftRegister) : Prop :=
  r.stages.length = Config.hw.windowSize ∧ r.wLen ≤ Config.hw.windowSize

/-- The bytes held, oldest first. -/
def ShiftRegister.view (r : ShiftRegister) : List Byte := (r.stages.take r.wLen).reverse

/-- One shift: the new byte enters, the last stage is lost (20_memory.md R65). -/
def ShiftRegister.append (r : ShiftRegister) (b : Byte) : ShiftRegister :=
  { stages := (b :: r.stages).take Config.hw.windowSize
    wLen := min (r.wLen + 1) Config.hw.windowSize }

/-- `WinClear()` (20_memory.md R64): the stages are not cleared. -/
def ShiftRegister.clear (r : ShiftRegister) : ShiftRegister := { r with wLen := 0 }

/-- Reset (10_state.md R39): `WLEN = 0`; the stages, which hold no value, are left as they were. -/
def ShiftRegister.reset (r : ShiftRegister) : ShiftRegister := { r with wLen := 0 }

end Sys2Proof.Machine
end

