-- ==== Sys2Proof/Machine/Ports.lean ====
section
/-! DEFINITION. The port level of 44_framing_commands.md R227 to R229: one rising edge of `clk`. It refines the
transaction level and adds no behaviour (00_scope.md R8). -/

namespace Sys2Proof.Machine

/-- The input signals at a rising edge (44_framing_commands.md R227). -/
structure PortIn where
  rst : Bool
  cmdValid : Bool
  cmdOp : BitVec 3
  cmdData : Byte
  outReady : Bool
  /-- How many further edges the command that this edge transfers takes before its state update. "The number of
  cycles a command takes is not specified" (R228), and it is bounded, "so the ENGINE never hangs by itself"
  (70_reset_and_hazards.md R284): any number (log 15). The model's own, not a signal. -/
  work : Nat
  deriving DecidableEq, Repr

/-- The ENGINE between two edges. -/
structure PortState where
  /-- The registers, and in `out` the bytes the SINK has taken. -/
  core : State
  /-- The command transferred and not yet executed. -/
  pending : Option CommandWord
  /-- The edges the pending command still takes before its state update (70_reset_and_hazards.md R284; log 15). -/
  work : Nat
  /-- Bytes emitted and not yet transferred (R228, R229). -/
  staged : List Byte
  /-- What the `status` port shows: it changes only when a command completes (R228). -/
  shown : BitVec 8
  deriving DecidableEq, Repr

/-- 70_reset_and_hazards.md R271. -/
def PortState.reset : PortState where
  core := State.reset
  pending := none
  work := 0
  staged := []
  shown := State.reset.status

/-- `cmd_ready` (44_framing_commands.md R228): no command in execution and none of its bytes waiting. -/
def PortState.cmdReady (p : PortState) : Bool := p.pending.isNone && p.staged.isEmpty

/-- `out_valid` (R227). -/
def PortState.outValid (p : PortState) : Bool := !p.staged.isEmpty

/-- `out_data`, when `out_valid` is 1 (R227). -/
def PortState.outData (p : PortState) : Option Byte := p.staged.head?

/-- The port `done`, which shows what `status` shows (10_state.md R37; R228). -/
def PortState.doneLine (p : PortState) : Bool := p.shown.extractLsb' 0 3 == Phase.code .done

/-- The port `error` (R37, R228). -/
def PortState.errorLine (p : PortState) : Bool := p.shown.extractLsb' 0 3 == Phase.code .error

/-- A command with no byte left to transfer is complete: `status` now shows its result (R228; D21). -/
def PortState.settle (p : PortState) : PortState :=
  if p.staged.isEmpty then { p with shown := p.core.status } else p

/-- `rst`: the command in progress is abandoned and untransferred bytes are dropped (R229). -/
def PortState.applyRst (p : PortState) : PortState where
  core := Sys2Proof.Machine.applyRst p.core
  pending := none
  work := 0
  staged := []
  shown := (Sys2Proof.Machine.applyRst p.core).status

/-- The state update of a transferred command: its bytes go to the output channel, not yet to the SINK. -/
def PortState.execute (w : CommandWord) (p : PortState) : Host.Outcome PortState Fault Refusal :=
  match exec (decodeCommand w) p.core with
  | .next t =>
    .next (PortState.settle
      { p with core := { t with out := p.core.out }, pending := none, staged := t.out.drop p.core.out.length })
  | .fault f => .fault f
  | .refused r => .refused r

/-- One rising edge of `clk`. `rst` has priority over everything (R229). -/
def edge (x : PortIn) (p : PortState) : Host.Outcome PortState Fault Refusal :=
  if x.rst then .next p.applyRst
  else
    match p.pending, p.staged with
    | some w, _ =>
      match p.work with
      | 0 => p.execute w
      | n + 1 => .next { p with work := n }
    | none, b :: rest =>
      if x.outReady then .next (PortState.settle { p with core := emitAll [b] p.core, staged := rest })
      else .next p
    | none, [] =>
      if x.cmdValid then .next { p with pending := some (commandWord x.cmdOp x.cmdData), work := x.work }
      else .next p

/-- Edges one after another. -/
def edges : List PortIn → PortState → Host.Outcome PortState Fault Refusal
  | [], p => .next p
  | x :: xs, p =>
    match edge x p with
    | .next p => edges xs p
    | .fault f => .fault f
    | .refused r => .refused r

/-- The transaction-level outcome the port state stands for: the command in execution carried to its end and
every emitted byte transferred. -/
def PortState.transaction (p : PortState) : Host.Outcome State Fault Refusal :=
  match p.pending with
  | some w => exec (decodeCommand w) p.core
  | none => .next (emitAll p.staged p.core)

end Sys2Proof.Machine
end

