-- ==== Sys2Proof/Machine/Trace.lean ====
section
/-! DEFINITION. Sequences of commands, the pseudo-commands of 30_encoding.md R107, and the HOST's choice of a
decoder (44_framing_commands.md R230). -/

namespace Sys2Proof.Machine

/-- Instructions executed one after another, to the first that stops. -/
def execAll : List Instr → State → Host.Outcome State Fault Refusal
  | [], s => .next s
  | i :: is, s =>
    match exec i s with
    | .next s => execAll is s
    | .fault f => .fault f
    | .refused r => .refused r

/-- `START m` (44_framing_commands.md R211). -/
def startInstr : Mode → Instr
  | .rleEnc => .startRleEnc
  | .rleDec => .startRleDec
  | .lzEnc => .startLzEnc
  | .lzDec => .startLzDec

/-- `PUSH` of each byte. -/
def pushes (bs : List Byte) : List Instr := bs.map .push

/-- `FEED bs` (30_encoding.md R107); `FEED []` is `EOC`. -/
def feed (bs : List Byte) : List Instr := pushes bs ++ [.eoc]

/-- The whole of one run in mode `m`: START, one FEED for each chunk, FINISH (30_encoding.md R107). -/
def streamTrace (m : Mode) (chunks : List (List Byte)) : List Instr :=
  startInstr m :: (chunks.flatMap feed ++ [.finish])

/-- The decoder a HOST without an algorithm hint starts, from the first byte of the data; `none` is its own
detection failure (44_framing_commands.md R230). The ENGINE does not do this. -/
def hostRoute (first : Byte) : Option Instr :=
  if first = Config.hw.rleMagic then some .startRleDec
  else if first = Config.hw.lzMagic then some .startLzDec
  else none

end Sys2Proof.Machine
end

