-- ==== Sys2Proof/Safety.lean ====
section
/-! DEFINITION. What a legal state is, what the HOST can see, and how a run ends (10_state.md R21 to R32;
70_reset_and_hazards.md R285). -/

namespace Sys2Proof

open Machine

/-! ### The invariant -/

/-- `0 <= WLEN <= 20` (10_state.md R28). -/
abbrev WindowBounded (s : State) : Prop := s.win.length ≤ Config.hw.windowSize

/-- "at every command boundary `LA_LEN <= 254`" (10_state.md R29). -/
abbrev LookAheadBounded (s : State) : Prop := s.la.length < Config.hw.maxMatchLength

/-- `EOC_SEEN` "is 0 at every command boundary" (10_state.md R35). -/
abbrev EocSeenClear (s : State) : Prop := s.eocSeen = false

/-- "`ERR != 0` if and only if `PHASE = ERROR`" (10_state.md R23). -/
abbrev ErrIffErrorPhase (s : State) : Prop := s.err ≠ .noError ↔ s.phase = .error

/-- `RUN_LEN` of an open run "is never 0" (10_state.md R26). -/
abbrev OpenRunNonempty (s : State) : Prop := s.runOpen = true → s.runLen ≠ 0#_

/-- What the residue holds in each decoder (10_state.md R30). -/
abbrev ResidueShape (s : State) : Prop :=
  (s.mode = .rleDec → s.resLen ≠ 2) ∧
  (s.mode = .lzDec → s.resLen = 1 → s.res0 = Config.hw.flagLiteral ∨ s.res0 = Config.hw.flagMatch) ∧
  (s.mode = .lzDec → s.resLen = 2 → s.res0 = Config.hw.flagMatch)

/-- The state a mode does not use is empty (10_state.md R20, R32). -/
abbrev OnlyOwnState (s : State) : Prop :=
  (s.mode ≠ .rleEnc → s.runOpen = false) ∧
  (s.mode ≠ .lzEnc → s.la = []) ∧
  (s.mode = .rleEnc ∨ s.mode = .rleDec → s.win = []) ∧
  (s.mode = .rleEnc ∨ s.mode = .lzEnc → s.resLen = 0)

/-- What each phase says of the rest (10_state.md R21; 44_framing_commands.md R211, R212, R214, R223). -/
abbrev PhaseShape (s : State) : Prop :=
  (s.phase = .idle → s.runOpen = false ∧ s.win = [] ∧ s.la = [] ∧ s.resLen = 0) ∧
  (s.phase = .header → (s.mode = .rleDec ∨ s.mode = .lzDec) ∧ s.win = [] ∧ s.resLen = 0) ∧
  (s.phase = .done → s.runOpen = false ∧ s.la = [] ∧ s.resLen = 0) ∧
  (s.phase = .error → s.mode = .rleDec ∨ s.mode = .lzDec)

/-- The legal states at a command boundary. -/
abbrev Inv (s : State) : Prop :=
  WindowBounded s ∧ LookAheadBounded s ∧ EocSeenClear s ∧ ErrIffErrorPhase s ∧ OpenRunNonempty s ∧
    ResidueShape s ∧ OnlyOwnState s ∧ PhaseShape s

/-- The legal states of the port level: a command in execution has no byte waiting, and an ENGINE that is
ready shows the status of its registers (44_framing_commands.md R228). -/
abbrev PortInv (p : PortState) : Prop :=
  Inv p.core ∧ (p.pending ≠ none → p.staged = []) ∧ (p.cmdReady = true → p.shown = p.core.status)

/-! ### What can be seen -/

/-- Two states that differ at most in data registers that hold no value: `RUN_VALUE`, `RUN_LEN` while
`RUN_OPEN = 0`, `RES0` while `RES_LEN = 0`, `RES1` while `RES_LEN < 2` (10_state.md R25, R26, R30;
93_implementation_defined.md U1, U2). -/
abbrev SameValues (s t : State) : Prop :=
  t = { s with runValue := t.runValue, runLen := t.runLen, res0 := t.res0, res1 := t.res1 } ∧
  (s.runOpen = true → t.runValue = s.runValue ∧ t.runLen = s.runLen) ∧
  (s.resLen ≠ 0 → t.res0 = s.res0) ∧
  (s.resLen = 2 → t.res1 = s.res1)

/-- Two outcomes of the same kind, with states that agree in every register that holds a value. -/
def SameOutcome : Host.Outcome State Fault Refusal → Host.Outcome State Fault Refusal → Prop
  | .next s, .next t => SameValues s t
  | .fault f, .fault g => f = g
  | .refused q, .refused r => q = r
  | _, _ => False

/-! ### The end of a run -/

/-- An instance exists and has not finished (10_state.md R21; 70_reset_and_hazards.md R285). -/
abbrev Active (s : State) : Prop := s.phase = .header ∨ s.phase = .body

/-- How a run has ended (70_reset_and_hazards.md R285). -/
inductive RunEnd where
  | complete
  | failed (kind : Err)
  | discarded
  deriving DecidableEq, Repr

/-- The end that executing `i` in `s`, with `t` the state after, brings to the run in progress, if any
(70_reset_and_hazards.md R285 (a) to (d); `rst`, which is no instruction, is (e), in `moveEnd`). -/
def runEnd (i : Instr) (s t : State) : Option RunEnd :=
  if Active s then
    match i with
    | .startRleEnc | .startRleDec | .startLzEnc | .startLzDec | .abort => some .discarded
    | .finish => if t.phase = .done then some .complete else some (.failed t.err)
    | .push _ | .eoc | .reserved5 | .reserved6 | .reserved7 | .rleMagic | .rlePair _ _ | .lzMagic
    | .lzLiteral _ | .lzMatch _ _ | .lzUnknownFlagB7 _ | .lzUnknownFlagB6 _ | .lzUnknownFlagB5 _
    | .lzUnknownFlagB4 _ | .lzUnknownFlagB3 _ | .lzUnknownFlagB2 _ | .lzUnknownFlagB1 _ =>
      if t.phase = .error then some (.failed t.err) else none
  else none

/-- The end that one move of the HOST brings to the run in progress in `s`, if any, with `t` the state after the
step that takes it: all five ends of 70_reset_and_hazards.md R285. Bytes of a wire unit are PUSHed, so only (b)
can come of them (log 3, log 18). -/
def moveEnd (x : Input) (s t : State) : Option RunEnd :=
  match x with
  | .command w => runEnd (decodeCommand w) s t
  | .wire _ _ => if Active s ∧ t.phase = .error then some (.failed t.err) else none
  | .rst => if Active s then some .discarded else none

/-- A run is in progress at the port level: also while FINISH, already executed, has bytes to transfer, since its
run is complete only when "every byte the command emits has been transferred" (44_framing_commands.md R228, R229;
log 14). -/
abbrev InRun (p : PortState) : Prop := Active p.core ∨ (p.core.phase = .done ∧ p.staged ≠ [])

/-- The end that one edge brings to the run in progress, if any, with `q` the port state after it
(70_reset_and_hazards.md R285). `rst` discards it; a FINISH that emits bytes completes it at the edge of the last
byte; every other end comes with the command's state update. -/
def edgeEnd (x : PortIn) (p q : PortState) : Option RunEnd :=
  if x.rst then
    if InRun p then some .discarded else none
  else
    match p.pending with
    | some w =>
      if p.work ≠ 0 then none
      else if q.core.phase = .done ∧ q.staged ≠ [] then none
      else runEnd (decodeCommand w) p.core q.core
    | none => if InRun p ∧ q.core.phase = .done ∧ q.staged = [] then some .complete else none

/-! ### Fairness -/

/-- 70_reset_and_hazards.md R284 (a): on the edges `xs` from `p` on, the SINK eventually accepts every byte
presented. (R284 (b), that the ENGINE's own work is bounded, is no assumption here: `PortIn.work` is a number.) -/
def SinkFair (xs : Nat → PortIn) (p : PortState) : Prop :=
  ∀ n q, edges ((List.range n).map xs) p = .next q → q.outValid = true → ∃ m, n ≤ m ∧ (xs m).outReady = true

/-! ### Reference functions, for claims about whole streams -/

/-- The last 20 bytes of a sequence, what a window that received all of it holds (20_memory.md R79). -/
def lastWindow (bs : List Byte) : List Byte := bs.drop (bs.length - Config.hw.windowSize)

/-- A command that may stand between START and FINISH of an undisturbed run. -/
abbrev FeedInstr (i : Instr) : Prop := i = .eoc ∨ ∃ b, i = .push b

/-- The bytes PUSHed by a sequence of commands, in order. -/
def pushedBytes : List Instr → List Byte
  | [] => []
  | .push b :: is => b :: pushedBytes is
  | _ :: is => pushedBytes is

/-- The pairs of one maximal run of length `n`: `n / 255` pairs of count 255, and one of `n % 255` if that is
not 0 (40_rle_encode.md R125). -/
def groupPairs : List Byte → List Byte
  | [] => []
  | v :: vs =>
    (List.replicate ((v :: vs).length / Config.hw.maxRun) [v, BitVec.ofNat Config.hw.byteBits Config.hw.maxRun]).flatten ++
      if (v :: vs).length % Config.hw.maxRun = 0 then []
      else [v, BitVec.ofNat Config.hw.byteBits ((v :: vs).length % Config.hw.maxRun)]

/-- The pairs of an input, by its maximal runs (40_rle_encode.md R125). -/
def rlePairs (bs : List Byte) : List Byte := (bs.splitBy (· == ·)).flatMap groupPairs

end Sys2Proof
end

