-- ==== Sys2Proof/Certificates/Slice0/Obligations.lean ====
section
/-! DEFINITION. The statements about the machine, in the order of OBLIGATIONS.json. -/

open Sys2Proof Sys2Proof.Machine

/-! ### Encoding -/

/-- The decoder reads back every well-formed instruction from its encoding (spec/opcode_table.json, all rows). -/
def Obligations.DecodeOfEncodeIsTheInstruction : Prop :=
  ∀ i : Instr, i.wf = true → decode (encode i) = .ok i

/-- Every 11-bit word matches exactly one CMD11 row of the opcode table by mask and match, and decodes to that
row's instruction. -/
def Obligations.EveryCommandWordMatchesOneTableRow : Prop :=
  ∀ w : CommandWord, ∃ row ∈ commandRows,
    w &&& row.mask = row.pattern ∧ decode (.command w) = .ok (row.instr w) ∧
      ∀ other ∈ commandRows, w &&& other.mask = other.pattern → other.pattern = row.pattern

/-- 30_encoding.md R104 and 44_framing_commands.md R219: the three reserved operations change nothing in any
state, and the bits marked "ignored" in R102 do not change what a word decodes to. -/
def Obligations.ReservedOperationsAndIgnoredBitsDoNothing : Prop :=
  (∀ s, exec .reserved5 s = .next s ∧ exec .reserved6 s = .next s ∧ exec .reserved7 s = .next s) ∧
  (∀ w : CommandWord,
    (opField w = 0b101#3 → decode (.command w) = .ok .reserved5) ∧
    (opField w = 0b110#3 → decode (.command w) = .ok .reserved6) ∧
    (opField w = 0b111#3 → decode (.command w) = .ok .reserved7)) ∧
  (∀ w w' : CommandWord, opField w = opField w' → opField w ≠ 0b001#3 →
    (opField w = 0b000#3 → modeField w = modeField w') → decode (.command w) = decode (.command w'))

/-- Reading one unit from a stream undoes writing it, whatever follows, and what is read is always a well-formed
unit of that format followed by the rest (30_encoding.md sections 2 and 3). -/
def Obligations.UnitsOnTheWireAreReadAsWritten : Prop :=
  (∀ (i : Instr) (fmt : Format) (rest : List Byte), i.wf = true → encode i = .wire fmt (unitBytes i) →
    decodeUnit fmt (unitBytes i ++ rest) = .ok (i, rest)) ∧
  (∀ (fmt : Format) (bytes : List Byte) (i : Instr) (rest : List Byte), decodeUnit fmt bytes = .ok (i, rest) →
    i.wf = true ∧ encode i = .wire fmt (unitBytes i) ∧ bytes = unitBytes i ++ rest)

/-- A few words written out from the encodings: 30_encoding.md R105 (`0x002`, `0x161`, `0x200`, `0x300`,
`0x400`), 95_test_vectors.md V95 and V96 (`0x5AB`, `0x0FE`), and the units of R92, R94, R95, R97, R191. -/
def Obligations.WrittenWordsDecodeToTheirInstructions : Prop :=
  decode (.command 0b00000000010#11) = .ok .startLzEnc ∧
  decode (.command 0b00011111110#11) = .ok .startLzEnc ∧
  decode (.command 0b00101100001#11) = .ok (.push 0x61#8) ∧
  decode (.command 0b01000000000#11) = .ok .eoc ∧
  decode (.command 0b01100000000#11) = .ok .finish ∧
  decode (.command 0b10000000000#11) = .ok .abort ∧
  decode (.command 0b10110101011#11) = .ok .reserved5 ∧
  decode (.wire .rleHeader [0b01010010#8]) = .ok .rleMagic ∧
  decode (.wire .rleBody [0x41#8, 0x2D#8]) = .ok (.rlePair 0x41#8 0x2D#8) ∧
  decode (.wire .lzHeader [0b01001100#8]) = .ok .lzMagic ∧
  decode (.wire .lzToken [0x00#8, 0x61#8]) = .ok (.lzLiteral 0x61#8) ∧
  decode (.wire .lzToken [0x01#8, 0x14#8, 0x03#8]) = .ok (.lzMatch 0x14#8 0x03#8) ∧
  decode (.wire .lzToken [0b00000010#8]) = .ok (.lzUnknownFlagB1 0x02#8)

/-! ### The step -/

/-- When the HOST's next move decodes to an instruction, the step takes the move and runs it; so a word of the
table's numbering, presented first, is run first. -/
def Obligations.StepRunsTheDecodedInstruction : Prop :=
  (∀ (s : State) (x : Input) (rest : List Input) (i : Instr),
    s.input = x :: rest → decode x = .ok i → step s = exec i { s with input := rest }) ∧
  (∀ (s : State) (nbits w : Nat) (i : Instr),
    decodeTableWord nbits w = some i → step (s.withFetchWord nbits w) = exec i s)

/-- 60_exceptions.md R259: an idle ENGINE keeps all state, at the transaction level (no move presented) and at
the port level (`cmd_valid = 0`). -/
def Obligations.IdleEngineKeepsAllState : Prop :=
  (∀ s : State, s.input = [] → step s = .next s) ∧
  (∀ (x : PortIn) (p : PortState), x.rst = false → x.cmdValid = false → p.cmdReady = true →
    edge x p = .next p)

/-- The reset line has the effect of ABORT plus `MODE <- 0`, emits nothing and retracts nothing
(70_reset_and_hazards.md section 1). What the data registers hold after it is left out: the spec leaves it
unspecified, and the model's values are log 5. -/
def Obligations.ResetLineIsAbortPlusModeZero : Prop :=
  ∀ (s : State) (rest : List Input), s.input = .rst :: rest →
    ∃ t u, step s = .next t ∧ exec .abort s = .next u ∧
      t = { u with
        mode := .rleEnc, input := rest
        runValue := t.runValue, runLen := t.runLen, res0 := t.res0, res1 := t.res1 } ∧
      t.phase = .idle ∧ t.err = .noError ∧ t.runOpen = false ∧ t.win = [] ∧ t.la = [] ∧ t.resLen = 0 ∧
      t.eocSeen = false ∧ t.out = s.out

/-- Running the bytes of a wire unit in one step is running their PUSH command words one step each, in every
state (the model's choice, log 3; 43_lz77_decode.md section 1). -/
def Obligations.WireUnitRunsAsItsPushes : Prop :=
  (∀ (s : State) (fmt : Format) (bytes : List Byte) (rest : List Input), s.input = .wire fmt bytes :: rest →
    step s =
      Host.Core.run Sys2Proof.core bytes.length
        { s with input := bytes.map (fun b => Input.command (commandWord 0b001#3 b)) ++ rest }) ∧
  (∀ (i : Instr) (s : State), unitBytes i ≠ [] → exec i s = execAll (pushes (unitBytes i)) s)

/-! ### The framing commands -/

/-- 44_framing_commands.md R211 and 10_state.md R40, for the four modes: the whole state after START. -/
def Obligations.StartCreatesTheInstance : Prop :=
  ∀ s : State,
    exec .startRleEnc s = .next { s with
      phase := .body, mode := .rleEnc, err := .noError, runOpen := false, win := [], la := [], resLen := 0
      eocSeen := false, out := s.out ++ [0x52#8] } ∧
    exec .startRleDec s = .next { s with
      phase := .header, mode := .rleDec, err := .noError, runOpen := false, win := [], la := [], resLen := 0
      eocSeen := false } ∧
    exec .startLzEnc s = .next { s with
      phase := .body, mode := .lzEnc, err := .noError, runOpen := false, win := [], la := [], resLen := 0
      eocSeen := false, out := s.out ++ [0x4C#8] } ∧
    exec .startLzDec s = .next { s with
      phase := .header, mode := .lzDec, err := .noError, runOpen := false, win := [], la := [], resLen := 0
      eocSeen := false }

/-- 44_framing_commands.md R212: the whole state after ABORT; nothing is emitted; in IDLE it changes nothing. -/
def Obligations.AbortDiscardsTheInstance : Prop :=
  (∀ s : State,
    exec .abort s = .next { s with
      phase := .idle, err := .noError, runOpen := false, win := [], la := [], resLen := 0, eocSeen := false }) ∧
  (∀ s : State, Inv s → s.phase = .idle → exec .abort s = .next s)

/-- In IDLE, DONE and ERROR every instruction but START and ABORT leaves the whole state as it is: PUSH, EOC and
FINISH and the reserved operations (44_framing_commands.md section 1), and the wire units, which run as PUSH
commands (DEDUCED, log 3). -/
def Obligations.OnlyStartAndAbortActOutsideARun : Prop :=
  ∀ (s : State) (i : Instr), s.phase = .idle ∨ s.phase = .done ∨ s.phase = .error →
    i ≠ .startRleEnc → i ≠ .startRleDec → i ≠ .startLzEnc → i ≠ .startLzDec → i ≠ .abort →
    exec i s = .next s

/-- 44_framing_commands.md R214: in HEADER the byte is compared with `0x52` (RLE) or `0x4C` (LZ77); equal, the
body begins; otherwise FormatError. -/
def Obligations.FirstByteIsCheckedAgainstTheMagic : Prop :=
  ∀ (s : State) (b : Byte), s.phase = .header →
    (s.mode = .rleEnc ∨ s.mode = .rleDec →
      exec (.push b) s =
        .next (if b = 0x52#8 then { s with phase := .body }
          else { s with phase := .error, err := .formatError })) ∧
    (s.mode = .lzEnc ∨ s.mode = .lzDec →
      exec (.push b) s =
        .next (if b = 0x4C#8 then { s with phase := .body }
          else { s with phase := .error, err := .formatError }))

/-- FINISH before any byte, for every value of the parameter `EMPTY_DECODE`, and for the value FormatError that
this hardware's record takes. That value is the spec's own choice for an OPEN parameter (92_eei_decisions.md
D11, log 8). -/
def Obligations.FinishBeforeAnyByteFollowsEmptyDecode : Prop :=
  ∀ s : State, s.phase = .header →
    (∀ o, finishStream ⟨o, .formatError⟩ s = .ok { s with phase := .error, err := .formatError }) ∧
    (∀ o, finishStream ⟨o, .truncatedStreamError⟩ s =
      .ok { s with phase := .error, err := .truncatedStreamError }) ∧
    (∀ o, finishStream ⟨o, .ok⟩ s = .ok { s with phase := .done }) ∧
    exec .finish s = .next { s with phase := .error, err := .formatError }

/-- 40_rle_encode.md R123, 41_rle_decode.md R142, 43_lz77_decode.md R195: a chunk boundary changes nothing in
these modes; nor does it before the magic byte. -/
def Obligations.EndOfChunkIsNoOperationOutsideTheLzEncoder : Prop :=
  ∀ s : State,
    (s.phase = .body → s.mode = .rleEnc ∨ s.mode = .rleDec ∨ s.mode = .lzDec → exec .eoc s = .next s) ∧
    (s.phase = .header → exec .eoc s = .next s)

/-! ### RLE -/

/-- 40_rle_encode.md R122, the whole state after each of its three branches. -/
def Obligations.RleEncoderPushTracksTheRun : Prop :=
  ∀ (s : State) (b : Byte), s.phase = .body → s.mode = .rleEnc →
    (s.runOpen = false →
      exec (.push b) s = .next { s with runOpen := true, runValue := b, runLen := 1#8 }) ∧
    (s.runOpen = true → b = s.runValue → s.runLen.toNat < 255 →
      exec (.push b) s = .next { s with runLen := s.runLen + 1#8 } ∧
        (s.runLen + 1#8).toNat = s.runLen.toNat + 1) ∧
    (s.runOpen = true → b ≠ s.runValue ∨ s.runLen.toNat = 255 →
      exec (.push b) s = .next { s with
        out := s.out ++ [s.runValue, s.runLen], runValue := b, runLen := 1#8 })

/-- 40_rle_encode.md R124: the open run, if any, is the final pair, and the result is Ok. -/
def Obligations.RleEncoderFinishFlushesTheRun : Prop :=
  ∀ s : State, s.phase = .body → s.mode = .rleEnc →
    (s.runOpen = true →
      exec .finish s = .next { s with
        out := s.out ++ [s.runValue, s.runLen], runOpen := false, phase := .done }) ∧
    (s.runOpen = false → exec .finish s = .next { s with phase := .done })

/-- 41_rle_decode.md R141, the whole state after each of its branches. -/
def Obligations.RleDecoderPushExpandsPairs : Prop :=
  ∀ (s : State) (b : Byte), s.phase = .body → s.mode = .rleDec →
    (s.resLen = 0 → exec (.push b) s = .next { s with res0 := b, resLen := 1 }) ∧
    (s.resLen ≠ 0 → b = 0#8 →
      exec (.push b) s = .next { s with phase := .error, err := .corruptDataError }) ∧
    (s.resLen ≠ 0 → b ≠ 0#8 →
      exec (.push b) s = .next { s with
        out := s.out ++ List.replicate b.toNat s.res0, resLen := 0 })

/-- 41_rle_decode.md R143 and 43_lz77_decode.md R196: a residue at the end of the input is
TruncatedStreamError; none is Ok; nothing is emitted. -/
def Obligations.DecoderFinishChecksTheResidue : Prop :=
  ∀ s : State, s.phase = .body → s.mode = .rleDec ∨ s.mode = .lzDec →
    (s.resLen ≠ 0 → exec .finish s = .next { s with phase := .error, err := .truncatedStreamError }) ∧
    (s.resLen = 0 → exec .finish s = .next { s with phase := .done })

/-- The RLE encoding of any input, in any chunks, is the magic byte and the pairs of its maximal runs
(40_rle_encode.md section 3). -/
def Obligations.RleEncodingIsThePairsOfMaximalRuns : Prop :=
  ∀ (s : State) (chunks : List (List Byte)),
    ∃ t, execAll (streamTrace .rleEnc chunks) s = .next t ∧ t.phase = .done ∧ t.err = .noError ∧
      t.out = s.out ++ 0x52#8 :: rlePairs chunks.flatten

/-- RLE round trip (95_test_vectors.md V13): whatever PUSH and EOC commands an encoder is given, decoding its
output, in any chunks and from any state, gives the pushed bytes and ends in DONE. -/
def Obligations.RleDecodingInvertsEncoding : Prop :=
  ∀ (s u : State) (cmds : List Instr), (∀ i ∈ cmds, FeedInstr i) →
    ∃ t encoded, execAll (.startRleEnc :: cmds ++ [.finish]) s = .next t ∧ t.phase = .done ∧
      t.out = s.out ++ encoded ∧
      ∀ chunks : List (List Byte), chunks.flatten = encoded →
        ∃ w, execAll (streamTrace .rleDec chunks) u = .next w ∧ w.phase = .done ∧
          w.out = u.out ++ pushedBytes cmds

/-! ### LZ77 encoder -/

/-- 42_lz77_encode.md R164: the pseudocode's loop performs no forbidden read and returns the longest common
prefix of the look-ahead and the window suffix (continued by the look-ahead if `OVERLAP_SEARCH = 1`), which is
at most `min(WLEN - i, LA_LEN)` if it is 0. -/
def Obligations.MatchLengthIsTheLongestCommonPrefix : Prop :=
  ∀ (overlap : Bool) (s : State) (i : Nat), i < s.win.length →
    curLenLoop overlap i s s.la.length 0 = .ok (curLen overlap s.win s.la i) ∧
    curLen overlap s.win s.la i ≤ s.la.length ∧
    (overlap = false → curLen overlap s.win s.la i ≤ min (s.win.length - i) s.la.length) ∧
    (matchSource overlap s.win s.la i).take (curLen overlap s.win s.la i) =
      s.la.take (curLen overlap s.win s.la i) ∧
    (∀ n, n ≤ s.la.length → (matchSource overlap s.win s.la i).take n = s.la.take n →
      n ≤ curLen overlap s.win s.la i)

/-- The search finds the longest match and, among equal ones, the latest index, so the smallest offset; with an
empty window it finds `(0, 0)` (42_lz77_encode.md section 2). -/
def Obligations.SearchFindsTheNearestLongestMatch : Prop :=
  ∀ (overlap : Bool) (win la : List Byte),
    (win = [] → search overlap win la = (0, 0)) ∧
    (win ≠ [] →
      (search overlap win la).1 < win.length ∧
      (search overlap win la).2 = curLen overlap win la (search overlap win la).1 ∧
      ∀ i, i < win.length →
        curLen overlap win la i ≤ (search overlap win la).2 ∧
        (curLen overlap win la i = (search overlap win la).2 → i ≤ (search overlap win la).1))

/-- 42_lz77_encode.md R168, R169, R176: the whole state after a token. A Match is emitted when the best length
is at least 3 (and the offset at most 255), with the offset computed before any byte moves, and `length` bytes
move into the window one by one; otherwise the front byte is a Literal and moves. -/
def Obligations.TokenIsSerialisedAndMoved : Prop :=
  ∀ (v : Variant) (s : State) (b : Byte) (rest : List Byte), s.la = b :: rest →
    let best := search v.overlapSearch s.win s.la
    let offset := s.win.length - best.1
    (3 ≤ best.2 ∧ offset ≤ 255 →
      best.2 ≤ s.la.length ∧
      token v s = .ok { s with
        out := s.out ++ [0x01#8, BitVec.ofNat 8 offset, BitVec.ofNat 8 best.2]
        la := s.la.drop best.2
        win := (s.la.take best.2).foldl windowAppend s.win }) ∧
    (¬(3 ≤ best.2 ∧ offset ≤ 255) →
      token v s = .ok { s with
        out := s.out ++ [0x00#8, b], la := rest, win := windowAppend s.win b })

/-- 42_lz77_encode.md R161: below 255 bytes the byte only waits; the 255th brings one token. -/
def Obligations.LzEncoderPushFillsTheLookAhead : Prop :=
  ∀ (s : State) (b : Byte), s.phase = .body → s.mode = .lzEnc → s.la.length ≤ 254 →
    (s.la.length < 254 → exec (.push b) s = .next { s with la := s.la ++ [b] }) ∧
    (s.la.length = 254 →
      ∃ t, token Config.hw.variant { s with la := s.la ++ [b] } = .ok t ∧ exec (.push b) s = .next t ∧
        t.la.length ≤ 254)

/-- 42_lz77_encode.md R163: the loop of EOC, token by token, and its end: an empty look-ahead, the window kept
and grown by every byte encoded, and nothing else changed but the output. -/
def Obligations.LzEncoderEndOfChunkDrainsTheLookAhead : Prop :=
  ∀ s : State, s.phase = .body → s.mode = .lzEnc → s.eocSeen = false →
    (s.la = [] → exec .eoc s = .next s) ∧
    (s.la ≠ [] → ∃ t, token Config.hw.variant s = .ok t ∧ exec .eoc s = exec .eoc t) ∧
    (∃ bs, exec .eoc s = .next { s with
      out := s.out ++ bs, la := [], win := s.la.foldl windowAppend s.win })

/-- 42_lz77_encode.md R170: the whole state after FINISH, every byte left written as a Literal with no search. -/
def Obligations.LzEncoderFinishWritesLiterals : Prop :=
  ∀ s : State, s.phase = .body → s.mode = .lzEnc →
    exec .finish s = .next { s with
      out := s.out ++ s.la.flatMap (fun b => [0x00#8, b])
      la := []
      win := s.la.foldl windowAppend s.win
      phase := .done }

/-- Every token emitted is a Literal of the front byte or a Match within the bounds of 42_lz77_encode.md section
5: `1 <= offset <= WLEN`, `3 <= length <= LA_LEN`, and `length <= offset` when `OVERLAP_SEARCH = 0`. -/
def Obligations.EmittedTokensAreWithinBounds : Prop :=
  ∀ (v : Variant) (s t : State), s.la ≠ [] → s.la.length ≤ 255 → s.win.length ≤ 20 → token v s = .ok t →
    ∃ i, t.out = s.out ++ unitBytes i ∧
      ((∃ b, i = .lzLiteral b ∧ s.la.head? = some b) ∨
        ∃ o n, i = .lzMatch o n ∧ 1 ≤ o.toNat ∧ o.toNat ≤ s.win.length ∧ 3 ≤ n.toNat ∧
          n.toNat ≤ s.la.length ∧ (v.overlapSearch = false → n.toNat ≤ o.toNat))

/-! ### LZ77 decoder -/

/-- 43_lz77_decode.md R191, the whole state: a known flag waits in the residue, any other raises
UnknownTokenError at once. -/
def Obligations.LzDecoderFlagByteSelectsTheToken : Prop :=
  ∀ (s : State) (b : Byte), s.phase = .body → s.mode = .lzDec → s.resLen = 0 →
    (b = 0x00#8 ∨ b = 0x01#8 → exec (.push b) s = .next { s with res0 := b, resLen := 1 }) ∧
    (b ≠ 0x00#8 → b ≠ 0x01#8 →
      exec (.push b) s = .next { s with phase := .error, err := .unknownTokenError })

/-- 43_lz77_decode.md R192, the whole state: a literal byte is emitted and appended; an offset, of any value,
waits in the residue. -/
def Obligations.LzDecoderSecondByteIsLiteralOrOffset : Prop :=
  ∀ (s : State) (b : Byte), s.phase = .body → s.mode = .lzDec → s.resLen = 1 →
    (s.res0 = 0x00#8 →
      exec (.push b) s = .next { s with
        out := s.out ++ [b], win := windowAppend s.win b, resLen := 0 }) ∧
    (s.res0 ≠ 0x00#8 → exec (.push b) s = .next { s with res1 := b, resLen := 2 })

/-- 43_lz77_decode.md R193: an illegal Match raises CorruptDataError and emits nothing; a legal one is copied
and the residue is empty. -/
def Obligations.LzDecoderLengthByteValidatesThenCopies : Prop :=
  ∀ (s : State) (b : Byte), s.phase = .body → s.mode = .lzDec → s.resLen = 2 →
    (s.res1 = 0#8 ∨ b = 0#8 ∨ s.win.length < s.res1.toNat →
      exec (.push b) s = .next { s with phase := .error, err := .corruptDataError }) ∧
    (s.res1 ≠ 0#8 → b ≠ 0#8 → s.res1.toNat ≤ s.win.length →
      ∃ t, copy s.res1.toNat b.toNat s = .ok t ∧ exec (.push b) s = .next { t with resLen := 0 })

/-- 43_lz77_decode.md R194: the copy emits `length` bytes, the first `offset` of them read from the history and
each later one equal to the byte `offset` before it, and appends each to the history in order; nothing else
changes and no read is out of range. -/
def Obligations.CopyIsPeriodicInItsOffset : Prop :=
  ∀ (s : State) (offset length : Nat), 1 ≤ offset → offset ≤ s.win.length → 1 ≤ length → length ≤ 255 →
    ∃ bs : List Byte, bs.length = length ∧
      copy offset length s = .ok { s with out := s.out ++ bs, win := bs.foldl windowAppend s.win } ∧
      ∀ n, n < length →
        bs[n]? = if n < offset then s.win[s.win.length - offset + n]? else bs[n - offset]?

/-! ### The window -/

/-- A window that starts within capacity and has bytes appended holds the last 20 of what it held followed by
what came (20_memory.md section 2), and never more than 20. -/
def Obligations.WindowHoldsTheLastTwentyBytes : Prop :=
  ∀ w bs : List Byte, w.length ≤ 20 →
    bs.foldl windowAppend w = lastWindow (w ++ bs) ∧ (bs.foldl windowAppend w).length ≤ 20

/-- The circular buffer and the shift register of 20_memory.md section 2 keep their form, are empty after
`WinClear` and after reset, which sets `W_HEAD` to 0 (10_state.md section 8), and show the sequence form of the
window after every append. -/
def Obligations.PhysicalWindowsShowTheSequenceForm : Prop :=
  (∀ (r : Ring) (b : Byte), r.wf → (r.append b).wf ∧ (r.append b).view = windowAppend r.view b) ∧
  (∀ r : Ring, r.wf → r.clear.wf ∧ r.clear.view = [] ∧
    r.reset.wf ∧ r.reset.view = [] ∧ r.reset.wHead = 0 ∧ r.reset.wLen = 0) ∧
  (∀ (r : ShiftRegister) (b : Byte), r.wf →
    (r.append b).wf ∧ (r.append b).view = windowAppend r.view b) ∧
  (∀ r : ShiftRegister, r.wf → r.clear.wf ∧ r.clear.view = [] ∧ r.reset.wf ∧ r.reset.view = [])

/-- After any PUSH and EOC commands of a decoding run the history is the last 20 bytes the run emitted
(43_lz77_decode.md section 3). -/
def Obligations.DecoderHistoryIsItsLastOutput : Prop :=
  ∀ (s t : State) (cmds : List Instr), (∀ i ∈ cmds, FeedInstr i) →
    execAll (.startLzDec :: cmds) s = .next t → ∃ bs, t.out = s.out ++ bs ∧ t.win = lastWindow bs

/-- After any PUSH and EOC commands of an encoding run the input so far is the bytes encoded followed by the
look-ahead, and the window is the last 20 bytes encoded (42_lz77_encode.md section 5). -/
def Obligations.EncoderWindowIsItsLastEncodedInput : Prop :=
  ∀ (s : State) (cmds : List Instr), (∀ i ∈ cmds, FeedInstr i) →
    ∃ t encoded, execAll (.startLzEnc :: cmds) s = .next t ∧ pushedBytes cmds = encoded ++ t.la ∧
      t.win = lastWindow encoded

/-! ### Errors, phases and frames -/

/-- A command that enters ERROR writes `ERR` and `PHASE` and nothing else: it emits nothing and every other
register keeps its value (60_exceptions.md section 2). -/
def Obligations.ErrorEntryWritesOnlyErrAndPhase : Prop :=
  ∀ (s t : State) (i : Instr), unitBytes i = [] → exec i s = .next t → s.phase ≠ .error → t.phase = .error →
    t.err ≠ .noError ∧ t = { s with err := t.err, phase := .error }

/-- The complete causes of the four errors (60_exceptions.md section 1), by what the byte means to the instance
(10_state.md R33). The FormatError of FINISH in HEADER rests on the spec's choice D11 (log 8). -/
def Obligations.ErrorsHaveExactlyTheirCauses : Prop :=
  ∀ s t : State, Inv s → s.phase ≠ .error →
    (∀ b, exec (.push b) s = .next t →
      (t.err = .formatError ↔ s.nextRole = .magicByte ∧ b ≠ magic s.mode) ∧
      (t.err = .corruptDataError ↔
        (s.nextRole = .count ∧ b = 0#8) ∨
        (s.nextRole = .length ∧ (s.res1 = 0#8 ∨ b = 0#8 ∨ s.win.length < s.res1.toNat))) ∧
      (t.err = .unknownTokenError ↔ s.nextRole = .flag ∧ 2 ≤ b.toNat) ∧
      t.err ≠ .truncatedStreamError) ∧
    (exec .finish s = .next t →
      (t.err = .formatError ↔ s.phase = .header) ∧
      (t.err = .truncatedStreamError ↔ s.phase = .body ∧ s.resLen ≠ 0) ∧
      t.err ≠ .corruptDataError ∧ t.err ≠ .unknownTokenError) ∧
    (∀ i, unitBytes i = [] → (∀ b, i ≠ .push b) → i ≠ .finish → exec i s = .next t → t.err = .noError)

/-- The transition table of 44_framing_commands.md section 2 (its rule on FINISH in HEADER with the spec's
choice D11, log 8). -/
def Obligations.PhaseChangesOnlyByTheTransitionTable : Prop :=
  ∀ (s t : State) (i : Instr), Inv s → unitBytes i = [] → exec i s = .next t →
    t.phase =
      match i with
      | .startRleEnc | .startLzEnc => .body
      | .startRleDec | .startLzDec => .header
      | .abort => .idle
      | .push b =>
        match s.nextRole with
        | .magicByte => if b = magic s.mode then .body else .error
        | .count => if b = 0#8 then .error else .body
        | .flag => if 2 ≤ b.toNat then .error else .body
        | .length => if s.res1 = 0#8 ∨ b = 0#8 ∨ s.win.length < s.res1.toNat then .error else .body
        | .data | .value | .literalByte | .offset => .body
        | .ignored => s.phase
      | .finish =>
        match s.phase with
        | .header => .error
        | .body => if s.resLen = 0 then .done else .error
        | .idle | .done | .error => s.phase
      | _ => s.phase

/-- Nothing an instruction or a move of the HOST does removes or alters a byte already emitted (20_memory.md
section 4; 60_exceptions.md section 2). -/
def Obligations.OutputIsAppendOnly : Prop :=
  (∀ (i : Instr) (s t : State), exec i s = .next t → ∃ bs, t.out = s.out ++ bs) ∧
  (∀ s t : State, step s = .next t → ∃ bs, t.out = s.out ++ bs)

/-- The frame of PUSH, EOC, FINISH and the wire units: `MODE` and the HOST's later moves are unchanged, and so is
every register the mode does not use (10_state.md sections 2 and 7). -/
def Obligations.CommandsLeaveOtherModesStateAlone : Prop :=
  ∀ (s t : State) (i : Instr), i ≠ .startRleEnc → i ≠ .startRleDec → i ≠ .startLzEnc → i ≠ .startLzDec →
    i ≠ .abort → exec i s = .next t →
    t.mode = s.mode ∧ t.input = s.input ∧
    (s.mode ≠ .rleEnc → t.runOpen = s.runOpen ∧ t.runValue = s.runValue ∧ t.runLen = s.runLen) ∧
    (s.mode = .rleEnc ∨ s.mode = .rleDec → t.win = s.win) ∧
    (s.mode ≠ .lzEnc → t.la = s.la ∧ t.eocSeen = s.eocSeen) ∧
    (s.mode = .rleEnc ∨ s.mode = .lzEnc → t.resLen = s.resLen ∧ t.res0 = s.res0) ∧
    (s.mode ≠ .lzDec → t.res1 = s.res1)

/-! ### The wire units, where the decoders execute them -/

/-- The magic units open the body of a decoder that waits for them (30_encoding.md section 3, R97, with
44_framing_commands.md R214), and nothing is stored or emitted. -/
def Obligations.MagicUnitOpensTheBody : Prop :=
  ∀ s : State, s.phase = .header →
    (s.mode = .rleDec → exec .rleMagic s = .next { s with phase := .body }) ∧
    (s.mode = .lzDec → exec .lzMagic s = .next { s with phase := .body }) ∧
    (s.mode = .lzDec → exec .rleMagic s = .next { s with phase := .error, err := .formatError }) ∧
    (s.mode = .rleDec → exec .lzMagic s = .next { s with phase := .error, err := .formatError })

/-- A whole pair stands for `value x count`, and count 0 is CorruptDataError (30_encoding.md R92). -/
def Obligations.RlePairUnitExpandsToItsRun : Prop :=
  ∀ (s : State) (value count : Byte), s.phase = .body → s.mode = .rleDec → s.resLen = 0 →
    (count ≠ 0#8 →
      exec (.rlePair value count) s = .next { s with
        out := s.out ++ List.replicate count.toNat value, res0 := value }) ∧
    (count = 0#8 →
      exec (.rlePair value count) s = .next { s with
        res0 := value, resLen := 1, phase := .error, err := .corruptDataError })

/-- A whole Literal emits its byte and appends it to the history (30_encoding.md R94). -/
def Obligations.LzLiteralUnitEmitsItsByte : Prop :=
  ∀ (s : State) (b : Byte), s.phase = .body → s.mode = .lzDec → s.resLen = 0 →
    exec (.lzLiteral b) s = .next { s with
      out := s.out ++ [b], win := windowAppend s.win b, res0 := 0x00#8 }

/-- A whole Match copies `length` bytes from `offset` back, overlapping itself if it must, or is CorruptDataError
(30_encoding.md R95; 43_lz77_decode.md R193, R194). -/
def Obligations.LzMatchUnitCopiesFromTheHistory : Prop :=
  ∀ (s : State) (offset length : Byte), s.phase = .body → s.mode = .lzDec → s.resLen = 0 →
    (offset ≠ 0#8 → length ≠ 0#8 → offset.toNat ≤ s.win.length →
      ∃ bs : List Byte, bs.length = length.toNat ∧
        exec (.lzMatch offset length) s = .next { s with
          out := s.out ++ bs, win := bs.foldl windowAppend s.win, res0 := 0x01#8, res1 := offset } ∧
        ∀ n, n < length.toNat →
          bs[n]? =
            if n < offset.toNat then s.win[s.win.length - offset.toNat + n]? else bs[n - offset.toNat]?) ∧
    (offset = 0#8 ∨ length = 0#8 ∨ s.win.length < offset.toNat →
      exec (.lzMatch offset length) s = .next { s with
        res0 := 0x01#8, res1 := offset, resLen := 2, phase := .error, err := .corruptDataError })

/-- The seven unknown-flag rows: each of their bytes, where a flag is due, raises UnknownTokenError
(43_lz77_decode.md R191). -/
def Obligations.UnknownFlagRowsRaiseUnknownToken : Prop :=
  ∀ (s : State) (i : Instr) (f : Byte), s.phase = .body → s.mode = .lzDec → s.resLen = 0 → i.wf = true →
    i ∈ [Instr.lzUnknownFlagB7 f, .lzUnknownFlagB6 f, .lzUnknownFlagB5 f, .lzUnknownFlagB4 f,
      .lzUnknownFlagB3 f, .lzUnknownFlagB2 f, .lzUnknownFlagB1 f] →
    exec i s = .next { s with phase := .error, err := .unknownTokenError }

/-! ### Whole-machine rules -/

/-- From every legal state a step answers a next state, and a legal one: no fault, no refusal, whatever the HOST
presents (44_framing_commands.md R210; 10_state.md R23, R26, R28 to R32, R35). -/
def Obligations.StepCompletesAndKeepsTheInvariant : Prop :=
  ∀ s : State, Inv s → ∃ t, step s = .next t ∧ Inv t

/-- The state after reset is legal, idle and without error (10_state.md section 8), at the port level too
(70_reset_and_hazards.md section 1). -/
def Obligations.ResetIsIdleAndMeetsTheInvariant : Prop :=
  Inv State.reset ∧ State.reset.phase = .idle ∧ State.reset.mode = .rleEnc ∧ State.reset.err = .noError ∧
    State.reset.runOpen = false ∧ State.reset.wlen = 0 ∧ State.reset.laLen = 0 ∧ State.reset.resLen = 0 ∧
    State.reset.eocSeen = false ∧ State.reset.status = 0x00#8 ∧
    PortInv PortState.reset ∧ PortState.reset.core = State.reset ∧ PortState.reset.cmdReady = true ∧
    PortState.reset.outValid = false ∧ PortState.reset.doneLine = false ∧ PortState.reset.errorLine = false

/-- What a data register holds while it holds no value changes nothing: two states that agree in every register
that holds a value step to outcomes that agree so, with the same output (10_state.md R25, R26, R30;
93_implementation_defined.md U1, U2). So no run depends on the reset values of log 5. -/
def Obligations.RegistersWithoutValueAreInvisible : Prop :=
  ∀ s t : State, SameValues s t → SameOutcome (step s) (step t) ∧ t.status = s.status ∧ t.out = s.out

/-- 10_state.md R37: the layout of the status word and the two lines. -/
def Obligations.StatusWordShowsPhaseModeAndErr : Prop :=
  ∀ s : State,
    s.status.extractLsb' 0 3 = s.phase.code ∧ s.status.extractLsb' 3 2 = s.mode.code ∧
    s.status.extractLsb' 5 3 = s.err.code ∧
    (s.doneLine = true ↔ s.phase = .done) ∧ (s.errorLine = true ↔ s.phase = .error)

/-- In every mode but LZ_ENC, where the EOC commands fall among the PUSH commands has no effect at all on the
state (44_framing_commands.md section 2). -/
def Obligations.ChunkBoundariesHaveNoEffectOutsideTheLzEncoder : Prop :=
  ∀ (s : State) (cmds : List Instr), s.mode ≠ .lzEnc → (∀ i ∈ cmds, FeedInstr i) →
    execAll cmds s = execAll (pushes (pushedBytes cmds)) s

/-- LZ77 round trip (95_test_vectors.md V13, V14): whatever PUSH and EOC commands an encoder is given, decoding
its output, in any chunks and from any state, gives the pushed bytes and ends in DONE. -/
def Obligations.LzDecodingInvertsEncoding : Prop :=
  ∀ (s u : State) (cmds : List Instr), (∀ i ∈ cmds, FeedInstr i) →
    ∃ t encoded, execAll (.startLzEnc :: cmds ++ [.finish]) s = .next t ∧ t.phase = .done ∧
      t.out = s.out ++ encoded ∧
      ∀ chunks : List (List Byte), chunks.flatten = encoded →
        ∃ w, execAll (streamTrace .lzDec chunks) u = .next w ∧ w.phase = .done ∧
          w.out = u.out ++ pushedBytes cmds

/-- How a run ends (70_reset_and_hazards.md section 5): executing an instruction in an active instance either
leaves it active in the same mode, or completes it in DONE, or fails it in ERROR with the kind in `ERR`, or
discards it (START, ABORT). A move of the HOST does the same, and `rst` always discards. At the port level an edge
that ends nothing leaves the run in progress, and `rst` discards it also while the bytes of its FINISH are still
being transferred (log 14; 44_framing_commands.md section 3). -/
def Obligations.RunsEndOnlyAsDefined : Prop :=
  (∀ (s t : State) (i : Instr), Inv s → Active s → exec i s = .next t →
    match runEnd i s t with
    | none => Active t ∧ t.mode = s.mode ∧ t.err = .noError
    | some .complete => i = .finish ∧ t.phase = .done ∧ t.err = .noError ∧ t.mode = s.mode
    | some (.failed k) => t.phase = .error ∧ t.err = k ∧ k ≠ .noError ∧ t.mode = s.mode
    | some .discarded => i = .startRleEnc ∨ i = .startRleDec ∨ i = .startLzEnc ∨ i = .startLzDec ∨ i = .abort) ∧
  (∀ (s t : State) (x : Input) (rest : List Input), Inv s → Active s → s.input = x :: rest → step s = .next t →
    match moveEnd x s t with
    | none => Active t ∧ t.mode = s.mode ∧ t.err = .noError
    | some .complete => decode x = .ok .finish ∧ t.phase = .done ∧ t.err = .noError ∧ t.mode = s.mode
    | some (.failed k) => t.phase = .error ∧ t.err = k ∧ k ≠ .noError ∧ t.mode = s.mode
    | some .discarded =>
      x = .rst ∨ decode x = .ok .abort ∨ ∃ m, decode x = .ok (startInstr m)) ∧
  (∀ (s t : State) (rest : List Input), Active s → s.input = .rst :: rest → step s = .next t →
    moveEnd .rst s t = some .discarded ∧ t.phase = .idle) ∧
  (∀ (x : PortIn) (p q : PortState), PortInv p → edge x p = .next q →
    match edgeEnd x p q with
    | none => InRun p → InRun q
    | some .complete =>
      InRun p ∧ x.rst = false ∧ q.core.phase = .done ∧ q.core.err = .noError ∧ q.cmdReady = true
    | some (.failed k) =>
      InRun p ∧ x.rst = false ∧ q.core.phase = .error ∧ q.core.err = k ∧ k ≠ .noError ∧ q.cmdReady = true
    | some .discarded =>
      InRun p ∧ (x.rst = true ∨ ∃ w, p.pending = some w ∧
        (decodeCommand w = .abort ∨ ∃ m, decodeCommand w = startInstr m))) ∧
  (∀ (x : PortIn) (p q : PortState), x.rst = true → InRun p → edge x p = .next q →
    edgeEnd x p q = some .discarded ∧ ¬InRun q)

/-! ### The port level -/

/-- Each clock edge without `rst` is one command of the transaction level, if it transfers one, and nothing
otherwise, on the transaction the port state stands for (00_scope.md section 4; 44_framing_commands.md
section 3). -/
def Obligations.PortEdgesRefineCommands : Prop :=
  ∀ (x : PortIn) (p q : PortState), PortInv p → x.rst = false → edge x p = .next q →
    q.transaction =
      if p.cmdReady = true ∧ x.cmdValid = true then exec (decodeCommand (commandWord x.cmdOp x.cmdData)) p.core
      else p.transaction

/-- From every legal port state every edge answers a legal one. -/
def Obligations.PortEdgesCompleteAndKeepTheInvariant : Prop :=
  ∀ (x : PortIn) (p : PortState), PortInv p → ∃ q, edge x p = .next q ∧ PortInv q

/-- 44_framing_commands.md R229: at an edge with `rst = 1` nothing is transferred, the command in progress is
abandoned, untransferred bytes are dropped, and the registers take their reset values, whatever else the edge
brings. What the data registers then hold is left out (log 5). -/
def Obligations.PortResetHasPriority : Prop :=
  ∀ (x : PortIn) (p : PortState), x.rst = true →
    ∃ q, edge x p = .next q ∧ q.pending = none ∧ q.staged = [] ∧ q.core.out = p.core.out ∧
      q.core.phase = .idle ∧ q.core.mode = .rleEnc ∧ q.core.err = .noError ∧ q.core.runOpen = false ∧
      q.core.win = [] ∧ q.core.la = [] ∧ q.core.resLen = 0 ∧ q.core.eocSeen = false ∧
      q.shown = 0x00#8 ∧ q.cmdReady = true ∧ q.outValid = false

/-- `status` changes only at the edge that completes a command, and shows DONE or ERROR of a command only once
every byte it emitted is transferred; a byte waits until `out_ready`, and while it waits the command does not
advance (44_framing_commands.md section 3; 70_reset_and_hazards.md section 3). -/
def Obligations.StatusChangesOnlyWhenACommandCompletes : Prop :=
  ∀ (x : PortIn) (p q : PortState), PortInv p → x.rst = false → edge x p = .next q →
    (q.shown ≠ p.shown → p.cmdReady = false ∧ q.cmdReady = true) ∧
    (q.cmdReady = true →
      q.staged = [] ∧ q.shown = q.core.status ∧ q.doneLine = q.core.doneLine ∧ q.errorLine = q.core.errorLine) ∧
    (p.outValid = true → x.outReady = false → q = p) ∧
    (p.outValid = true → x.outReady = true →
      ∃ b, p.outData = some b ∧ q.core.out = p.core.out ++ [b] ∧ q.staged = p.staged.tail)

/-- With a SINK that is ready, a transferred command completes within the edges of its own work, one for its state
update and one for each of its at most 508 bytes (70_reset_and_hazards.md section 4; 44_framing_commands.md
section 2). -/
def Obligations.CommandsCompleteWithinTheirOutputBound : Prop :=
  ∀ (x : PortIn) (p : PortState), PortInv p → p.pending ≠ none → x.rst = false → x.outReady = true →
    ∃ n q, n ≤ p.work + 509 ∧ edges (List.replicate n x) p = .next q ∧ q.cmdReady = true ∧
      q.transaction = p.transaction

/-- 70_reset_and_hazards.md section 4: given that the SINK eventually accepts every byte presented, and nothing of
the HOST but that it does not reset, the ENGINE never hangs: every command in execution completes, with the effect
of its transaction. -/
def Obligations.FairSinkLetsEveryCommandComplete : Prop :=
  ∀ (xs : Nat → PortIn) (p : PortState), PortInv p → (∀ n, (xs n).rst = false) → SinkFair xs p →
    p.cmdReady = false →
    ∃ n q, edges ((List.range n).map xs) p = .next q ∧ q.cmdReady = true ∧ q.transaction = p.transaction

/-! ### One instance and the next -/

/-- 70_reset_and_hazards.md R272: every START gives the instance an empty window, an empty look-ahead, no open run
and an empty residue, and no state leaks from one instance into the next: whatever two states START is executed
in, any commands after it emit the same bytes and leave states that agree in every register that holds a value. -/
def Obligations.NoStateLeaksIntoTheNextInstance : Prop :=
  (∀ (m : Mode) (s : State), ∃ t, exec (startInstr m) s = .next t ∧
    t.win = [] ∧ t.la = [] ∧ t.runOpen = false ∧ t.resLen = 0) ∧
  (∀ (m : Mode) (cmds : List Instr) (s t u : State), execAll (startInstr m :: cmds) s = .next t →
    ∃ w bs, execAll (startInstr m :: cmds) u = .next w ∧ t.out = s.out ++ bs ∧ w.out = u.out ++ bs ∧
      SameValues { t with out := [], input := [] } { w with out := [], input := [] })
end

