-- ==== Sys2Proof/Laws/State.lean ====
section
/-! SUPPORT. One lemma per field of State per named update, so that no later proof unfolds one. -/

namespace Sys2Proof.Machine

/-! ### `emitAll` -/

@[simp] theorem emitAll_phase (bs : List Byte) (s : State) : (emitAll bs s).phase = s.phase := rfl
@[simp] theorem emitAll_mode (bs : List Byte) (s : State) : (emitAll bs s).mode = s.mode := rfl
@[simp] theorem emitAll_err (bs : List Byte) (s : State) : (emitAll bs s).err = s.err := rfl
@[simp] theorem emitAll_runOpen (bs : List Byte) (s : State) : (emitAll bs s).runOpen = s.runOpen := rfl
@[simp] theorem emitAll_runValue (bs : List Byte) (s : State) : (emitAll bs s).runValue = s.runValue := rfl
@[simp] theorem emitAll_runLen (bs : List Byte) (s : State) : (emitAll bs s).runLen = s.runLen := rfl
@[simp] theorem emitAll_win (bs : List Byte) (s : State) : (emitAll bs s).win = s.win := rfl
@[simp] theorem emitAll_la (bs : List Byte) (s : State) : (emitAll bs s).la = s.la := rfl
@[simp] theorem emitAll_resLen (bs : List Byte) (s : State) : (emitAll bs s).resLen = s.resLen := rfl
@[simp] theorem emitAll_res0 (bs : List Byte) (s : State) : (emitAll bs s).res0 = s.res0 := rfl
@[simp] theorem emitAll_res1 (bs : List Byte) (s : State) : (emitAll bs s).res1 = s.res1 := rfl
@[simp] theorem emitAll_eocSeen (bs : List Byte) (s : State) : (emitAll bs s).eocSeen = s.eocSeen := rfl
@[simp] theorem emitAll_out (bs : List Byte) (s : State) : (emitAll bs s).out = s.out ++ bs := rfl
@[simp] theorem emitAll_input (bs : List Byte) (s : State) : (emitAll bs s).input = s.input := rfl

/-! ### `winAppend` -/

@[simp] theorem winAppend_phase (b : Byte) (s : State) : (winAppend b s).phase = s.phase := rfl
@[simp] theorem winAppend_mode (b : Byte) (s : State) : (winAppend b s).mode = s.mode := rfl
@[simp] theorem winAppend_err (b : Byte) (s : State) : (winAppend b s).err = s.err := rfl
@[simp] theorem winAppend_runOpen (b : Byte) (s : State) : (winAppend b s).runOpen = s.runOpen := rfl
@[simp] theorem winAppend_runValue (b : Byte) (s : State) : (winAppend b s).runValue = s.runValue := rfl
@[simp] theorem winAppend_runLen (b : Byte) (s : State) : (winAppend b s).runLen = s.runLen := rfl
@[simp] theorem winAppend_win (b : Byte) (s : State) : (winAppend b s).win = windowAppend s.win b := rfl
@[simp] theorem winAppend_la (b : Byte) (s : State) : (winAppend b s).la = s.la := rfl
@[simp] theorem winAppend_resLen (b : Byte) (s : State) : (winAppend b s).resLen = s.resLen := rfl
@[simp] theorem winAppend_res0 (b : Byte) (s : State) : (winAppend b s).res0 = s.res0 := rfl
@[simp] theorem winAppend_res1 (b : Byte) (s : State) : (winAppend b s).res1 = s.res1 := rfl
@[simp] theorem winAppend_eocSeen (b : Byte) (s : State) : (winAppend b s).eocSeen = s.eocSeen := rfl
@[simp] theorem winAppend_out (b : Byte) (s : State) : (winAppend b s).out = s.out := rfl
@[simp] theorem winAppend_input (b : Byte) (s : State) : (winAppend b s).input = s.input := rfl

/-! ### `raise` -/

@[simp] theorem raise_phase (k : Err) (s : State) : (raise k s).phase = .error := rfl
@[simp] theorem raise_mode (k : Err) (s : State) : (raise k s).mode = s.mode := rfl
@[simp] theorem raise_err (k : Err) (s : State) : (raise k s).err = k := rfl
@[simp] theorem raise_runOpen (k : Err) (s : State) : (raise k s).runOpen = s.runOpen := rfl
@[simp] theorem raise_runValue (k : Err) (s : State) : (raise k s).runValue = s.runValue := rfl
@[simp] theorem raise_runLen (k : Err) (s : State) : (raise k s).runLen = s.runLen := rfl
@[simp] theorem raise_win (k : Err) (s : State) : (raise k s).win = s.win := rfl
@[simp] theorem raise_la (k : Err) (s : State) : (raise k s).la = s.la := rfl
@[simp] theorem raise_resLen (k : Err) (s : State) : (raise k s).resLen = s.resLen := rfl
@[simp] theorem raise_res0 (k : Err) (s : State) : (raise k s).res0 = s.res0 := rfl
@[simp] theorem raise_res1 (k : Err) (s : State) : (raise k s).res1 = s.res1 := rfl
@[simp] theorem raise_eocSeen (k : Err) (s : State) : (raise k s).eocSeen = s.eocSeen := rfl
@[simp] theorem raise_out (k : Err) (s : State) : (raise k s).out = s.out := rfl
@[simp] theorem raise_input (k : Err) (s : State) : (raise k s).input = s.input := rfl

/-! ### `openRun` -/

@[simp] theorem openRun_phase (b : Byte) (s : State) : (openRun b s).phase = s.phase := rfl
@[simp] theorem openRun_mode (b : Byte) (s : State) : (openRun b s).mode = s.mode := rfl
@[simp] theorem openRun_err (b : Byte) (s : State) : (openRun b s).err = s.err := rfl
@[simp] theorem openRun_runOpen (b : Byte) (s : State) : (openRun b s).runOpen = true := rfl
@[simp] theorem openRun_runValue (b : Byte) (s : State) : (openRun b s).runValue = b := rfl
@[simp] theorem openRun_runLen (b : Byte) (s : State) : (openRun b s).runLen = 1#8 := rfl
@[simp] theorem openRun_win (b : Byte) (s : State) : (openRun b s).win = s.win := rfl
@[simp] theorem openRun_la (b : Byte) (s : State) : (openRun b s).la = s.la := rfl
@[simp] theorem openRun_resLen (b : Byte) (s : State) : (openRun b s).resLen = s.resLen := rfl
@[simp] theorem openRun_res0 (b : Byte) (s : State) : (openRun b s).res0 = s.res0 := rfl
@[simp] theorem openRun_res1 (b : Byte) (s : State) : (openRun b s).res1 = s.res1 := rfl
@[simp] theorem openRun_eocSeen (b : Byte) (s : State) : (openRun b s).eocSeen = s.eocSeen := rfl
@[simp] theorem openRun_out (b : Byte) (s : State) : (openRun b s).out = s.out := rfl
@[simp] theorem openRun_input (b : Byte) (s : State) : (openRun b s).input = s.input := rfl

/-! ### `clearInstance` -/

@[simp] theorem clearInstance_phase (s : State) : (clearInstance s).phase = s.phase := rfl
@[simp] theorem clearInstance_mode (s : State) : (clearInstance s).mode = s.mode := rfl
@[simp] theorem clearInstance_err (s : State) : (clearInstance s).err = .noError := rfl
@[simp] theorem clearInstance_runOpen (s : State) : (clearInstance s).runOpen = false := rfl
@[simp] theorem clearInstance_runValue (s : State) : (clearInstance s).runValue = s.runValue := rfl
@[simp] theorem clearInstance_runLen (s : State) : (clearInstance s).runLen = s.runLen := rfl
@[simp] theorem clearInstance_win (s : State) : (clearInstance s).win = [] := rfl
@[simp] theorem clearInstance_la (s : State) : (clearInstance s).la = [] := rfl
@[simp] theorem clearInstance_resLen (s : State) : (clearInstance s).resLen = 0 := rfl
@[simp] theorem clearInstance_res0 (s : State) : (clearInstance s).res0 = s.res0 := rfl
@[simp] theorem clearInstance_res1 (s : State) : (clearInstance s).res1 = s.res1 := rfl
@[simp] theorem clearInstance_eocSeen (s : State) : (clearInstance s).eocSeen = false := rfl
@[simp] theorem clearInstance_out (s : State) : (clearInstance s).out = s.out := rfl
@[simp] theorem clearInstance_input (s : State) : (clearInstance s).input = s.input := rfl

/-! ### `applyRst` -/

@[simp] theorem applyRst_phase (s : State) : (applyRst s).phase = .idle := rfl
@[simp] theorem applyRst_mode (s : State) : (applyRst s).mode = .rleEnc := rfl
@[simp] theorem applyRst_err (s : State) : (applyRst s).err = .noError := rfl
@[simp] theorem applyRst_runOpen (s : State) : (applyRst s).runOpen = false := rfl
@[simp] theorem applyRst_runValue (s : State) : (applyRst s).runValue = 0#8 := rfl
@[simp] theorem applyRst_runLen (s : State) : (applyRst s).runLen = 0#8 := rfl
@[simp] theorem applyRst_win (s : State) : (applyRst s).win = [] := rfl
@[simp] theorem applyRst_la (s : State) : (applyRst s).la = [] := rfl
@[simp] theorem applyRst_resLen (s : State) : (applyRst s).resLen = 0 := rfl
@[simp] theorem applyRst_res0 (s : State) : (applyRst s).res0 = 0#8 := rfl
@[simp] theorem applyRst_res1 (s : State) : (applyRst s).res1 = 0#8 := rfl
@[simp] theorem applyRst_eocSeen (s : State) : (applyRst s).eocSeen = false := rfl
@[simp] theorem applyRst_out (s : State) : (applyRst s).out = s.out := rfl
@[simp] theorem applyRst_input (s : State) : (applyRst s).input = s.input := rfl

end Sys2Proof.Machine
end

