-- ==== Sys2Proof/Laws/Word.lean ====
section
/-! SUPPORT. The width of a byte as a number, for proofs by arithmetic. -/

namespace Sys2Proof

@[simp] theorem hw_byteBits : Config.hw.byteBits = 8 := rfl

/-- A byte is 0..255 (00_scope.md R11). -/
theorem byte_toNat_lt (b : Byte) : b.toNat < 256 := b.isLt

/-- A byte is 0 exactly when its number is. -/
theorem byte_eq_zero_iff (b : Byte) : b = 0#8 ↔ b.toNat = 0 :=
  ⟨fun h => congrArg BitVec.toNat h, fun h => BitVec.eq_of_toNat_eq h⟩

/-- A number up to 255 is the number of its byte. -/
theorem byte_ofNat_toNat {n : Nat} (h : n < 256) : (BitVec.ofNat 8 n : Byte).toNat = n :=
  (BitVec.toNat_ofNat n 8).trans (Nat.mod_eq_of_lt h)

end Sys2Proof
end

