-- ==== Sys2Proof/Laws/Ops.lean ====
section
/-! SUPPORT. One lemma per shared operation that says all it does; later proofs cite these and do not unfold
the operation again. -/

namespace Sys2Proof.Machine

/-! ### The configuration's values -/

@[simp] theorem hw_rleMagic : Config.hw.rleMagic = 0x52#8 := rfl
@[simp] theorem hw_lzMagic : Config.hw.lzMagic = 0x4C#8 := rfl
@[simp] theorem hw_maxRun : Config.hw.maxRun = 255 := rfl
@[simp] theorem hw_windowSize : Config.hw.windowSize = 20 := rfl
@[simp] theorem hw_maxMatchLength : Config.hw.maxMatchLength = 255 := rfl
@[simp] theorem hw_minMatchLength : Config.hw.minMatchLength = 3 := rfl
@[simp] theorem hw_maxOffsetField : Config.hw.maxOffsetField = 255 := rfl
@[simp] theorem hw_flagLiteral : Config.hw.flagLiteral = 0x00#8 := rfl
@[simp] theorem hw_flagMatch : Config.hw.flagMatch = 0x01#8 := rfl

/-! ### Outcomes and output -/

@[simp] theorem toOutcome_ok (s : State) : toOutcome (.ok s) = .next s := rfl
@[simp] theorem toOutcome_error (f : Fault) : toOutcome (.error f) = .fault f := rfl

theorem toOutcome_eq_next {r : Result} {t : State} : toOutcome r = .next t ↔ r = .ok t := by
  cases r <;> simp [toOutcome]

theorem emitAll_append (bs cs : List Byte) (s : State) : emitAll cs (emitAll bs s) = emitAll (bs ++ cs) s := by
  simp [emitAll]

@[simp] theorem emitAll_nil (s : State) : emitAll [] s = s := by simp [emitAll]

/-! ### The window -/

theorem windowAppend_length_le {w : List Byte} (h : w.length ≤ 20) (b : Byte) : (windowAppend w b).length ≤ 20 := by
  unfold windowAppend
  split <;> simp_all
  omega

theorem length_le_windowAppend (w : List Byte) (b : Byte) : w.length ≤ (windowAppend w b).length := by
  unfold windowAppend
  split <;> simp
  omega

/-- The window after a sequence of appends never exceeds its capacity (10_state.md R28). -/
theorem foldl_windowAppend_length_le {w : List Byte} (h : w.length ≤ 20) (bs : List Byte) :
    (bs.foldl windowAppend w).length ≤ 20 := by
  induction bs generalizing w with
  | nil => exact h
  | cons b bs ih => exact ih (windowAppend_length_le h b)

theorem length_le_foldl_windowAppend (w bs : List Byte) : w.length ≤ (bs.foldl windowAppend w).length := by
  induction bs generalizing w with
  | nil => exact le_rfl
  | cons b bs ih => exact (length_le_windowAppend w b).trans (ih _)

theorem winRead_eq_ok {k : Nat} {s : State} (h : k < s.win.length) : winRead k s = .ok s.win[k] := by
  simp [winRead, List.getElem?_eq_getElem h]

/-! ### The look-ahead -/

theorem laRead_eq_ok {k : Nat} {s : State} (h : k < s.la.length) : laRead k s = .ok s.la[k] := by
  simp [laRead, List.getElem?_eq_getElem h]

theorem laPush_eq_ok {b : Byte} {s : State} (h : s.la.length < 255) :
    laPush b s = .ok { s with la := s.la ++ [b] } := by
  simp [laPush, h]

theorem laPopFront_cons {s : State} {b : Byte} {rest : List Byte} (h : s.la = b :: rest) :
    laPopFront s = .ok (b, { s with la := rest }) := by
  simp [laPopFront, h]

/-- Moving `n` bytes: they leave the look-ahead's front and enter the window in order (42_lz77_encode.md R168). -/
theorem moveToWindow_eq_ok {n : Nat} {s : State} (h : n ≤ s.la.length) :
    moveToWindow n s =
      .ok { s with la := s.la.drop n, win := (s.la.take n).foldl windowAppend s.win } := by
  induction n generalizing s with
  | zero => simp [moveToWindow]
  | succ n ih =>
    obtain ⟨b, rest, hla⟩ := List.exists_cons_of_length_pos (Nat.lt_of_lt_of_le (Nat.succ_pos n) h)
    have hn : n ≤ rest.length := by simpa [hla] using h
    have hm := ih (s := winAppend b { s with la := rest }) hn
    rw [moveToWindow, laPopFront_cons hla]
    simp only [hm, hla]
    rfl

/-! ### The operand registers -/

theorem readRun_eq_ok {s : State} (h : s.runOpen = true) : readRun s = .ok (s.runValue, s.runLen) := by
  simp [readRun, h]

theorem readRes0_eq_ok {s : State} (h : s.resLen ≠ 0) : readRes0 s = .ok s.res0 := by
  simp [readRes0, h]

theorem readRes1_eq_ok {s : State} (h : s.resLen = 2) : readRes1 s = .ok s.res1 := by
  simp [readRes1, h]

/-! ### RLE -/

theorem extend_eq_true {b : Byte} {s : State} :
    extend b s = true ↔ s.runOpen = true ∧ b = s.runValue ∧ s.runLen.toNat < 255 := by
  simp only [extend, Bool.and_eq_true, beq_iff_eq, decide_eq_true_eq, and_assoc]

theorem emitRun_eq_ok {s : State} (h : s.runOpen = true) :
    emitRun s = .ok (emitAll [s.runValue, s.runLen] s) := by
  simp [emitRun, readRun_eq_ok h]

/-- All that `RLE_ENC.PUSH` can do (40_rle_encode.md R122). -/
theorem rleEncPush_eq (b : Byte) (s : State) :
    rleEncPush b s =
      .ok (if s.runOpen = false then openRun b s
        else if extend b s = true then { s with runLen := s.runLen + 1#8 }
        else openRun b (emitAll [s.runValue, s.runLen] s)) := by
  unfold rleEncPush
  by_cases ho : s.runOpen = false
  · simp [ho]
  · have ho' : s.runOpen = true := by simpa using ho
    by_cases he : extend b s = true <;> simp [ho', he, emitRun_eq_ok ho']

/-- All that `RLE_ENC.FINISH` can do (40_rle_encode.md R124). -/
theorem rleEncFinish_eq (s : State) :
    rleEncFinish s =
      .ok { emitAll (if s.runOpen = true then [s.runValue, s.runLen] else []) s with
        runOpen := false, phase := .done } := by
  unfold rleEncFinish
  by_cases ho : s.runOpen = true
  · simp [ho, emitRun_eq_ok ho]
  · have ho' : s.runOpen = false := by simpa using ho
    rw [if_neg ho, if_neg ho, emitAll_nil]
    rw [← ho']

/-- All that `RLE_DEC.PUSH` can do (41_rle_decode.md R141). -/
theorem rleDecPush_eq (b : Byte) (s : State) :
    rleDecPush b s =
      .ok (if s.resLen = 0 then { s with res0 := b, resLen := 1 }
        else if b = 0#8 then raise .corruptDataError s
        else { emitAll (List.replicate b.toNat s.res0) s with resLen := 0 }) := by
  unfold rleDecPush
  by_cases hr : s.resLen = 0
  · simp [hr]
  · by_cases hb : b = 0#8 <;> simp [hr, hb, readRes0_eq_ok]

/-! ### The match detector -/

theorem commonPrefix_le_left (as bs : List Byte) : commonPrefix as bs ≤ as.length := by
  induction as generalizing bs with
  | nil => simp [commonPrefix]
  | cons a as ih =>
    cases bs with
    | nil => simp [commonPrefix]
    | cons b bs => simp only [commonPrefix]; split <;> simp [ih]

theorem commonPrefix_le_right (as bs : List Byte) : commonPrefix as bs ≤ bs.length := by
  induction as generalizing bs with
  | nil => simp [commonPrefix]
  | cons a as ih =>
    cases bs with
    | nil => simp [commonPrefix]
    | cons b bs => simp only [commonPrefix]; split <;> simp [ih]

/-- The common prefix is a prefix of both. -/
theorem take_commonPrefix (as bs : List Byte) :
    as.take (commonPrefix as bs) = bs.take (commonPrefix as bs) := by
  induction as generalizing bs with
  | nil => simp [commonPrefix]
  | cons a as ih =>
    cases bs with
    | nil => simp [commonPrefix]
    | cons b bs =>
      simp only [commonPrefix]
      split
      · simp [*, ih bs]
      · simp

theorem curLen_le_la (overlap : Bool) (win la : List Byte) (i : Nat) : curLen overlap win la i ≤ la.length :=
  commonPrefix_le_right _ _

/-- What every round of the search keeps: the best so far is a position with its own length. -/
theorem foldl_improve_valid (overlap : Bool) (win la : List Byte) (is : List Nat) (best : Best)
    (h : best.2 = 0 ∨ (best.1 < win.length ∧ best.2 = curLen overlap win la best.1))
    (his : ∀ i ∈ is, i < win.length) :
    (is.foldl (improve overlap win la) best).2 = 0 ∨
      ((is.foldl (improve overlap win la) best).1 < win.length ∧
        (is.foldl (improve overlap win la) best).2 =
          curLen overlap win la (is.foldl (improve overlap win la) best).1) := by
  induction is generalizing best with
  | nil => exact h
  | cons i is ih =>
    refine ih _ ?_ (fun j hj => his j (by simp [hj]))
    unfold improve
    split
    · exact .inr ⟨his i (by simp), rfl⟩
    · exact h

/-- A Match the mux chooses: its position is in the window, its length that position's and at least 3
(42_lz77_encode.md R167). -/
theorem decideMatch_eq_some {overlap : Bool} {win la : List Byte} {offset length : Nat}
    (h : decideMatch overlap win la = some (offset, length)) :
    ∃ i, i < win.length ∧ offset = win.length - i ∧ length = curLen overlap win la i ∧ 3 ≤ length := by
  have hv := foldl_improve_valid overlap win la (List.range win.length) (0, 0) (.inl rfl) (by simp)
  rw [← search] at hv
  simp only [decideMatch, Option.ite_none_right_eq_some, Option.some.injEq, Prod.mk.injEq] at h
  obtain ⟨⟨h3, -⟩, rfl, rfl⟩ := h
  rcases hv with hv | ⟨hi, hlen⟩
  · omega
  · exact ⟨_, hi, rfl, hlen, h3⟩

/-! ### Tokens -/

@[simp] theorem Token.bytes_literal (b : Byte) : (Token.literal b).bytes = [0x00#8, b] := rfl

@[simp] theorem Token.bytes_copyOf (o n : Nat) :
    (Token.copyOf o n).bytes = [0x01#8, BitVec.ofNat 8 o, BitVec.ofNat 8 n] := rfl

/-- A Literal (42_lz77_encode.md R169). -/
theorem literalToken_eq_ok {s : State} {b : Byte} {rest : List Byte} (h : s.la = b :: rest) :
    literalToken s =
      .ok { s with out := s.out ++ [0x00#8, b], la := rest, win := windowAppend s.win b } := by
  simp [literalToken, laPopFront_cons h, winAppend, emitAll]

/-- A Match (42_lz77_encode.md R168). -/
theorem token_of_match {v : Variant} {s : State} {offset length : Nat}
    (h : decideMatch v.overlapSearch s.win s.la = some (offset, length)) :
    token v s =
      .ok { s with
        out := s.out ++ [0x01#8, BitVec.ofNat 8 offset, BitVec.ofNat 8 length]
        la := s.la.drop length
        win := (s.la.take length).foldl windowAppend s.win } := by
  obtain ⟨i, -, -, hl, -⟩ := decideMatch_eq_some h
  have hle : length ≤ s.la.length := hl ▸ curLen_le_la _ _ _ _
  simp only [token, h, moveToWindow_eq_ok (s := emitAll _ s) hle]
  rfl

theorem token_of_literal {v : Variant} {s : State} (h : decideMatch v.overlapSearch s.win s.la = none) :
    token v s = literalToken s := by
  simp [token, h]

/-- The bytes `Token()` emits and how many bytes it moves, from the window and the look-ahead alone. -/
def tokenOut (v : Variant) (win la : List Byte) : List Byte × Nat :=
  match decideMatch v.overlapSearch win la with
  | some (offset, length) => ([0x01#8, BitVec.ofNat 8 offset, BitVec.ofNat 8 length], length)
  | none => ([0x00#8, la.headD 0#8], 1)

/-- `Token()` as one update (42_lz77_encode.md R176). -/
theorem token_eq_ok (v : Variant) {s : State} (h : s.la ≠ []) :
    token v s =
      .ok { s with
        out := s.out ++ (tokenOut v s.win s.la).1
        la := s.la.drop (tokenOut v s.win s.la).2
        win := (s.la.take (tokenOut v s.win s.la).2).foldl windowAppend s.win } := by
  cases hd : decideMatch v.overlapSearch s.win s.la with
  | some p => simp [tokenOut, hd, token_of_match hd]
  | none =>
    obtain ⟨b, rest, hla⟩ := List.exists_cons_of_ne_nil h
    rw [token_of_literal hd, literalToken_eq_ok hla]
    rw [hla] at hd
    simp [tokenOut, hla, hd]

theorem tokenOut_bounds (v : Variant) (win : List Byte) {la : List Byte} (h : la ≠ []) :
    1 ≤ (tokenOut v win la).2 ∧ (tokenOut v win la).2 ≤ la.length ∧ (tokenOut v win la).1.length ≤ 3 ∧
      (tokenOut v win la).1.length ≤ (tokenOut v win la).2 + 1 := by
  have hpos := List.length_pos_iff.mpr h
  cases hd : decideMatch v.overlapSearch win la with
  | some p =>
    obtain ⟨i, -, -, hl, h3⟩ := decideMatch_eq_some (offset := p.1) (length := p.2) hd
    have := hl ▸ curLen_le_la v.overlapSearch win la i
    simp only [tokenOut, hd, List.length_cons, List.length_nil]
    omega
  | none =>
    simp only [tokenOut, hd, List.length_cons, List.length_nil]
    omega

/-- All that `Token()` can do: it emits 2 or 3 bytes and moves between 1 and `LA_LEN` bytes
(42_lz77_encode.md R176). -/
theorem token_cases (v : Variant) {s : State} (h : s.la ≠ []) :
    ∃ bs n, 1 ≤ n ∧ n ≤ s.la.length ∧ bs.length ≤ 3 ∧ bs.length ≤ n + 1 ∧
      token v s =
        .ok { s with out := s.out ++ bs, la := s.la.drop n, win := (s.la.take n).foldl windowAppend s.win } := by
  obtain ⟨h1, hn, h3, hb⟩ := tokenOut_bounds v s.win h
  exact ⟨_, _, h1, hn, h3, hb, token_eq_ok v h⟩

/-- The bytes of the tokens that encode a whole look-ahead, `fuel` tokens at most. -/
def drainOut (v : Variant) : (fuel : Nat) → (win la : List Byte) → List Byte
  | 0, _, _ => []
  | fuel + 1, win, la =>
    if la = [] then []
    else
      (tokenOut v win la).1 ++
        drainOut v fuel ((la.take (tokenOut v win la).2).foldl windowAppend win) (la.drop (tokenOut v win la).2)

/-- The EOC loop as one update, once `EOC_SEEN` is set and the fuel covers the look-ahead: every byte is encoded
and enters the window (42_lz77_encode.md R163, R173). -/
theorem drain_eq_ok (v : Variant) (fuel : Nat) (s : State) (he : s.eocSeen = true) (hf : s.la.length ≤ fuel) :
    drain v fuel s =
      .ok { s with
        out := s.out ++ drainOut v fuel s.win s.la, la := [], win := s.la.foldl windowAppend s.win } := by
  induction fuel generalizing s with
  | zero =>
    have hla : s.la = [] := List.length_eq_zero_iff.mp (by omega)
    simp [drain, drainOut, hla, State.ext_iff]
  | succ fuel ih =>
    by_cases hla : s.la = []
    · simp [drain, drainOut, tokenEnable, hla, State.ext_iff]
    · have hen : tokenEnable s = true := by simp [tokenEnable, he, List.length_pos_iff.mpr hla]
      have hn := tokenOut_bounds v s.win hla
      rw [drain, if_pos hen, token_eq_ok v hla, drainOut, if_neg hla]
      have hd := ih
        { s with
          out := s.out ++ (tokenOut v s.win s.la).1
          la := s.la.drop (tokenOut v s.win s.la).2
          win := (s.la.take (tokenOut v s.win s.la).2).foldl windowAppend s.win }
        he (by simp only [List.length_drop]; omega)
      simp only [hd, List.append_assoc]
      rw [← List.foldl_append, List.take_append_drop]

/-- A token emits at most one byte more than it encodes, and one look-ahead is at most as many tokens as bytes
(44_framing_commands.md R221). -/
theorem drainOut_length_le (v : Variant) (fuel : Nat) (win la : List Byte) :
    (drainOut v fuel win la).length ≤ 2 * la.length := by
  induction fuel generalizing win la with
  | zero => simp [drainOut]
  | succ fuel ih =>
    rw [drainOut]
    split
    · simp
    · rename_i hla
      have hn := tokenOut_bounds v win hla
      have := ih ((la.take (tokenOut v win la).2).foldl windowAppend win) (la.drop (tokenOut v win la).2)
      simp only [List.length_append, List.length_drop] at this ⊢
      omega

/-- With fuel for the whole look-ahead, more fuel changes nothing. -/
theorem drain_fuel (v : Variant) (fuel : Nat) (s : State) (hf : s.la.length ≤ fuel) :
    drain v fuel s = drain v s.la.length s := by
  induction fuel using Nat.strong_induction_on generalizing s with
  | _ fuel ih =>
    by_cases hla : s.la = []
    · have hen : tokenEnable s = false := by simp [tokenEnable, hla]
      cases fuel <;> simp [drain, hen, hla]
    · obtain ⟨bs, n, h1, hn, -, -, ht⟩ := token_cases v hla
      obtain ⟨m, hm⟩ : ∃ m, s.la.length = m + 1 :=
        Nat.exists_eq_succ_of_ne_zero (by simpa [List.length_eq_zero_iff] using hla)
      obtain ⟨k, rfl⟩ : ∃ k, fuel = k + 1 := Nat.exists_eq_succ_of_ne_zero (by omega)
      rw [hm, drain, drain, ht]
      have hd : (s.la.drop n).length ≤ m := by simp; omega
      simp only [ih k (by omega) { s with
          out := s.out ++ bs, la := s.la.drop n, win := (s.la.take n).foldl windowAppend s.win } (by simpa using by omega),
        ih m (by omega) { s with
          out := s.out ++ bs, la := s.la.drop n, win := (s.la.take n).foldl windowAppend s.win } hd]

/-- The Finalize loop: a Literal of every byte left (42_lz77_encode.md R170). -/
theorem flushLiterals_eq_ok (fuel : Nat) (s : State) (hf : s.la.length ≤ fuel) :
    flushLiterals fuel s =
      .ok { s with
        out := s.out ++ s.la.flatMap fun b => [0x00#8, b]
        la := []
        win := s.la.foldl windowAppend s.win } := by
  induction fuel generalizing s with
  | zero =>
    have hla : s.la = [] := List.length_eq_zero_iff.mp (by omega)
    simp [flushLiterals, hla, State.ext_iff]
  | succ fuel ih =>
    cases hla : s.la with
    | nil => simp [flushLiterals, hla, State.ext_iff]
    | cons b rest =>
      have hr : rest.length ≤ fuel := by simpa [hla] using hf
      simp [flushLiterals, hla, literalToken_eq_ok hla,
        ih { s with out := s.out ++ [0x00#8, b], la := rest, win := windowAppend s.win b } hr]

/-! ### The copy -/

/-- The bytes a copy produces, from the history alone. -/
def copyBytes (offset : Nat) : (length : Nat) → (win : List Byte) → List Byte
  | 0, _ => []
  | n + 1, win =>
    win.getD (win.length - offset) 0#8 ::
      copyBytes offset n (windowAppend win (win.getD (win.length - offset) 0#8))

@[simp] theorem copyBytes_length (offset n : Nat) (win : List Byte) : (copyBytes offset n win).length = n := by
  induction n generalizing win with
  | zero => rfl
  | succ n ih => simp [copyBytes, ih]

/-- `Copy` as one update, for an offset in the window (43_lz77_decode.md R194). -/
theorem copy_eq_ok {offset : Nat} (n : Nat) {s : State} (h1 : 1 ≤ offset) (ho : offset ≤ s.win.length) :
    copy offset n s =
      .ok { s with
        out := s.out ++ copyBytes offset n s.win
        win := (copyBytes offset n s.win).foldl windowAppend s.win } := by
  induction n generalizing s with
  | zero => simp [copy, copyBytes]
  | succ n ih =>
    have hk : s.win.length - offset < s.win.length := by omega
    have hg : s.win.getD (s.win.length - offset) 0#8 = s.win[s.win.length - offset] := by
      simp [List.getD_eq_getElem?_getD, List.getElem?_eq_getElem hk]
    rw [copy, winRead_eq_ok hk, copyBytes, hg]
    simp only
    rw [ih (by simpa using ho.trans (length_le_windowAppend _ _))]
    simp

/-! ### Dispatch -/

theorem pushByte_ignored (v : Variant) (b : Byte) {s : State} (h : s.phase = .idle ∨ s.phase = .done ∨ s.phase = .error) :
    pushByte v b s = .ok s := by
  rcases h with h | h | h <;> simp [pushByte, h]

theorem pushByte_header (v : Variant) (b : Byte) {s : State} (h : s.phase = .header) :
    pushByte v b s = .ok (checkMagic b s) := by
  simp [pushByte, h]

theorem pushByte_rleEnc (v : Variant) (b : Byte) {s : State} (h : s.phase = .body) (hm : s.mode = .rleEnc) :
    pushByte v b s = rleEncPush b s := by
  simp [pushByte, h, hm]

theorem pushByte_rleDec (v : Variant) (b : Byte) {s : State} (h : s.phase = .body) (hm : s.mode = .rleDec) :
    pushByte v b s = rleDecPush b s := by
  simp [pushByte, h, hm]

theorem pushByte_lzEnc (v : Variant) (b : Byte) {s : State} (h : s.phase = .body) (hm : s.mode = .lzEnc) :
    pushByte v b s = lzEncPush v b s := by
  simp [pushByte, h, hm]

theorem pushByte_lzDec (v : Variant) (b : Byte) {s : State} (h : s.phase = .body) (hm : s.mode = .lzDec) :
    pushByte v b s = lzDecPush b s := by
  simp [pushByte, h, hm]

/-- All that `LZ_ENC.PUSH` can do at a command boundary (42_lz77_encode.md R161). -/
theorem lzEncPush_eq (v : Variant) (b : Byte) {s : State} (h : s.la.length < 255) :
    lzEncPush v b s =
      if s.la.length = 254 then token v { s with la := s.la ++ [b] } else .ok { s with la := s.la ++ [b] } := by
  simp [lzEncPush, laPush_eq_ok h]

end Sys2Proof.Machine
end

