-- ==== Sys2Proof/Laws/Commands.lean ====
section
/-! SUPPORT. What PUSH, EOC and FINISH do, each as one update of the state; with these no later proof unfolds a
meaning. -/

namespace Sys2Proof.Machine

/-! ### PUSH -/

/-- The state after `RLE_ENC.PUSH b`. -/
def rleEncPushed (b : Byte) (s : State) : State :=
  if s.runOpen = false then openRun b s
  else if extend b s = true then { s with runLen := s.runLen + 1#8 }
  else openRun b (emitAll [s.runValue, s.runLen] s)

/-- The state after `RLE_DEC.PUSH b`. -/
def rleDecPushed (b : Byte) (s : State) : State :=
  if s.resLen = 0 then { s with res0 := b, resLen := 1 }
  else if b = 0#8 then raise .corruptDataError s
  else { emitAll (List.replicate b.toNat s.res0) s with resLen := 0 }

/-- The state after `LZ_ENC.PUSH b` at a command boundary. -/
def lzEncPushed (v : Variant) (b : Byte) (s : State) : State :=
  let la := s.la ++ [b]
  if s.la.length = 254 then
    { s with
      out := s.out ++ (tokenOut v s.win la).1
      la := la.drop (tokenOut v s.win la).2
      win := (la.take (tokenOut v s.win la).2).foldl windowAppend s.win }
  else { s with la := la }

/-- The state after `LZ_DEC.PUSH b`. -/
def lzDecPushed (b : Byte) (s : State) : State :=
  if s.resLen = 0 then
    if b = 0x00#8 ∨ b = 0x01#8 then { s with res0 := b, resLen := 1 } else raise .unknownTokenError s
  else if s.resLen = 1 then
    if s.res0 = 0x00#8 then { s with out := s.out ++ [b], win := windowAppend s.win b, resLen := 0 }
    else { s with res1 := b, resLen := 2 }
  else if s.res1 = 0#8 ∨ b = 0#8 ∨ s.win.length < s.res1.toNat then raise .corruptDataError s
  else
    { s with
      out := s.out ++ copyBytes s.res1.toNat b.toNat s.win
      win := (copyBytes s.res1.toNat b.toNat s.win).foldl windowAppend s.win
      resLen := 0 }

/-- The state after `PUSH b`. -/
def pushed (v : Variant) (b : Byte) (s : State) : State :=
  match s.phase with
  | .idle | .done | .error => s
  | .header => checkMagic b s
  | .body =>
    match s.mode with
    | .rleEnc => rleEncPushed b s
    | .rleDec => rleDecPushed b s
    | .lzEnc => lzEncPushed v b s
    | .lzDec => lzDecPushed b s

theorem lzEncPush_eq_ok (v : Variant) (b : Byte) {s : State} (h : s.la.length < 255) :
    lzEncPush v b s = .ok (lzEncPushed v b s) := by
  rw [lzEncPush_eq v b h, lzEncPushed]
  split
  · rw [token_eq_ok v (by simp)]
  · rfl

theorem lzDecPush_eq_ok (b : Byte) (s : State) : lzDecPush b s = .ok (lzDecPushed b s) := by
  unfold lzDecPush lzDecPushed
  by_cases h0 : s.resLen = 0
  · simp only [h0, if_true, lzDecFlag]
    split <;> rfl
  · by_cases h1 : s.resLen = 1
    · simp only [if_neg h0, if_pos h1, lzDecSecond, readRes0_eq_ok h0]
      split <;> rfl
    · have h2 : s.resLen = 2 := by
        have := s.resLen.isLt
        apply Fin.ext
        have h0' : s.resLen.val ≠ 0 := fun h => h0 (Fin.ext h)
        have h1' : s.resLen.val ≠ 1 := fun h => h1 (Fin.ext h)
        change s.resLen.val = 2
        omega
      simp only [if_neg h0, if_neg h1, lzDecLength, readRes1_eq_ok h2]
      split
      · rfl
      · rename_i hbad
        push Not at hbad
        have hpos : 1 ≤ s.res1.toNat := by
          by_contra hc
          exact hbad.1 (BitVec.eq_of_toNat_eq (by simp; omega))
        rw [copy_eq_ok _ hpos hbad.2.2]

/-- All that PUSH can do: it stops only on a full look-ahead, which no command leaves (10_state.md R29). -/
theorem pushByte_eq (v : Variant) (b : Byte) (s : State) :
    pushByte v b s =
      if s.phase = .body ∧ s.mode = .lzEnc ∧ 255 ≤ s.la.length then .error .laPushWhenFull
      else .ok (pushed v b s) := by
  cases hp : s.phase <;> simp only [pushByte, pushed, hp]
  case body =>
    cases hm : s.mode <;> simp only
    case rleEnc => simp [rleEncPush_eq, rleEncPushed]
    case rleDec => simp [rleDecPush_eq, rleDecPushed]
    case lzDec => simp [lzDecPush_eq_ok]
    case lzEnc =>
      by_cases hl : s.la.length < 255
      · simp [lzEncPush_eq_ok v b hl, hl]
      · simp [lzEncPush, laPush, hl]
  all_goals simp

theorem pushByte_eq_ok (v : Variant) (b : Byte) {s : State} (h : s.la.length < 255) :
    pushByte v b s = .ok (pushed v b s) := by
  rw [pushByte_eq, if_neg]
  omega

/-! ### EOC -/

/-- The state after `EOC`. -/
def chunkEnded (v : Variant) (s : State) : State :=
  if s.phase = .body ∧ s.mode = .lzEnc then
    { s with
      out := s.out ++ drainOut v s.la.length s.win s.la
      la := []
      win := s.la.foldl windowAppend s.win
      eocSeen := false }
  else s

/-- All that EOC can do. -/
theorem endChunk_eq_ok (v : Variant) (s : State) : endChunk v s = .ok (chunkEnded v s) := by
  cases hp : s.phase <;> simp only [endChunk, chunkEnded, hp]
  case body =>
    cases hm : s.mode <;> simp only [rleEncEoc, rleDecEoc, lzDecEoc]
    case lzEnc =>
      rw [lzEncEoc, drain_eq_ok v s.la.length { s with eocSeen := true } rfl le_rfl]
      simp [hp, hm]
    all_goals simp
  all_goals simp

/-! ### FINISH -/

/-- The state after `FINISH`. -/
def finished (v : Variant) (s : State) : State :=
  match s.phase with
  | .idle | .done | .error => s
  | .header => finishEmpty v s
  | .body =>
    match s.mode with
    | .rleEnc =>
      { emitAll (if s.runOpen = true then [s.runValue, s.runLen] else []) s with runOpen := false, phase := .done }
    | .lzEnc =>
      { s with
        out := s.out ++ s.la.flatMap fun b => [0x00#8, b]
        la := []
        win := s.la.foldl windowAppend s.win
        phase := .done }
    | .rleDec | .lzDec =>
      if s.resLen ≠ 0 then raise .truncatedStreamError s else { s with phase := .done }

/-- All that FINISH can do. -/
theorem finishStream_eq_ok (v : Variant) (s : State) : finishStream v s = .ok (finished v s) := by
  cases hp : s.phase <;> simp only [finishStream, finished, hp]
  case body =>
    cases hm : s.mode <;> simp only
    case rleEnc => exact rleEncFinish_eq s
    case rleDec => simp only [rleDecFinish, hm]; split <;> rfl
    case lzEnc => simp [lzEncFinish, flushLiterals_eq_ok s.la.length s le_rfl, hm]
    case lzDec => simp only [lzDecFinish, hm]; split <;> rfl

/-! ### The arms of `exec` -/

/-- The arm of PUSH. -/
theorem exec_push_eq (b : Byte) (s : State) :
    exec (.push b) s =
      if s.phase = .body ∧ s.mode = .lzEnc ∧ 255 ≤ s.la.length then .fault .laPushWhenFull
      else .next (pushed Config.hw.variant b s) := by
  rw [exec, execPush, pushByte_eq]
  split <;> rfl

/-- The arm of EOC. -/
theorem exec_eoc_eq (s : State) : exec .eoc s = .next (chunkEnded Config.hw.variant s) := by
  rw [exec, execEoc, endChunk_eq_ok]; rfl

/-- The arm of FINISH. -/
theorem exec_finish_eq (s : State) : exec .finish s = .next (finished Config.hw.variant s) := by
  rw [exec, execFinish, finishStream_eq_ok]; rfl

/-- The arm of every wire unit. -/
theorem exec_unit_eq {i : Instr} (h : unitBytes i ≠ []) (s : State) :
    exec i s = toOutcome (deliver Config.hw.variant (unitBytes i) s) := by
  cases i <;> first | exact absurd rfl h | rfl

end Sys2Proof.Machine
end

