-- ==== Sys2Proof/Laws/Decode.lean ====
section
/-! SUPPORT. The command word's fields, and the unknown-flag rows by their bytes. -/

namespace Sys2Proof

/-- The command word as a number: `op` in bits 10:8, `data` in bits 7:0 (30_encoding.md R101). -/
theorem commandWord_toNat (op : BitVec 3) (d : Byte) : (commandWord op d).toNat = 256 * op.toNat + d.toNat := by
  have h : (commandWord op d).toNat = op.toNat <<< 8 ||| d.toNat := BitVec.toNat_append op d
  rw [h, ← Nat.shiftLeft_add_eq_or_of_lt (byte_toNat_lt d), Nat.shiftLeft_eq]
  omega

@[simp] theorem opField_commandWord (op : BitVec 3) (d : Byte) : opField (commandWord op d) = op := by
  apply BitVec.eq_of_toNat_eq
  have := op.isLt
  have := byte_toNat_lt d
  simp only [opField, BitVec.extractLsb'_toNat, commandWord_toNat, Nat.shiftRight_eq_div_pow]
  change (256 * op.toNat + d.toNat) / 256 % 8 = op.toNat
  omega

@[simp] theorem dataField_commandWord (op : BitVec 3) (d : Byte) : dataField (commandWord op d) = d := by
  apply BitVec.eq_of_toNat_eq
  have := byte_toNat_lt d
  simp only [dataField, BitVec.extractLsb'_toNat, commandWord_toNat, Nat.shiftRight_eq_div_pow]
  change (256 * op.toNat + d.toNat) / 1 % 256 = d.toNat
  omega

/-- A flag byte other than `0x00` and `0x01` has a row, which is well-formed, and which is that byte. -/
theorem unknownFlagRow_spec : ∀ f : Byte, f ≠ 0x00#8 → f ≠ 0x01#8 →
    (unknownFlagRow f).wf = true ∧ unitBytes (unknownFlagRow f) = [f] ∧
      encode (unknownFlagRow f) = .wire .lzToken [f] := by
  decide

end Sys2Proof
end

