-- ==== Sys2Proof/Laws/PerInstr.lean ====
section
/-! SUPPORT. The statements made one constructor at a time: each instruction's encoding has the width, the mask
and the match of its row in spec/opcode_table.json. -/

namespace Sys2Proof.Laws.TableRow

/-- The columns "width", "mask" and "match" of a row of spec/opcode_table.json. -/
structure Row where
  width : Nat
  mask : Nat
  pattern : Nat
  deriving DecidableEq, Repr

/-- The row of each constructor, copied from the table. -/
def row : Instr → Row
  | .startRleEnc => ⟨11, 0x703, 0x000⟩
  | .startRleDec => ⟨11, 0x703, 0x001⟩
  | .startLzEnc => ⟨11, 0x703, 0x002⟩
  | .startLzDec => ⟨11, 0x703, 0x003⟩
  | .push _ => ⟨11, 0x700, 0x100⟩
  | .eoc => ⟨11, 0x700, 0x200⟩
  | .finish => ⟨11, 0x700, 0x300⟩
  | .abort => ⟨11, 0x700, 0x400⟩
  | .reserved5 => ⟨11, 0x700, 0x500⟩
  | .reserved6 => ⟨11, 0x700, 0x600⟩
  | .reserved7 => ⟨11, 0x700, 0x700⟩
  | .rleMagic => ⟨8, 0xFF, 0x52⟩
  | .rlePair _ _ => ⟨16, 0x0000, 0x0000⟩
  | .lzMagic => ⟨8, 0xFF, 0x4C⟩
  | .lzLiteral _ => ⟨16, 0xFF00, 0x0000⟩
  | .lzMatch _ _ => ⟨24, 0xFF0000, 0x010000⟩
  | .lzUnknownFlagB7 _ => ⟨8, 0x80, 0x80⟩
  | .lzUnknownFlagB6 _ => ⟨8, 0xC0, 0x40⟩
  | .lzUnknownFlagB5 _ => ⟨8, 0xE0, 0x20⟩
  | .lzUnknownFlagB4 _ => ⟨8, 0xF0, 0x10⟩
  | .lzUnknownFlagB3 _ => ⟨8, 0xF8, 0x08⟩
  | .lzUnknownFlagB2 _ => ⟨8, 0xFC, 0x04⟩
  | .lzUnknownFlagB1 _ => ⟨8, 0xFE, 0x02⟩

/-- The width of a move in bits. -/
def width : Input → Nat
  | .command _ => 11
  | .wire _ bytes => 8 * bytes.length
  | .rst => 0

/-- A move as a number in the table's numbering: a unit's first byte on the wire is the most significant. -/
def number : Input → Nat
  | .command w => w.toNat
  | .wire _ bytes => bytes.foldl (fun n b => 0x100 * n + b.toNat) 0
  | .rst => 0

/-- The encoding of a well-formed instruction is a word of its row. -/
def Statement (i : Instr) : Prop :=
  i.wf = true → width (encode i) = (row i).width ∧ number (encode i) &&& (row i).mask = (row i).pattern

theorem startRleEnc : Statement .startRleEnc := fun _ => by decide
theorem startRleDec : Statement .startRleDec := fun _ => by decide
theorem startLzEnc : Statement .startLzEnc := fun _ => by decide
theorem startLzDec : Statement .startLzDec := fun _ => by decide
theorem push (b : Byte) : Statement (.push b) := fun _ => by revert b; decide
theorem eoc : Statement .eoc := fun _ => by decide
theorem finish : Statement .finish := fun _ => by decide
theorem abort : Statement .abort := fun _ => by decide
theorem reserved5 : Statement .reserved5 := fun _ => by decide
theorem reserved6 : Statement .reserved6 := fun _ => by decide
theorem reserved7 : Statement .reserved7 := fun _ => by decide
theorem rleMagic : Statement .rleMagic := fun _ => by decide
theorem rlePair (value count : Byte) : Statement (.rlePair value count) := fun _ =>
  ⟨rfl, Nat.and_zero _⟩
theorem lzMagic : Statement .lzMagic := fun _ => by decide
theorem lzLiteral (b : Byte) : Statement (.lzLiteral b) := fun _ => by revert b; decide
theorem lzMatch (offset length : Byte) : Statement (.lzMatch offset length) := fun _ => by
  refine ⟨rfl, ?_⟩
  have ho := byte_toNat_lt offset
  have hl := byte_toNat_lt length
  have hlow : 256 * offset.toNat + length.toNat < 2 ^ 16 := by omega
  have hn : number (encode (.lzMatch offset length)) = 2 ^ 16 * 1 + (256 * offset.toNat + length.toNat) := by
    simp only [number, encode, unitBytes, List.foldl_cons, List.foldl_nil]
    change 256 * (256 * (256 * 0 + 1) + _) + _ = _
    omega
  change _ &&& 0xFF0000 = 0x010000
  rw [hn, Nat.two_pow_add_eq_or_of_lt hlow, Nat.and_or_distrib_right, ← Nat.mod_eq_of_lt hlow,
    ← Nat.and_two_pow_sub_one_eq_mod, Nat.and_assoc]
  exact (congrArg _ (Nat.and_zero _)).trans (Nat.or_zero _)
theorem lzUnknownFlagB7 (f : Byte) : Statement (.lzUnknownFlagB7 f) := by unfold Statement; revert f; decide
theorem lzUnknownFlagB6 (f : Byte) : Statement (.lzUnknownFlagB6 f) := by unfold Statement; revert f; decide
theorem lzUnknownFlagB5 (f : Byte) : Statement (.lzUnknownFlagB5 f) := by unfold Statement; revert f; decide
theorem lzUnknownFlagB4 (f : Byte) : Statement (.lzUnknownFlagB4 f) := by unfold Statement; revert f; decide
theorem lzUnknownFlagB3 (f : Byte) : Statement (.lzUnknownFlagB3 f) := by unfold Statement; revert f; decide
theorem lzUnknownFlagB2 (f : Byte) : Statement (.lzUnknownFlagB2 f) := by unfold Statement; revert f; decide
theorem lzUnknownFlagB1 (f : Byte) : Statement (.lzUnknownFlagB1 f) := by unfold Statement; revert f; decide

end Sys2Proof.Laws.TableRow
end

