-- ==== Sys2Proof/Tests/Slice0.lean ====
section
/-! SUPPORT. Tests. Every expected value is the spec's: an encoding of 30_encoding.md or spec/opcode_table.json, or
a vector V<n> or program P<n> of 95_test_vectors.md. At the end, a witness for the hypotheses of each statement. -/

namespace Sys2Proof.Tests

open Machine

/-! ### Well-formedness refuses -/

theorem test_wf_refuses_flagB7 : (Instr.lzUnknownFlagB7 0x7F#8).wf = false := by decide
theorem test_wf_refuses_flagB6 : (Instr.lzUnknownFlagB6 0x80#8).wf = false := by decide
theorem test_wf_refuses_flagB5 : (Instr.lzUnknownFlagB5 0x40#8).wf = false := by decide
theorem test_wf_refuses_flagB4 : (Instr.lzUnknownFlagB4 0x0F#8).wf = false := by decide
theorem test_wf_refuses_flagB3 : (Instr.lzUnknownFlagB3 0x10#8).wf = false := by decide
theorem test_wf_refuses_flagB2 : (Instr.lzUnknownFlagB2 0x03#8).wf = false := by decide
theorem test_wf_refuses_known_flag : (Instr.lzUnknownFlagB1 0x01#8).wf = false := by decide

/-! ### Decoding, from words written out bit by bit -/

theorem test_decode_startRleEnc : decode (.command 0b00000000000#11) = .ok .startRleEnc := by decide
theorem test_decode_startRleDec : decode (.command 0b00000000001#11) = .ok .startRleDec := by decide
theorem test_decode_startLzEnc : decode (.command 0b00000000010#11) = .ok .startLzEnc := by decide
theorem test_decode_startLzDec : decode (.command 0b00000000011#11) = .ok .startLzDec := by decide
/-- R103, V96: `data[7:2]` of START is ignored. -/
theorem test_decode_start_ignored_bits : decode (.command 0b00011111110#11) = .ok .startLzEnc := by decide
theorem test_decode_push : decode (.command 0b00111000001#11) = .ok (.push 0b11000001#8) := by decide
theorem test_decode_eoc : decode (.command 0b01000000001#11) = .ok .eoc := by decide
theorem test_decode_finish : decode (.command 0b01110000000#11) = .ok .finish := by decide
theorem test_decode_abort : decode (.command 0b10000000000#11) = .ok .abort := by decide
/-- V95. -/
theorem test_decode_reserved5 : decode (.command 0b10110101011#11) = .ok .reserved5 := by decide
theorem test_decode_reserved6 : decode (.command 0b11000000000#11) = .ok .reserved6 := by decide
theorem test_decode_reserved7 : decode (.command 0b11111111111#11) = .ok .reserved7 := by decide
theorem test_decode_rleMagic : decode (.wire .rleHeader [0b01010010#8]) = .ok .rleMagic := by decide
theorem test_decode_rlePair :
    decode (.wire .rleBody [0b01000001#8, 0b00101101#8]) = .ok (.rlePair 0x41#8 0x2D#8) := by decide
theorem test_decode_lzMagic : decode (.wire .lzHeader [0b01001100#8]) = .ok .lzMagic := by decide
theorem test_decode_lzLiteral :
    decode (.wire .lzToken [0b00000000#8, 0b01100001#8]) = .ok (.lzLiteral 0x61#8) := by decide
theorem test_decode_lzMatch :
    decode (.wire .lzToken [0b00000001#8, 0b00010100#8, 0b00000011#8]) = .ok (.lzMatch 0x14#8 0x03#8) := by decide
theorem test_decode_flagB7 : decode (.wire .lzToken [0b10000000#8]) = .ok (.lzUnknownFlagB7 0x80#8) := by decide
theorem test_decode_flagB6 : decode (.wire .lzToken [0b01010010#8]) = .ok (.lzUnknownFlagB6 0x52#8) := by decide
theorem test_decode_flagB5 : decode (.wire .lzToken [0b00111111#8]) = .ok (.lzUnknownFlagB5 0x3F#8) := by decide
theorem test_decode_flagB4 : decode (.wire .lzToken [0b00010000#8]) = .ok (.lzUnknownFlagB4 0x10#8) := by decide
theorem test_decode_flagB3 : decode (.wire .lzToken [0b00001111#8]) = .ok (.lzUnknownFlagB3 0x0F#8) := by decide
theorem test_decode_flagB2 : decode (.wire .lzToken [0b00000101#8]) = .ok (.lzUnknownFlagB2 0x05#8) := by decide
theorem test_decode_flagB1 : decode (.wire .lzToken [0b00000011#8]) = .ok (.lzUnknownFlagB1 0x03#8) := by decide

theorem test_decode_refuses_wrong_magic : decode (.wire .rleHeader [0x4C#8]) = .error .wrongMagic := by decide
theorem test_decode_refuses_incomplete_unit :
    decode (.wire .lzToken [0x01#8, 0x05#8]) = .error .incompleteUnit := by decide
theorem test_decode_refuses_trailing_bytes :
    decode (.wire .lzToken [0x02#8, 0x00#8]) = .error .trailingBytes := by decide
theorem test_decode_refuses_reset_line : decode .rst = .error .resetLine := by decide

/-- spec/opcode_table.json, LZ_MATCH: the flag byte is bits 23..16. -/
theorem test_table_word_match : decodeTableWord 24 0x011403 = some (.lzMatch 0x14#8 0x03#8) := by decide
theorem test_table_word_command : decodeTableWord 16 0x300 = some .finish := by decide
theorem test_fetch_runs_table_word :
    step (State.reset.withFetchWord 11 0x002) = exec .startLzEnc State.reset := rfl

/-! ### One step at a time -/

/-- The state of an answer, if it is a next state. -/
def next? : Host.Outcome State Fault Refusal → Option State
  | .next s => some s
  | .fault _ => none
  | .refused _ => none

/-- Does the state hold of an answer? -/
def holds (o : Host.Outcome State Fault Refusal) (p : State → Bool) : Bool := (next? o).any p

/-- An instance of mode `m` in BODY, with nothing received. -/
def body (m : Mode) : State := { State.reset with phase := .body, mode := m }

/-- An instance of mode `m` waiting for the magic byte. -/
def header (m : Mode) : State := { State.reset with phase := .header, mode := m }

/-- RLE_ENC with the run `(v, n)` open. -/
def running (v n : Byte) : State := { body .rleEnc with runOpen := true, runValue := v, runLen := n }

/-- LZ_ENC with a window and a look-ahead. -/
def encoding (win la : List Byte) : State := { body .lzEnc with win := win, la := la }

/-- LZ_DEC with a history and a residue. -/
def decoding (win : List Byte) (len : Fin 3) (r0 r1 : Byte) : State :=
  { body .lzDec with win := win, resLen := len, res0 := r0, res1 := r1 }

/-- V1, P1. -/
theorem test_startRleEnc : holds (exec .startRleEnc (running 0x61#8 1#8)) fun s =>
    s.out == [0x52#8] && s.status == 0x02#8 && s.runOpen == false := by decide
/-- V98, P3: START clears the error. -/
theorem test_startRleDec : holds (exec .startRleDec (raise .corruptDataError (decoding [0x61#8] 2 1#8 2#8))) fun s =>
    s.out == [] && s.status == 0x09#8 && s.resLen == 0 && s.wlen == 0 := by decide
/-- V92. -/
theorem test_startLzEnc : holds (exec .startLzEnc (running 0x61#8 1#8)) fun s =>
    s.out == [0x4C#8] && s.status == 0x12#8 && s.runOpen == false := by decide
/-- P2. -/
theorem test_startLzDec : holds (exec .startLzDec State.reset) fun s =>
    s.out == [] && s.status == 0x19#8 := by decide
/-- V22: the 256th byte flushes the saturated run. -/
theorem test_push_saturated_run : holds (exec (.push 0x41#8) (running 0x41#8 255#8)) fun s =>
    s.out == [0x41#8, 0xFF#8] && s.runValue == 0x41#8 && s.runLen == 1#8 := by decide
/-- V55: the 255th byte triggers one Literal. -/
theorem test_push_fills_look_ahead :
    holds (exec (.push 0x61#8) (encoding [] (List.replicate 254 0x61#8))) fun s =>
      s.out == [0x00#8, 0x61#8] && s.laLen == 254 && s.wlen == 1 := by decide +kernel
/-- P2, command 11, from the fourth token on. -/
theorem test_eoc_matches :
    holds (exec .eoc (encoding [0x61#8, 0x62#8, 0x63#8] [0x61#8, 0x62#8, 0x63#8, 0x61#8, 0x62#8, 0x63#8])) fun s =>
      s.out == [0x01#8, 0x03#8, 0x03#8, 0x01#8, 0x03#8, 0x03#8] && s.laLen == 0 && s.wlen == 9 := by decide
/-- V49: of two equal matches the nearer is taken. -/
theorem test_eoc_tie :
    holds (exec .eoc (encoding [0x61#8, 0x62#8, 0x63#8, 0x58#8, 0x61#8, 0x62#8, 0x63#8, 0x59#8]
      [0x61#8, 0x62#8, 0x63#8])) fun s => s.out == [0x01#8, 0x04#8, 0x03#8] := by decide
/-- P5: Literals only. -/
theorem test_finish_lz_encoder :
    holds (exec .finish (encoding [] [0x61#8, 0x62#8, 0x63#8, 0x61#8, 0x62#8, 0x63#8])) fun s =>
      s.out == [0x00#8, 0x61#8, 0x00#8, 0x62#8, 0x00#8, 0x63#8, 0x00#8, 0x61#8, 0x00#8, 0x62#8, 0x00#8, 0x63#8] &&
        s.status == 0x13#8 && s.laLen == 0 && s.wlen == 6 := by decide
/-- V7: a residue at the end of the input. -/
theorem test_finish_truncated : holds (exec .finish (decoding [] 2 0x01#8 0x05#8)) fun s =>
    s.out == [] && s.status == 0x9C#8 := by decide
/-- V94: `MODE` is kept. -/
theorem test_abort : holds (exec .abort (header .lzDec)) fun s => s.status == 0x18#8 := by decide
/-- V93: the run is not emitted. -/
theorem test_abort_discards_run : holds (exec .abort (running 0x61#8 2#8)) fun s =>
    s.out == [] && s.status == 0x00#8 && s.runOpen == false := by decide
/-- V95. -/
theorem test_reserved5 : next? (exec .reserved5 (running 0x61#8 3#8)) = some (running 0x61#8 3#8) := by decide
theorem test_reserved6 : next? (exec .reserved6 (header .rleDec)) = some (header .rleDec) := by decide
theorem test_reserved7 : next? (exec .reserved7 State.reset) = some State.reset := by decide
/-- V33. -/
theorem test_rleMagic : holds (exec .rleMagic (header .rleDec)) fun s => s.status == 0x0A#8 := by decide
/-- V34. -/
theorem test_rlePair : holds (exec (.rlePair 0x41#8 0x2D#8) (body .rleDec)) fun s =>
    s.out == List.replicate 45 0x41#8 && s.resLen == 0 := by decide
/-- V5: a zero count. -/
theorem test_rlePair_zero : holds (exec (.rlePair 0x41#8 0x00#8) (body .rleDec)) fun s =>
    s.out == [] && s.status == 0x4C#8 := by decide
/-- V37: an LZ77 stream given to the RLE decoder. -/
theorem test_lzMagic_wrong : holds (exec .lzMagic (header .rleDec)) fun s => s.status == 0x2C#8 := by decide
theorem test_lzMagic : holds (exec .lzMagic (header .lzDec)) fun s => s.status == 0x1A#8 := by decide
/-- V70. -/
theorem test_lzLiteral : holds (exec (.lzLiteral 0x61#8) (body .lzDec)) fun s =>
    s.out == [0x61#8] && s.win == [0x61#8] && s.resLen == 0 := by decide
/-- V72: the copy overlaps itself. -/
theorem test_lzMatch_overlaps : holds (exec (.lzMatch 0x02#8 0x05#8) (decoding [0x61#8, 0x62#8] 0 0#8 0#8)) fun s =>
    s.out == [0x61#8, 0x62#8, 0x61#8, 0x62#8, 0x61#8] && s.wlen == 7 := by decide
/-- V83: an offset past the history. -/
theorem test_lzMatch_past_history : holds (exec (.lzMatch 0x02#8 0x03#8) (decoding [0x61#8] 0 0#8 0#8)) fun s =>
    s.out == [] && s.status == 0x5C#8 := by decide
/-- V84. -/
theorem test_lzUnknownFlagB7 : holds (exec (.lzUnknownFlagB7 0xFF#8) (body .lzDec)) fun s => s.status == 0x7C#8 := by
  decide
theorem test_lzUnknownFlagB6 : holds (exec (.lzUnknownFlagB6 0x4C#8) (body .lzDec)) fun s => s.status == 0x7C#8 := by
  decide
theorem test_lzUnknownFlagB5 : holds (exec (.lzUnknownFlagB5 0x20#8) (body .lzDec)) fun s => s.status == 0x7C#8 := by
  decide
theorem test_lzUnknownFlagB4 : holds (exec (.lzUnknownFlagB4 0x1F#8) (body .lzDec)) fun s => s.status == 0x7C#8 := by
  decide
theorem test_lzUnknownFlagB3 : holds (exec (.lzUnknownFlagB3 0x08#8) (body .lzDec)) fun s => s.status == 0x7C#8 := by
  decide
theorem test_lzUnknownFlagB2 : holds (exec (.lzUnknownFlagB2 0x07#8) (body .lzDec)) fun s => s.status == 0x7C#8 := by
  decide
theorem test_lzUnknownFlagB1 : holds (exec (.lzUnknownFlagB1 0x02#8) (body .lzDec)) fun s => s.status == 0x7C#8 := by
  decide
/-- V61: the other value of `OVERLAP_SEARCH`, second token. -/
theorem test_token_overlap_search :
    (token ⟨true, .formatError⟩ (encoding [0x61#8] (List.replicate 9 0x61#8))).toOption.map State.out =
      some [0x01#8, 0x01#8, 0x09#8] := by decide
/-- V50: the longer, older match wins over the nearer, shorter one. -/
theorem test_search_longest : search false
    [0x61#8, 0x62#8, 0x63#8, 0x64#8, 0x58#8, 0x61#8, 0x62#8, 0x63#8, 0x59#8] [0x61#8, 0x62#8, 0x63#8, 0x64#8] =
      (0, 4) := by decide
/-- V99: `rst` during a run. -/
theorem test_reset_line : holds (step { running 0x61#8 1#8 with out := [0x52#8], input := [.rst] }) fun s =>
    s.out == [0x52#8] && s.status == 0x00#8 && s.runOpen == false := by decide
/-- V11. -/
theorem test_host_route :
    hostRoute 0x52#8 = some .startRleDec ∧ hostRoute 0x4C#8 = some .startLzDec ∧ hostRoute 0x51#8 = none := by decide

/-! ### Witnesses: states and operands that meet the hypotheses of the statements, clause by clause -/

set_option synthInstance.maxSize 1000

/-- An encoder of window `aaa` and look-ahead `aaa`: the search finds `(0, 3)`. -/
def matching : State := encoding (List.replicate 3 0x61#8) (List.replicate 3 0x61#8)

/-- A full window: 20 bytes. -/
def fullWindow : List Byte := List.replicate 20 0x61#8

/-- Port inputs of an edge: a command word, or none, with a ready SINK. -/
def offer (w : CommandWord) : PortIn := ⟨false, true, opField w, dataField w, true, 0⟩
def quiet (ready : Bool) : PortIn := ⟨false, false, 0#3, 0#8, ready, 0⟩

/-- A port state between commands. -/
def portOf (s : State) : PortState := ⟨s, none, 0, [], s.status⟩

/-- A port state with one command transferred. -/
def executing (w : CommandWord) (s : State) : PortState := ⟨s, some w, 0, [], s.status⟩

/-- A port state whose command waits for the SINK. -/
def draining (bs : List Byte) (s : State) : PortState := ⟨s, none, 0, bs, 0x00#8⟩

theorem witness_DecodeOfEncodeIsTheInstruction :
    (Instr.push 0xFF#8).wf = true ∧ (Instr.lzMatch 0xFF#8 0x00#8).wf = true ∧
      (Instr.lzUnknownFlagB7 0xFF#8).wf = true ∧ (Instr.lzUnknownFlagB1 0x02#8).wf = true := by decide

theorem witness_ReservedOperationsAndIgnoredBitsDoNothing :
    opField 0x5AB#11 = 0b101#3 ∧ opField 0x600#11 = 0b110#3 ∧ opField 0x7FF#11 = 0b111#3 ∧
      opField 0x0FE#11 = opField 0x002#11 ∧ opField 0x0FE#11 ≠ 0b001#3 ∧ modeField 0x0FE#11 = modeField 0x002#11 := by
  decide

theorem witness_UnitsOnTheWireAreReadAsWritten :
    (Instr.lzUnknownFlagB1 0x03#8).wf = true ∧
      encode (.lzUnknownFlagB1 0x03#8) = .wire .lzToken (unitBytes (.lzUnknownFlagB1 0x03#8)) ∧
      decodeUnit .lzToken [0x01#8, 0x14#8, 0x03#8, 0x00#8] = .ok (.lzMatch 0x14#8 0x03#8, [0x00#8]) := by decide

theorem witness_StepRunsTheDecodedInstruction :
    decode (.command 0x161#11) = .ok (.push 0x61#8) ∧
      ({ State.reset with input := [.command 0x161#11] } : State).input = .command 0x161#11 :: [] ∧
      decodeTableWord 11 0x161 = some (.push 0x61#8) := by decide

theorem witness_IdleEngineKeepsAllState :
    State.reset.input = [] ∧ (quiet true).rst = false ∧ (quiet true).cmdValid = false ∧
      (portOf State.reset).cmdReady = true := by decide

theorem witness_ResetLineIsAbortPlusModeZero :
    ({ running 0x61#8 1#8 with input := [.rst, .command 0x300#11] } : State).input = .rst :: [.command 0x300#11] := by
  decide

theorem witness_WireUnitRunsAsItsPushes :
    ({ body .lzDec with input := [.wire .lzToken [0x00#8, 0x61#8]] } : State).input =
      .wire .lzToken [0x00#8, 0x61#8] :: [] ∧ unitBytes (.lzLiteral 0x61#8) ≠ [] := by decide

theorem witness_AbortDiscardsTheInstance : Inv State.reset ∧ State.reset.phase = .idle := by decide

theorem witness_OnlyStartAndAbortActOutsideARun :
    State.reset.phase = .idle ∧ ({ body .rleEnc with phase := .done } : State).phase = .done ∧
      (raise .formatError (header .lzDec)).phase = .error ∧ Instr.push 0x61#8 ≠ .startRleEnc ∧
      Instr.push 0x61#8 ≠ .startRleDec ∧ Instr.push 0x61#8 ≠ .startLzEnc ∧ Instr.push 0x61#8 ≠ .startLzDec ∧
      Instr.push 0x61#8 ≠ .abort := by decide

theorem witness_FirstByteIsCheckedAgainstTheMagic :
    (header .rleDec).phase = .header ∧ (header .rleDec).mode = .rleDec ∧
      (header .lzDec).phase = .header ∧ (header .lzDec).mode = .lzDec := by decide

theorem witness_FinishBeforeAnyByteFollowsEmptyDecode : (header .lzDec).phase = .header := by decide

theorem witness_EndOfChunkIsNoOperationOutsideTheLzEncoder :
    (body .rleEnc).phase = .body ∧ (body .rleEnc).mode = .rleEnc ∧ (body .rleDec).mode = .rleDec ∧
      (body .lzDec).mode = .lzDec ∧ (header .rleDec).phase = .header := by decide

/-- Clause by clause; the run of length 254 extends and the run of length 255 is flushed. -/
theorem witness_RleEncoderPushTracksTheRun :
    (running 0x41#8 254#8).phase = .body ∧ (running 0x41#8 254#8).mode = .rleEnc ∧
      (body .rleEnc).runOpen = false ∧ (running 0x41#8 254#8).runOpen = true ∧
      0x41#8 = (running 0x41#8 254#8).runValue ∧ (running 0x41#8 254#8).runLen.toNat < 255 ∧
      (running 0x41#8 255#8).runLen.toNat = 255 ∧ 0x42#8 ≠ (running 0x41#8 1#8).runValue := by decide

theorem witness_RleEncoderFinishFlushesTheRun :
    (running 0x41#8 255#8).phase = .body ∧ (running 0x41#8 255#8).mode = .rleEnc ∧
      (running 0x41#8 255#8).runOpen = true ∧ (body .rleEnc).runOpen = false := by decide

theorem witness_RleDecoderPushExpandsPairs :
    (body .rleDec).phase = .body ∧ (body .rleDec).mode = .rleDec ∧ (body .rleDec).resLen = 0 ∧
      ({ body .rleDec with res0 := 0x41#8, resLen := 1 } : State).resLen ≠ 0 ∧ 255#8 ≠ 0#8 := by decide

theorem witness_DecoderFinishChecksTheResidue :
    (decoding [] 2 1#8 5#8).phase = .body ∧ (decoding [] 2 1#8 5#8).mode = .lzDec ∧
      (decoding [] 2 1#8 5#8).resLen ≠ 0 ∧ (body .rleDec).mode = .rleDec ∧ (body .rleDec).resLen = 0 := by decide

theorem feed_instrs : ∀ i ∈ [Instr.push 0x61#8, .eoc, .push 0x61#8], FeedInstr i := by
  simp [FeedInstr]

/-- V1 with one byte: the pushed bytes, the encoding, and the encoding split in two chunks. -/
theorem witness_RleDecodingInvertsEncoding :
    (∀ i ∈ [Instr.push 0x61#8, .eoc, .push 0x61#8], FeedInstr i) ∧
      holds (execAll (.startRleEnc :: [Instr.push 0x61#8, .eoc, .push 0x61#8] ++ [.finish]) State.reset)
        (fun s => s.out == [0x52#8, 0x61#8, 0x02#8]) = true ∧
      [[0x52#8, 0x61#8], [0x02#8]].flatten = [0x52#8, 0x61#8, 0x02#8] :=
  ⟨feed_instrs, by decide, by decide⟩

theorem witness_MatchLengthIsTheLongestCommonPrefix :
    0 < matching.win.length ∧ 2 < matching.win.length ∧ 3 ≤ matching.la.length ∧
      (matchSource false matching.win matching.la 0).take 3 = matching.la.take 3 := by decide

theorem witness_SearchFindsTheNearestLongestMatch :
    matching.win ≠ [] ∧ 0 < matching.win.length ∧
      curLen false matching.win matching.la 0 = (search false matching.win matching.la).2 := by decide

/-- A Match at the least length, and a Literal just below it. -/
theorem witness_TokenIsSerialisedAndMoved :
    matching.la = 0x61#8 :: [0x61#8, 0x61#8] ∧
      (3 ≤ (search false matching.win matching.la).2 ∧
        matching.win.length - (search false matching.win matching.la).1 ≤ 255) ∧
      ¬(3 ≤ (search false matching.win [0x61#8, 0x61#8]).2 ∧
        matching.win.length - (search false matching.win [0x61#8, 0x61#8]).1 ≤ 255) := by decide

theorem witness_LzEncoderPushFillsTheLookAhead :
    (encoding [] (List.replicate 253 0x61#8)).phase = .body ∧
      (encoding [] (List.replicate 253 0x61#8)).mode = .lzEnc ∧
      (encoding [] (List.replicate 253 0x61#8)).la.length < 254 ∧
      (encoding [] (List.replicate 254 0x61#8)).la.length = 254 := by decide +kernel

theorem witness_LzEncoderEndOfChunkDrainsTheLookAhead :
    matching.phase = .body ∧ matching.mode = .lzEnc ∧ matching.eocSeen = false ∧ matching.la ≠ [] ∧
      (body .lzEnc).la = [] ∧ (body .lzEnc).eocSeen = false := by decide

theorem witness_LzEncoderFinishWritesLiterals : matching.phase = .body ∧ matching.mode = .lzEnc := by decide

theorem witness_EmittedTokensAreWithinBounds :
    matching.la ≠ [] ∧ matching.la.length ≤ 255 ∧ matching.win.length ≤ 20 ∧
      (token ⟨false, .formatError⟩ matching).toOption.map State.out = some [0x01#8, 0x03#8, 0x03#8] := by decide

theorem witness_LzDecoderFlagByteSelectsTheToken :
    (body .lzDec).phase = .body ∧ (body .lzDec).mode = .lzDec ∧ (body .lzDec).resLen = 0 ∧
      2#8 ≠ 0x00#8 ∧ 2#8 ≠ 0x01#8 := by decide

theorem witness_LzDecoderSecondByteIsLiteralOrOffset :
    (decoding [] 1 0#8 0#8).phase = .body ∧ (decoding [] 1 0#8 0#8).mode = .lzDec ∧
      (decoding [] 1 0#8 0#8).resLen = 1 ∧ (decoding [] 1 0#8 0#8).res0 = 0x00#8 ∧
      (decoding [] 1 1#8 0#8).res0 ≠ 0x00#8 := by decide

/-- Offset 20 of a full window is legal and offset 21 is not (V78, V79). -/
theorem witness_LzDecoderLengthByteValidatesThenCopies :
    (decoding fullWindow 2 1#8 20#8).phase = .body ∧ (decoding fullWindow 2 1#8 20#8).mode = .lzDec ∧
      (decoding fullWindow 2 1#8 20#8).resLen = 2 ∧ (decoding fullWindow 2 1#8 20#8).res1 ≠ 0#8 ∧ 3#8 ≠ 0#8 ∧
      (decoding fullWindow 2 1#8 20#8).res1.toNat ≤ (decoding fullWindow 2 1#8 20#8).win.length ∧
      (decoding fullWindow 2 1#8 21#8).win.length < (decoding fullWindow 2 1#8 21#8).res1.toNat ∧
      (decoding fullWindow 2 1#8 0#8).res1 = 0#8 := by decide

theorem witness_CopyIsPeriodicInItsOffset :
    1 ≤ 20 ∧ 20 ≤ (decoding fullWindow 2 1#8 20#8).win.length ∧ 1 ≤ 255 ∧ 255 ≤ 255 ∧ 254 < 255 := by decide

theorem witness_WindowHoldsTheLastTwentyBytes : fullWindow.length ≤ 20 := by decide

theorem witness_PhysicalWindowsShowTheSequenceForm :
    (⟨fullWindow, 19, 20⟩ : Ring).wf ∧ (⟨fullWindow, 0, 0⟩ : Ring).wf ∧ (⟨fullWindow, 20⟩ : ShiftRegister).wf := by
  decide

theorem witness_DecoderHistoryIsItsLastOutput :
    (∀ i ∈ [Instr.push 0x4C#8, .eoc, .push 0x00#8, .push 0x61#8], FeedInstr i) ∧
      holds (execAll (.startLzDec :: [Instr.push 0x4C#8, .eoc, .push 0x00#8, .push 0x61#8]) State.reset)
        (fun s => s.out == [0x61#8] && s.win == [0x61#8]) = true :=
  ⟨by simp [FeedInstr], by decide⟩

theorem witness_EncoderWindowIsItsLastEncodedInput :
    (∀ i ∈ [Instr.push 0x61#8, .eoc, .push 0x61#8], FeedInstr i) ∧
      pushedBytes [Instr.push 0x61#8, .eoc, .push 0x61#8] = [0x61#8] ++ [0x61#8] :=
  ⟨feed_instrs, by decide⟩

theorem witness_ErrorEntryWritesOnlyErrAndPhase :
    unitBytes (.push 0#8) = [] ∧ (decoding [0x61#8] 2 1#8 2#8).phase ≠ .error ∧
      holds (exec (.push 3#8) (decoding [0x61#8] 2 1#8 2#8)) (fun s => s.phase == .error) = true := by decide

/-- A legal state for every role the next byte can have. -/
theorem witness_ErrorsHaveExactlyTheirCauses :
    (Inv (header .lzDec) ∧ (header .lzDec).nextRole = .magicByte) ∧
      (Inv { body .rleDec with resLen := 1 } ∧ ({ body .rleDec with resLen := 1 } : State).nextRole = .count) ∧
      (Inv (body .lzDec) ∧ (body .lzDec).nextRole = .flag) ∧
      (Inv (decoding fullWindow 2 1#8 20#8) ∧ (decoding fullWindow 2 1#8 20#8).nextRole = .length) ∧
      (decoding fullWindow 2 1#8 20#8).phase ≠ .error ∧
      holds (exec (.push 1#8) (decoding fullWindow 2 1#8 20#8)) (fun s => s.err == .noError) = true ∧
      holds (exec .finish (decoding fullWindow 2 1#8 20#8)) (fun s => s.err == .truncatedStreamError) = true := by
  decide

theorem witness_PhaseChangesOnlyByTheTransitionTable :
    Inv (running 0x41#8 255#8) ∧ unitBytes .finish = [] ∧
      holds (exec .finish (running 0x41#8 255#8)) (fun s => s.phase == .done) = true := by decide

theorem witness_OutputIsAppendOnly :
    holds (exec .finish (running 0x41#8 255#8)) (fun s => s.out == [0x41#8, 0xFF#8]) = true ∧
      holds (step { running 0x41#8 255#8 with input := [.command 0x300#11] })
        (fun s => s.out == [0x41#8, 0xFF#8]) = true := by decide

theorem witness_CommandsLeaveOtherModesStateAlone :
    Instr.eoc ≠ .startRleEnc ∧ Instr.eoc ≠ .startRleDec ∧ Instr.eoc ≠ .startLzEnc ∧ Instr.eoc ≠ .startLzDec ∧
      Instr.eoc ≠ .abort ∧ holds (exec .eoc matching) (fun s => s.la == []) = true ∧ matching.mode ≠ .rleEnc ∧
      matching.mode = .lzEnc ∧ (running 0x41#8 1#8).mode ≠ .lzEnc ∧ (running 0x41#8 1#8).mode ≠ .lzDec := by decide

theorem witness_MagicUnitOpensTheBody :
    (header .rleDec).phase = .header ∧ (header .rleDec).mode = .rleDec ∧ (header .lzDec).phase = .header ∧
      (header .lzDec).mode = .lzDec := by decide

theorem witness_RlePairUnitExpandsToItsRun :
    (body .rleDec).phase = .body ∧ (body .rleDec).mode = .rleDec ∧ (body .rleDec).resLen = 0 ∧ 255#8 ≠ 0#8 := by
  decide

theorem witness_LzLiteralUnitEmitsItsByte :
    (body .lzDec).phase = .body ∧ (body .lzDec).mode = .lzDec ∧ (body .lzDec).resLen = 0 := by decide

/-- Offset 20 is within a full history and offset 21 is not. -/
theorem witness_LzMatchUnitCopiesFromTheHistory :
    (decoding fullWindow 0 0#8 0#8).phase = .body ∧ (decoding fullWindow 0 0#8 0#8).mode = .lzDec ∧
      (decoding fullWindow 0 0#8 0#8).resLen = 0 ∧ 20#8 ≠ 0#8 ∧ 255#8 ≠ 0#8 ∧
      (20#8).toNat ≤ (decoding fullWindow 0 0#8 0#8).win.length ∧
      (decoding fullWindow 0 0#8 0#8).win.length < (21#8).toNat := by decide

theorem witness_UnknownFlagRowsRaiseUnknownToken :
    (body .lzDec).phase = .body ∧ (body .lzDec).mode = .lzDec ∧ (body .lzDec).resLen = 0 ∧ (Instr.lzUnknownFlagB7 0xFF#8).wf = true ∧ (Instr.lzUnknownFlagB1 0x02#8).wf = true ∧
      Instr.lzUnknownFlagB1 0x02#8 ∈ [Instr.lzUnknownFlagB7 0x02#8, .lzUnknownFlagB6 0x02#8, .lzUnknownFlagB5 0x02#8,
        .lzUnknownFlagB4 0x02#8, .lzUnknownFlagB3 0x02#8, .lzUnknownFlagB2 0x02#8, .lzUnknownFlagB1 0x02#8] := by
  decide

theorem witness_StepCompletesAndKeepsTheInvariant :
    Inv { running 0x41#8 255#8 with input := [.command 0x141#11] } ∧
      Inv { decoding fullWindow 2 1#8 20#8 with input := [.command 0x1FF#11, .rst] } ∧
      Inv { matching with input := [.command 0x200#11] } := by decide

/-- Two idle states that differ in all four data registers. -/
theorem witness_RegistersWithoutValueAreInvisible :
    SameValues State.reset { State.reset with runValue := 1#8, runLen := 2#8, res0 := 3#8, res1 := 4#8 } ∧
      SameValues (decoding [] 1 1#8 0#8) (decoding [] 1 1#8 9#8) := by decide

theorem witness_ChunkBoundariesHaveNoEffectOutsideTheLzEncoder :
    (running 0x61#8 1#8).mode ≠ .lzEnc ∧ ∀ i ∈ [Instr.push 0x61#8, .eoc, .push 0x61#8], FeedInstr i :=
  ⟨by decide, feed_instrs⟩

theorem witness_LzDecodingInvertsEncoding :
    (∀ i ∈ [Instr.push 0x61#8, .eoc, .push 0x61#8], FeedInstr i) ∧
      holds (execAll (.startLzEnc :: [Instr.push 0x61#8, .eoc, .push 0x61#8] ++ [.finish]) State.reset)
        (fun s => s.out == [0x4C#8, 0x00#8, 0x61#8, 0x00#8, 0x61#8]) = true ∧
      [[0x4C#8, 0x00#8], [0x61#8, 0x00#8, 0x61#8]].flatten = [0x4C#8, 0x00#8, 0x61#8, 0x00#8, 0x61#8] :=
  ⟨feed_instrs, by decide, by decide⟩

theorem witness_RunsEndOnlyAsDefined :
    Inv matching ∧ Active matching ∧
      holds (exec .finish matching) (fun t => runEnd .finish matching t == some .complete) = true ∧
      Inv (header .rleDec) ∧ Active (header .rleDec) ∧
      holds (exec (.push 0#8) (header .rleDec))
        (fun t => runEnd (.push 0#8) (header .rleDec) t == some (.failed .formatError)) = true := by decide

/-- The clauses on moves and on edges: a wire unit that fails a run, `rst`, and a run whose FINISH is executed and
has one byte to transfer, at the edge that transfers it and at one that resets. -/
theorem witness_RunsEndOnlyAsDefined_moves_and_edges :
    (Inv { header .lzDec with input := [.wire .rleHeader [0x52#8]] } ∧
      Active { header .lzDec with input := [.wire .rleHeader [0x52#8]] } ∧
      holds (step { header .lzDec with input := [.wire .rleHeader [0x52#8]] })
        (fun t => moveEnd (.wire .rleHeader [0x52#8]) (header .lzDec) t == some (.failed .formatError)) = true) ∧
      (Active { matching with input := [.rst] } ∧
        step { matching with input := [.rst] } = .next (applyRst { matching with input := [] })) ∧
      (PortInv (draining [0x61#8] { matching with phase := .done, la := [] }) ∧
        edgeEnd (quiet true) (draining [0x61#8] { matching with phase := .done, la := [] })
          (portOf { matching with phase := .done, la := [], out := [0x61#8] }) = some .complete ∧
        edge (quiet true) (draining [0x61#8] { matching with phase := .done, la := [] }) =
          .next (portOf { matching with phase := .done, la := [], out := [0x61#8] })) ∧
      (PortInv (executing 0x400#11 matching) ∧
        edgeEnd (quiet true) (executing 0x400#11 matching)
          (portOf { matching with phase := .idle, win := [], la := [] }) = some .discarded ∧
        edge (quiet true) (executing 0x400#11 matching) =
          .next (portOf { matching with phase := .idle, win := [], la := [] })) ∧
      InRun (draining [0x61#8] { matching with phase := .done, la := [] }) ∧
      ({ quiet true with rst := true } : PortIn).rst = true :=
  ⟨⟨by decide, by decide, by decide⟩, ⟨by decide, rfl⟩, ⟨by decide, by decide, rfl⟩, ⟨by decide, by decide, rfl⟩,
    by decide, rfl⟩

theorem witness_PortEdgesCompleteAndKeepTheInvariant :
    PortInv (portOf State.reset) ∧ PortInv (executing 0x300#11 matching) ∧
      PortInv (draining [0x61#8, 0x03#8] (running 0x62#8 1#8)) := by decide

theorem witness_PortEdgesRefineCommands :
    (offer 0x002#11).rst = false ∧
      edge (offer 0x002#11) (portOf State.reset) = .next (executing 0x002#11 State.reset) ∧
      (quiet true).rst = false ∧
      edge (quiet true) (executing 0x600#11 matching) = .next (portOf matching) :=
  ⟨rfl, rfl, rfl, rfl⟩

theorem witness_PortResetHasPriority :
    ({ offer 0x002#11 with rst := true } : PortIn).rst = true := rfl

/-- The status changes at an edge; a byte waits; a byte is taken. -/
theorem witness_StatusChangesOnlyWhenACommandCompletes :
    edge (quiet true) (executing 0x400#11 (header .lzDec)) =
        .next (portOf { header .lzDec with phase := .idle }) ∧
      (portOf { header .lzDec with phase := .idle }).shown ≠ (executing 0x400#11 (header .lzDec)).shown ∧
      edge (quiet false) (draining [0x61#8] (running 0x62#8 1#8)) =
        .next (draining [0x61#8] (running 0x62#8 1#8)) ∧
      edge (quiet true) (draining [0x61#8, 0x03#8] (running 0x62#8 1#8)) =
        .next (draining [0x03#8] { running 0x62#8 1#8 with out := [0x61#8] }) :=
  ⟨rfl, by decide, rfl, rfl⟩

theorem witness_CommandsCompleteWithinTheirOutputBound :
    PortInv (executing 0x300#11 matching) ∧ (executing 0x300#11 matching).pending ≠ none ∧
      (quiet true).rst = false ∧ (quiet true).outReady = true := by
  decide

theorem witness_FairSinkLetsEveryCommandComplete :
    PortInv (executing 0x300#11 matching) ∧ (executing 0x300#11 matching).cmdReady = false ∧
      (∀ n, ((fun _ => quiet true : Nat → PortIn) n).rst = false) ∧
      SinkFair (fun _ => quiet true) (executing 0x300#11 matching) :=
  ⟨by decide, by decide, fun _ => rfl, fun n _ _ _ => ⟨n, le_rfl, rfl⟩⟩

/-- A command of two edges of work before its state update (70_reset_and_hazards.md R284). -/
theorem test_work_delays_the_state_update :
    edges [{ offer 0x002#11 with work := 1 }, quiet true] (portOf State.reset) =
        .next (executing 0x002#11 State.reset) ∧
      (executing 0x002#11 State.reset).cmdReady = false := ⟨rfl, by decide⟩

/-- `W_HEAD` and `WLEN` after reset (10_state.md R39). -/
theorem test_ring_reset : (⟨fullWindow, 19, 20⟩ : Ring).reset = ⟨fullWindow, 0, 0⟩ := rfl

/-- After two different pasts, START LZ_ENC and a PUSH. -/
theorem witness_NoStateLeaksIntoTheNextInstance :
    holds (execAll (startInstr .lzEnc :: [.push 0x61#8]) (running 0x41#8 9#8)) (fun s => s.la == [0x61#8]) = true ∧
      holds (execAll (startInstr .lzEnc :: [.push 0x61#8]) matching) (fun s => s.la == [0x61#8]) = true := by decide

end Sys2Proof.Tests
end

section
/-! The fields of the status word, and the lines `done` and `error` (10_state.md R37): each is read back from
the concatenation `ERR ++ MODE ++ PHASE` by passing over the fields below it. -/

namespace Sys2Proof.Machine

@[simp] theorem State.status_phaseField (s : State) : s.status.extractLsb' 0 3 = s.phase.code :=
  BitVec.extractLsb'_append_eq_right

@[simp] theorem State.status_modeField (s : State) : s.status.extractLsb' 3 2 = s.mode.code :=
  calc s.status.extractLsb' 3 2
    _ = (s.err.code ++ s.mode.code).extractLsb' 0 2 := BitVec.extractLsb'_append_eq_of_le (by decide)
    _ = s.mode.code := BitVec.extractLsb'_append_eq_right

@[simp] theorem State.status_errField (s : State) : s.status.extractLsb' 5 3 = s.err.code :=
  calc s.status.extractLsb' 5 3
    _ = (s.err.code ++ s.mode.code).extractLsb' 2 3 := BitVec.extractLsb'_append_eq_of_le (by decide)
    _ = s.err.code := BitVec.extractLsb'_append_eq_left

@[simp] theorem State.doneLine_eq_true_iff (s : State) : s.doneLine = true ↔ s.phase = .done := beq_iff_eq

@[simp] theorem State.errorLine_eq_true_iff (s : State) : s.errorLine = true ↔ s.phase = .error := beq_iff_eq

/-- Settles O50: the three fields of the status word and the two lines, each by its own lemma. -/
theorem statusWordShowsPhaseModeAndErr : Obligations.StatusWordShowsPhaseModeAndErr :=
  fun s => ⟨s.status_phaseField, s.status_modeField, s.status_errField, s.doneLine_eq_true_iff,
    s.errorLine_eq_true_iff⟩

end Sys2Proof.Machine
end

section
/-! The reserved operations and the bits no decoder reads (30_encoding.md R104; 44_framing_commands.md R219): a
word of an operation other than PUSH is decoded from its `op`, and from `data[1:0]` when that is START. -/

namespace Sys2Proof.Machine

@[simp] theorem exec_reserved5 (s : State) : exec .reserved5 s = .next s := toOutcome_ok s
@[simp] theorem exec_reserved6 (s : State) : exec .reserved6 s = .next s := toOutcome_ok s
@[simp] theorem exec_reserved7 (s : State) : exec .reserved7 s = .next s := toOutcome_ok s

theorem decodeCommand_of_opField_reserved5 {w : CommandWord} (h : opField w = 0b101#3) :
    decodeCommand w = .reserved5 := by simp [decodeCommand, h]

theorem decodeCommand_of_opField_reserved6 {w : CommandWord} (h : opField w = 0b110#3) :
    decodeCommand w = .reserved6 := by simp [decodeCommand, h]

theorem decodeCommand_of_opField_reserved7 {w : CommandWord} (h : opField w = 0b111#3) :
    decodeCommand w = .reserved7 := by simp [decodeCommand, h]

theorem decodeCommand_eq_of_decoded_fields_eq {w w' : CommandWord} (hop : opField w = opField w')
    (hpush : opField w ≠ 0b001#3) (hmode : opField w = 0b000#3 → modeField w = modeField w') :
    decodeCommand w = decodeCommand w' := by
  unfold decodeCommand
  rw [← hop]
  by_cases hstart : opField w = 0b000#3
  · rw [hmode hstart, if_pos hstart, if_pos hstart]
  · rw [if_neg hstart, if_neg hstart, if_neg hpush, if_neg hpush]

/-- Settles O3: no reserved operation touches the state, and decoding reads `op` and START's mode alone. -/
theorem reservedOperationsAndIgnoredBitsDoNothing : Obligations.ReservedOperationsAndIgnoredBitsDoNothing :=
  ⟨fun s => ⟨exec_reserved5 s, exec_reserved6 s, exec_reserved7 s⟩,
    fun _ => ⟨fun h => congrArg Except.ok (decodeCommand_of_opField_reserved5 h),
      fun h => congrArg Except.ok (decodeCommand_of_opField_reserved6 h),
      fun h => congrArg Except.ok (decodeCommand_of_opField_reserved7 h)⟩,
    fun _ _ hop hpush hmode => congrArg Except.ok (decodeCommand_eq_of_decoded_fields_eq hop hpush hmode)⟩

end Sys2Proof.Machine
end

section
/-! The commands of the run-length encoder (40_rle_encode.md R122 to R124) and the chunk boundaries that do
nothing: every branch of a command as its own rule, from the update the command makes. -/

namespace Sys2Proof.Machine

/-! ### EOC outside the LZ encoder -/

theorem chunkEnded_eq_self (v : Variant) {s : State} (h : ¬(s.phase = .body ∧ s.mode = .lzEnc)) :
    chunkEnded v s = s := if_neg h

theorem exec_eoc_of_mode_ne_lzEnc {s : State} (h : s.mode ≠ .lzEnc) : exec .eoc s = .next s := by
  rw [exec_eoc_eq, chunkEnded_eq_self _ fun hs => h hs.2]

theorem exec_eoc_of_phase_ne_body {s : State} (h : s.phase ≠ .body) : exec .eoc s = .next s := by
  rw [exec_eoc_eq, chunkEnded_eq_self _ fun hs => h hs.1]

/-- Settles O15: EOC acts in the LZ encoder's BODY alone, and neither clause is about that. -/
theorem endOfChunkIsNoOperationOutsideTheLzEncoder : Obligations.EndOfChunkIsNoOperationOutsideTheLzEncoder := by
  refine fun s => ⟨fun _ hmode => exec_eoc_of_mode_ne_lzEnc ?_, fun hp => exec_eoc_of_phase_ne_body ?_⟩
  · rcases hmode with hm | hm | hm <;> simp [hm]
  · simp [hp]

/-! ### `RLE_ENC.PUSH` -/

theorem extend_eq_false {b : Byte} {s : State} (h : b ≠ s.runValue ∨ s.runLen.toNat = 255) :
    extend b s = false := by
  refine Bool.eq_false_iff.mpr fun he => ?_
  obtain ⟨-, hb, hlen⟩ := extend_eq_true.mp he
  exact h.elim (· hb) hlen.ne

theorem rleEncPushed_of_closed (b : Byte) {s : State} (ho : s.runOpen = false) :
    rleEncPushed b s = openRun b s := if_pos ho

theorem rleEncPushed_of_extend {b : Byte} {s : State} (he : extend b s = true) :
    rleEncPushed b s = { s with runLen := s.runLen + 1#8 } := by
  obtain ⟨ho, -, -⟩ := extend_eq_true.mp he
  simp [rleEncPushed, ho, he]

theorem rleEncPushed_of_flush {b : Byte} {s : State} (ho : s.runOpen = true) (he : extend b s = false) :
    rleEncPushed b s = openRun b (emitAll [s.runValue, s.runLen] s) := by
  simp [rleEncPushed, ho, he]

/-- Emitting a run leaves it open, so opening the next one writes its value and length only. -/
theorem openRun_emitAll_of_open (b : Byte) (bs : List Byte) {s : State} (ho : s.runOpen = true) :
    openRun b (emitAll bs s) = { s with out := s.out ++ bs, runValue := b, runLen := 1#8 } := by
  simp [State.ext_iff, ho]

theorem exec_push_rleEnc (b : Byte) {s : State} (hp : s.phase = .body) (hm : s.mode = .rleEnc) :
    exec (.push b) s = .next (rleEncPushed b s) := by
  simp [exec_push_eq, pushed, hp, hm]

/-- A run below the maximum does not wrap when it grows. -/
theorem byte_toNat_add_one {n : Byte} (h : n.toNat < 255) : (n + 1#8).toNat = n.toNat + 1 :=
  BitVec.toNat_add_of_lt (Nat.succ_lt_succ h)

/-- Settles O16: no run open, a run that extends, and a run that is flushed. -/
theorem rleEncoderPushTracksTheRun : Obligations.RleEncoderPushTracksTheRun := by
  intro s b hp hm
  rw [exec_push_rleEnc b hp hm]
  refine ⟨fun ho => ?_, fun ho hb hlen => ⟨?_, byte_toNat_add_one hlen⟩, fun ho hflush => ?_⟩
  · rw [rleEncPushed_of_closed b ho, openRun]
  · rw [rleEncPushed_of_extend (extend_eq_true.mpr ⟨ho, hb, hlen⟩)]
  · rw [rleEncPushed_of_flush ho (extend_eq_false hflush), openRun_emitAll_of_open b _ ho]

/-! ### `RLE_ENC.FINISH` -/

theorem exec_finish_rleEnc {s : State} (hp : s.phase = .body) (hm : s.mode = .rleEnc) :
    exec .finish s =
      .next { emitAll (if s.runOpen = true then [s.runValue, s.runLen] else []) s with
        runOpen := false, phase := .done } := by
  simp [exec_finish_eq, finished, hp, hm]

/-- Settles O17: an open run is emitted and closed; with none there is nothing to emit or to close. -/
theorem rleEncoderFinishFlushesTheRun : Obligations.RleEncoderFinishFlushesTheRun := by
  intro s hp hm
  rw [exec_finish_rleEnc hp hm]
  refine ⟨fun ho => ?_, fun ho => ?_⟩
  · rw [if_pos ho, emitAll]
  · simp [State.ext_iff, ho]

end Sys2Proof.Machine
end

section
/-! The commands of the run-length decoder (41_rle_decode.md R141, R143) and the FINISH it shares with the LZ
decoder (43_lz77_decode.md R196): every branch of a command as its own rule, from the update the command makes. -/

namespace Sys2Proof.Machine

/-! ### `RLE_DEC.PUSH` -/

theorem exec_push_rleDec (b : Byte) {s : State} (hp : s.phase = .body) (hm : s.mode = .rleDec) :
    exec (.push b) s = .next (rleDecPushed b s) := by
  simp [exec_push_eq, pushed, hp, hm]

theorem rleDecPushed_of_value (b : Byte) {s : State} (hr : s.resLen = 0) :
    rleDecPushed b s = { s with res0 := b, resLen := 1 } := if_pos hr

theorem rleDecPushed_of_zero_count {s : State} (hr : s.resLen ≠ 0) :
    rleDecPushed 0#8 s = raise .corruptDataError s := by
  rw [rleDecPushed, if_neg hr, if_pos rfl]

theorem rleDecPushed_of_count {b : Byte} {s : State} (hr : s.resLen ≠ 0) (hb : b ≠ 0#8) :
    rleDecPushed b s = { emitAll (List.replicate b.toNat s.res0) s with resLen := 0 } := by
  rw [rleDecPushed, if_neg hr, if_neg hb]

/-- Settles O18: a value byte, a count of 0, and a count that completes the pair. -/
theorem rleDecoderPushExpandsPairs : Obligations.RleDecoderPushExpandsPairs := by
  intro s b hp hm
  rw [exec_push_rleDec b hp hm]
  refine ⟨fun hr => ?_, fun hr hb => ?_, fun hr hb => ?_⟩
  · rw [rleDecPushed_of_value b hr]
  · rw [hb, rleDecPushed_of_zero_count hr, raise]
  · rw [rleDecPushed_of_count hr hb, emitAll]

/-! ### FINISH of a decoder -/

theorem exec_finish_decoder {s : State} (hp : s.phase = .body) (hm : s.mode = .rleDec ∨ s.mode = .lzDec) :
    exec .finish s =
      .next (if s.resLen ≠ 0 then raise .truncatedStreamError s else { s with phase := .done }) := by
  rcases hm with hm | hm <;> simp only [exec_finish_eq, finished, hp, hm]

/-- Settles O19: bytes left in the residue, and none. -/
theorem decoderFinishChecksTheResidue : Obligations.DecoderFinishChecksTheResidue := by
  intro s hp hm
  rw [exec_finish_decoder hp hm]
  refine ⟨fun hr => ?_, fun hr => ?_⟩
  · rw [if_pos hr, raise]
  · rw [if_neg (not_not_intro hr)]

end Sys2Proof.Machine
end

section
/-! The match detector (42_lz77_encode.md R164): the pseudocode's loop compares the look-ahead with the match
source, byte by byte, so it computes their `commonPrefix`. -/

namespace Sys2Proof.Machine

/-! ### `commonPrefix` -/

/-- No longer beginning is common to both. -/
theorem le_commonPrefix {as bs : List Byte} {n : Nat} (hn : n ≤ bs.length) (h : as.take n = bs.take n) :
    n ≤ commonPrefix as bs := by
  induction n generalizing as bs with
  | zero => exact Nat.zero_le _
  | succ n ih =>
    obtain ⟨b, bs, rfl⟩ := List.exists_cons_of_length_pos (Nat.zero_lt_of_lt hn)
    cases as with
    | nil => simp at h
    | cons a as =>
      rw [List.take_succ_cons, List.take_succ_cons, List.cons.injEq] at h
      rw [commonPrefix, if_pos h.1]
      exact Nat.succ_le_succ (ih (Nat.le_of_succ_le_succ hn) h.2)

theorem commonPrefix_drop_of_left_end {as : List Byte} (bs : List Byte) {k : Nat} (h : as.length ≤ k) :
    commonPrefix (as.drop k) (bs.drop k) = 0 := by
  rw [List.drop_eq_nil_of_le h]
  exact Nat.le_zero.mp (commonPrefix_le_left [] _)

theorem commonPrefix_drop_of_right_end (as : List Byte) {bs : List Byte} {k : Nat} (h : bs.length ≤ k) :
    commonPrefix (as.drop k) (bs.drop k) = 0 := by
  rw [List.drop_eq_nil_of_le h]
  exact Nat.le_zero.mp (commonPrefix_le_right _ [])

/-- One comparison, at index `k` of both sequences. -/
theorem commonPrefix_drop {as bs : List Byte} {k : Nat} (ha : k < as.length) (hb : k < bs.length) :
    commonPrefix (as.drop k) (bs.drop k) =
      if as[k] = bs[k] then commonPrefix (as.drop (k + 1)) (bs.drop (k + 1)) + 1 else 0 := by
  rw [List.drop_eq_getElem_cons ha, List.drop_eq_getElem_cons hb, commonPrefix]

/-! ### The match source -/

theorem matchSource_length (overlap : Bool) (win la : List Byte) (i : Nat) :
    (matchSource overlap win la i).length = win.length - i + if overlap then la.length else 0 := by
  cases overlap <;> simp [matchSource]

theorem matchSource_getElem_of_lt_win {overlap : Bool} {win la : List Byte} {i k : Nat} (hw : i + k < win.length)
    (hk : k < (matchSource overlap win la i).length) : (matchSource overlap win la i)[k] = win[i + k] := by
  simp only [matchSource]
  rw [List.getElem_append_left (by rw [List.length_drop]; omega), List.getElem_drop]

/-- Past the end of the window, `OVERLAP_SEARCH = 1` reads the look-ahead from its front. -/
theorem matchSource_getElem_of_win_le {win la : List Byte} {i k : Nat} (hi : i ≤ win.length)
    (hw : win.length ≤ i + k) (hk : k < (matchSource true win la i).length) (hl : i + k - win.length < la.length) :
    (matchSource true win la i)[k] = la[i + k - win.length] := by
  simp only [matchSource]
  rw [List.getElem_append_right (by rw [List.length_drop]; omega)]
  have hidx : k - (win.drop i).length = i + k - win.length := by rw [List.length_drop]; omega
  simp only [hidx, if_true]

/-! ### The loop -/

theorem curLenLoop_of_la_end (overlap : Bool) (i : Nat) {s : State} (fuel : Nat) {k : Nat}
    (hk : s.la.length ≤ k) : curLenLoop overlap i s fuel k = .ok k := by
  cases fuel with
  | zero => rfl
  | succ fuel => rw [curLenLoop, if_neg hk.not_gt]

theorem curLenLoop_of_source_end {overlap : Bool} {i : Nat} {s : State} (fuel : Nat) {k : Nat}
    (hla : k < s.la.length) (hk : (matchSource overlap s.win s.la i).length ≤ k) :
    curLenLoop overlap i s (fuel + 1) k = .ok k := by
  rw [matchSource_length] at hk
  cases overlap with
  | true => rw [if_pos rfl] at hk; omega
  | false =>
    have hw : ¬ i + k < s.win.length := by rw [if_neg Bool.false_ne_true] at hk; omega
    rw [curLenLoop, if_pos hla, if_neg hw, if_neg Bool.false_ne_true]

/-- Inside both sequences a round reads the `k`th byte of each and no byte past an end. -/
theorem curLenLoop_succ {overlap : Bool} {i : Nat} {s : State} (fuel : Nat) {k : Nat} (hi : i ≤ s.win.length)
    (hla : k < s.la.length) (hk : k < (matchSource overlap s.win s.la i).length) :
    curLenLoop overlap i s (fuel + 1) k =
      if (matchSource overlap s.win s.la i)[k] = s.la[k] then curLenLoop overlap i s fuel (k + 1) else .ok k := by
  rw [curLenLoop, if_pos hla]
  by_cases hw : i + k < s.win.length
  · simp only [if_pos hw, winRead_eq_ok hw, laRead_eq_ok hla, matchSource_getElem_of_lt_win hw hk, ne_eq, ite_not]
  · cases overlap with
    | false => rw [matchSource_length, if_neg Bool.false_ne_true] at hk; omega
    | true =>
      have hl : i + k - s.win.length < s.la.length := by omega
      simp only [if_neg hw, if_true, laRead_eq_ok hl, laRead_eq_ok hla,
        matchSource_getElem_of_win_le hi (not_lt.mp hw) hk hl, ne_eq, ite_not]

/-- From index `k` the loop adds the `commonPrefix` of what is left of both sequences. -/
theorem curLenLoop_eq_ok (overlap : Bool) {i : Nat} {s : State} (hi : i ≤ s.win.length) (fuel k : Nat)
    (hf : s.la.length ≤ k + fuel) :
    curLenLoop overlap i s fuel k =
      .ok (k + commonPrefix ((matchSource overlap s.win s.la i).drop k) (s.la.drop k)) := by
  induction fuel generalizing k with
  | zero =>
    rw [Nat.add_zero] at hf
    rw [curLenLoop_of_la_end overlap i 0 hf, commonPrefix_drop_of_right_end _ hf, Nat.add_zero]
  | succ fuel ih =>
    rcases Nat.lt_or_ge k s.la.length with hla | hla
    · rcases Nat.lt_or_ge k (matchSource overlap s.win s.la i).length with hk | hk
      · rw [curLenLoop_succ fuel hi hla hk, commonPrefix_drop hk hla]
        split
        · rw [ih (k + 1) (by omega), Nat.add_right_comm, Nat.add_assoc]
        · rw [Nat.add_zero]
      · rw [curLenLoop_of_source_end fuel hla hk, commonPrefix_drop_of_left_end _ hk, Nat.add_zero]
    · rw [curLenLoop_of_la_end overlap i _ hla, commonPrefix_drop_of_right_end _ hla, Nat.add_zero]

/-- With `OVERLAP_SEARCH = 0` no match runs past the end of the window. -/
theorem curLen_le_win (win la : List Byte) (i : Nat) : curLen false win la i ≤ win.length - i :=
  (commonPrefix_le_left _ _).trans_eq (matchSource_length false win la i)

/-- Settles O22: the loop from index 0 is `commonPrefix`, and the two sequences agree for that many bytes
and for no greater number. -/
theorem matchLengthIsTheLongestCommonPrefix : Obligations.MatchLengthIsTheLongestCommonPrefix := by
  intro overlap s i hi
  refine ⟨?_, curLen_le_la overlap _ _ i, ?_, take_commonPrefix _ _, fun n hn h => le_commonPrefix hn h⟩
  · have hloop := curLenLoop_eq_ok overlap hi.le s.la.length 0 (Nat.zero_add _).ge
    rwa [Nat.zero_add, List.drop_zero, List.drop_zero] at hloop
  · rintro rfl
    exact le_min (curLen_le_win _ _ i) (curLen_le_la false _ _ i)

end Sys2Proof.Machine
end

section
/-! The token and the commands of the LZ encoder (42_lz77_encode.md R161, R163, R168 to R170): every branch as its
own rule, from the update that `Laws` gives for each operation. -/

namespace Sys2Proof.Machine

/-! ### `Token()` -/

theorem decideMatch_of_match {overlap : Bool} {win la : List Byte}
    (h : 3 ≤ (search overlap win la).2 ∧ win.length - (search overlap win la).1 ≤ 255) :
    decideMatch overlap win la = some (win.length - (search overlap win la).1, (search overlap win la).2) :=
  if_pos h

theorem decideMatch_of_literal {overlap : Bool} {win la : List Byte}
    (h : ¬(3 ≤ (search overlap win la).2 ∧ win.length - (search overlap win la).1 ≤ 255)) :
    decideMatch overlap win la = none :=
  if_neg h

theorem decideMatch_length_le {overlap : Bool} {win la : List Byte} {offset length : Nat}
    (h : decideMatch overlap win la = some (offset, length)) : length ≤ la.length := by
  obtain ⟨i, -, -, rfl, -⟩ := decideMatch_eq_some h
  exact curLen_le_la overlap win la i

/-- Settles O24: the two answers of the mux, each with its serialisation. -/
theorem tokenIsSerialisedAndMoved : Obligations.TokenIsSerialisedAndMoved := by
  intro v s b rest hla
  refine ⟨fun hmatch => ?_, fun hliteral => ?_⟩
  · have hd := decideMatch_of_match hmatch
    exact ⟨decideMatch_length_le hd, token_of_match hd⟩
  · rw [token_of_literal (decideMatch_of_literal hliteral), literalToken_eq_ok hla]

/-! ### `LZ_ENC.PUSH` -/

theorem exec_push_lzEnc (b : Byte) {s : State} (hp : s.phase = .body) (hm : s.mode = .lzEnc)
    (hl : s.la.length < 255) :
    exec (.push b) s =
      toOutcome (if s.la.length = 254 then token Config.hw.variant { s with la := s.la ++ [b] }
        else .ok { s with la := s.la ++ [b] }) := by
  rw [exec, execPush, pushByte_lzEnc _ b hp hm, lzEncPush_eq _ b hl]

/-- Settles O25: the byte is appended, and the token that a full look-ahead brings removes at least one. -/
theorem lzEncoderPushFillsTheLookAhead : Obligations.LzEncoderPushFillsTheLookAhead := by
  intro s b hp hm hl
  rw [exec_push_lzEnc b hp hm (Nat.lt_succ_of_le hl)]
  refine ⟨fun hlt => ?_, fun heq => ?_⟩
  · rw [if_neg hlt.ne, toOutcome_ok]
  · obtain ⟨bs, n, hn, -, -, -, ht⟩ :=
      token_cases Config.hw.variant (s := { s with la := s.la ++ [b] }) (by simp)
    refine ⟨_, ht, by rw [if_pos heq, ht, toOutcome_ok], ?_⟩
    simp only [List.length_drop, List.length_append, List.length_singleton]
    omega

/-! ### `LZ_ENC.EOC` -/

theorem chunkEnded_of_lzEnc (v : Variant) {s : State} (hp : s.phase = .body) (hm : s.mode = .lzEnc) :
    chunkEnded v s =
      { s with
        out := s.out ++ drainOut v s.la.length s.win s.la
        la := []
        win := s.la.foldl windowAppend s.win
        eocSeen := false } :=
  if_pos ⟨hp, hm⟩

/-- With fuel for the whole look-ahead, more fuel emits nothing more: the bytes are those of the loop. -/
theorem drainOut_fuel (v : Variant) {fuel : Nat} (win : List Byte) {la : List Byte} (hf : la.length ≤ fuel) :
    drainOut v fuel win la = drainOut v la.length win la := by
  have h := drain_fuel v fuel { State.reset with win := win, la := la, eocSeen := true } hf
  rw [drain_eq_ok v fuel _ rfl hf, drain_eq_ok v la.length _ rfl le_rfl] at h
  simpa using h

/-- The first token of a chunk, and then the rest of it. -/
theorem drainOut_of_ne_nil (v : Variant) (win : List Byte) {la : List Byte} (h : la ≠ []) :
    drainOut v la.length win la =
      (tokenOut v win la).1 ++
        drainOut v (la.drop (tokenOut v win la).2).length
          ((la.take (tokenOut v win la).2).foldl windowAppend win) (la.drop (tokenOut v win la).2) := by
  obtain ⟨fuel, hfuel⟩ := Nat.exists_eq_succ_of_ne_zero (List.length_pos_iff.mpr h).ne'
  have hn := tokenOut_bounds v win h
  rw [hfuel, drainOut, if_neg h, drainOut_fuel]
  rw [List.length_drop]
  omega

/-- One `Token()` leaves the end of the chunk as it was. -/
theorem chunkEnded_of_token {v : Variant} {s t : State} (hp : s.phase = .body) (hm : s.mode = .lzEnc)
    (hla : s.la ≠ []) (ht : token v s = .ok t) : chunkEnded v s = chunkEnded v t := by
  rw [token_eq_ok v hla] at ht
  cases ht
  simp only [chunkEnded_of_lzEnc, hp, hm, drainOut_of_ne_nil v s.win hla, List.append_assoc]
  rw [← List.foldl_append, List.take_append_drop]

/-- Settles O26: EOC is one update, which the first token of the chunk does not change. -/
theorem lzEncoderEndOfChunkDrainsTheLookAhead : Obligations.LzEncoderEndOfChunkDrainsTheLookAhead := by
  intro s hp hm he
  refine ⟨fun hla => ?_, fun hla => ?_, drainOut Config.hw.variant s.la.length s.win s.la, ?_⟩
  · rw [exec_eoc_eq, chunkEnded_of_lzEnc _ hp hm]
    simp [State.ext_iff, hla, he, drainOut]
  · have ht := token_eq_ok Config.hw.variant hla
    exact ⟨_, ht, by rw [exec_eoc_eq, exec_eoc_eq, chunkEnded_of_token hp hm hla ht]⟩
  · rw [exec_eoc_eq, chunkEnded_of_lzEnc _ hp hm, he]

/-! ### `LZ_ENC.FINISH` -/

/-- Settles O27: FINISH is the Finalize loop's update and the change of `PHASE`. -/
theorem lzEncoderFinishWritesLiterals : Obligations.LzEncoderFinishWritesLiterals := by
  intro s hp hm
  rw [exec_finish_eq]
  simp only [finished, hp, hm]

end Sys2Proof.Machine
end

section
/-! The copy (43_lz77_decode.md R194): byte `n` is the byte `offset` places before it in the history followed by the
copy itself, a fact that one append to the window keeps. -/

namespace Sys2Proof.Machine

/-- An append drops at most one byte, so it moves no byte of the window relative to the end. -/
theorem exists_windowAppend_eq_drop (win : List Byte) (b : Byte) :
    ∃ d ≤ 1, windowAppend win b = (win ++ [b]).drop d := by
  unfold windowAppend
  split
  · exact ⟨0, by decide, rfl⟩
  · rename_i hfull
    have hne : 1 ≤ win.length := Nat.one_le_iff_ne_zero.mpr fun h0 => hfull (by simp [h0])
    exact ⟨1, le_rfl, (List.drop_append_of_le_length hne).symm⟩

/-- Counted from its end, the window after an append is the window before it and the byte. -/
theorem windowAppend_append_getElem? {offset : Nat} {win : List Byte} (ho : offset ≤ win.length) (b : Byte)
    (bs : List Byte) (n : Nat) :
    (windowAppend win b ++ bs)[(windowAppend win b).length - offset + n]? =
      (win ++ b :: bs)[win.length - offset + (n + 1)]? := by
  obtain ⟨d, hd, hw⟩ := exists_windowAppend_eq_drop win b
  have hle : d ≤ (win ++ [b]).length := by rw [List.length_append, List.length_singleton]; omega
  have hidx : d + ((win ++ [b]).length - d - offset + n) = win.length - offset + (n + 1) := by
    rw [List.length_append, List.length_singleton]; omega
  rw [hw, ← List.drop_append_of_le_length hle, List.getElem?_drop, List.length_drop, hidx, List.append_assoc,
    List.singleton_append]

theorem copyBytes_getElem? {offset length n : Nat} {win : List Byte} (h1 : 1 ≤ offset) (ho : offset ≤ win.length)
    (hn : n < length) :
    (copyBytes offset length win)[n]? = (win ++ copyBytes offset length win)[win.length - offset + n]? := by
  induction length generalizing win n with
  | zero => exact absurd hn (Nat.not_lt_zero n)
  | succ length ih =>
    cases n with
    | zero =>
      have hk : win.length - offset < win.length := by omega
      rw [Nat.add_zero (win.length - offset), List.getElem?_append_left hk, copyBytes, List.getElem?_cons_zero,
        List.getElem?_eq_getElem hk, List.getD_eq_getElem _ _ hk]
    | succ n =>
      have hw := ho.trans (length_le_windowAppend win (win.getD (win.length - offset) 0#8))
      rw [copyBytes, List.getElem?_cons_succ, ih hw (Nat.lt_of_succ_lt_succ hn), windowAppend_append_getElem? ho]

/-- Settles O32: `offset` places before byte `n` lies the history while `n < offset`, and the copy from then on. -/
theorem copyIsPeriodicInItsOffset : Obligations.CopyIsPeriodicInItsOffset := by
  intro s offset length h1 ho _ _
  refine ⟨copyBytes offset length s.win, copyBytes_length _ _ _, copy_eq_ok length h1 ho, fun n hn => ?_⟩
  rw [copyBytes_getElem? h1 ho hn]
  split
  · rw [List.getElem?_append_left (by omega)]
  · rw [List.getElem?_append_right (by omega)]
    congr 1
    omega

end Sys2Proof.Machine
end

section
/-! `LZ_DEC.PUSH` (43_lz77_decode.md R191 to R193): every branch as its own rule, from the update the command
makes. -/

namespace Sys2Proof.Machine

theorem exec_push_lzDec (b : Byte) {s : State} (hp : s.phase = .body) (hm : s.mode = .lzDec) :
    exec (.push b) s = .next (lzDecPushed b s) := by
  simp [exec_push_eq, pushed, hp, hm]

/-! ### A flag byte -/

theorem lzDecPushed_of_known_flag {b : Byte} {s : State} (hr : s.resLen = 0) (hb : b = 0x00#8 ∨ b = 0x01#8) :
    lzDecPushed b s = { s with res0 := b, resLen := 1 } := by
  rw [lzDecPushed, if_pos hr, if_pos hb]

theorem lzDecPushed_of_unknown_flag {b : Byte} {s : State} (hr : s.resLen = 0) (hb : ¬(b = 0x00#8 ∨ b = 0x01#8)) :
    lzDecPushed b s = raise .unknownTokenError s := by
  rw [lzDecPushed, if_pos hr, if_neg hb]

/-- Settles O29: the two known flags, and any other byte. -/
theorem lzDecoderFlagByteSelectsTheToken : Obligations.LzDecoderFlagByteSelectsTheToken := by
  intro s b hp hm hr
  rw [exec_push_lzDec b hp hm]
  refine ⟨fun hb => ?_, fun hl hmatch => ?_⟩
  · rw [lzDecPushed_of_known_flag hr hb]
  · rw [lzDecPushed_of_unknown_flag hr (not_or.mpr ⟨hl, hmatch⟩), raise]

/-! ### A literal byte or an offset -/

theorem lzDecPushed_of_literal (b : Byte) {s : State} (hr : s.resLen = 1) (hf : s.res0 = 0x00#8) :
    lzDecPushed b s = { s with out := s.out ++ [b], win := windowAppend s.win b, resLen := 0 } := by
  rw [lzDecPushed, if_neg (by simp [hr]), if_pos hr, if_pos hf]

theorem lzDecPushed_of_offset (b : Byte) {s : State} (hr : s.resLen = 1) (hf : s.res0 ≠ 0x00#8) :
    lzDecPushed b s = { s with res1 := b, resLen := 2 } := by
  rw [lzDecPushed, if_neg (by simp [hr]), if_pos hr, if_neg hf]

/-- Settles O30: the byte after a literal flag, and the byte after a match flag. -/
theorem lzDecoderSecondByteIsLiteralOrOffset : Obligations.LzDecoderSecondByteIsLiteralOrOffset := by
  intro s b hp hm hr
  rw [exec_push_lzDec b hp hm]
  refine ⟨fun hf => ?_, fun hf => ?_⟩
  · rw [lzDecPushed_of_literal b hr hf]
  · rw [lzDecPushed_of_offset b hr hf]

/-! ### A length -/

theorem lzDecPushed_of_illegal_match {b : Byte} {s : State} (hr : s.resLen = 2)
    (hbad : s.res1 = 0#8 ∨ b = 0#8 ∨ s.win.length < s.res1.toNat) :
    lzDecPushed b s = raise .corruptDataError s := by
  rw [lzDecPushed, if_neg (by simp [hr]), if_neg (by simp [hr]), if_pos hbad]

theorem lzDecPushed_of_legal_match {b : Byte} {s : State} (hr : s.resLen = 2)
    (hok : ¬(s.res1 = 0#8 ∨ b = 0#8 ∨ s.win.length < s.res1.toNat)) :
    lzDecPushed b s =
      { s with
        out := s.out ++ copyBytes s.res1.toNat b.toNat s.win
        win := (copyBytes s.res1.toNat b.toNat s.win).foldl windowAppend s.win
        resLen := 0 } := by
  rw [lzDecPushed, if_neg (by simp [hr]), if_neg (by simp [hr]), if_neg hok]

theorem one_le_toNat_of_ne_zero {b : Byte} (h : b ≠ 0#8) : 1 ≤ b.toNat :=
  Nat.one_le_iff_ne_zero.mpr fun h0 => h (BitVec.eq_of_toNat_eq h0)

/-- Settles O31: an illegal match, and a legal one, whose copy never stops. -/
theorem lzDecoderLengthByteValidatesThenCopies : Obligations.LzDecoderLengthByteValidatesThenCopies := by
  intro s b hp hm hr
  rw [exec_push_lzDec b hp hm]
  refine ⟨fun hbad => ?_, fun ho hl hw => ⟨_, copy_eq_ok b.toNat (one_le_toNat_of_ne_zero ho) hw, ?_⟩⟩
  · rw [lzDecPushed_of_illegal_match hr hbad, raise]
  · rw [lzDecPushed_of_legal_match hr (not_or.mpr ⟨ho, not_or.mpr ⟨hl, hw.not_gt⟩⟩)]

end Sys2Proof.Machine
end

section
/-! START, ABORT and the magic check of HEADER (44_framing_commands.md R211, R212, R214): every command as one
update of the state. -/

namespace Sys2Proof.Machine

/-! ### START -/

theorem exec_startInstr (m : Mode) (s : State) : exec (startInstr m) s = .next (start m s) := by
  cases m <;> exact toOutcome_ok _

theorem start_encoder {m : Mode} (hm : m = .rleEnc ∨ m = .lzEnc) (s : State) :
    start m s = { s with
      phase := .body, mode := m, err := .noError, runOpen := false, win := [], la := [], resLen := 0
      eocSeen := false, out := s.out ++ [magic m] } := by
  rcases hm with rfl | rfl <;> rfl

theorem start_decoder {m : Mode} (hm : m = .rleDec ∨ m = .lzDec) (s : State) :
    start m s = { s with
      phase := .header, mode := m, err := .noError, runOpen := false, win := [], la := [], resLen := 0
      eocSeen := false } := by
  rcases hm with rfl | rfl <;> rfl

/-- Settles O10: the two encoders, each with its magic byte, and the two decoders. -/
theorem startCreatesTheInstance : Obligations.StartCreatesTheInstance := by
  refine fun s => ⟨?_, ?_, ?_, ?_⟩
  · exact (exec_startInstr .rleEnc s).trans (congrArg _ (start_encoder (.inl rfl) s))
  · exact (exec_startInstr .rleDec s).trans (congrArg _ (start_decoder (.inl rfl) s))
  · exact (exec_startInstr .lzEnc s).trans (congrArg _ (start_encoder (.inr rfl) s))
  · exact (exec_startInstr .lzDec s).trans (congrArg _ (start_decoder (.inr rfl) s))

/-! ### ABORT -/

theorem exec_abort (s : State) : exec .abort s = .next (abortInstance s) := toOutcome_ok _

theorem abortInstance_eq (s : State) :
    abortInstance s = { s with
      phase := .idle, err := .noError, runOpen := false, win := [], la := [], resLen := 0, eocSeen := false } := rfl

/-- In IDLE the invariant leaves nothing to discard. -/
theorem abortInstance_eq_self_of_idle {s : State} (hs : Inv s) (hp : s.phase = .idle) : abortInstance s = s := by
  obtain ⟨-, -, heoc, herr, -, -, -, hidle, -⟩ := hs
  obtain ⟨hrun, hwin, hla, hres⟩ := hidle hp
  have hno : s.err = .noError := by simpa [ErrIffErrorPhase, hp] using herr
  simp [abortInstance_eq, State.ext_iff, hp, hno, hrun, hwin, hla, hres, heoc]

/-- Settles O11: the whole state after ABORT, which in a legal IDLE state is the state before it. -/
theorem abortDiscardsTheInstance : Obligations.AbortDiscardsTheInstance := by
  refine ⟨fun s => ?_, fun s hs hp => ?_⟩
  · rw [exec_abort, abortInstance_eq]
  · rw [exec_abort, abortInstance_eq_self_of_idle hs hp]

/-! ### PUSH in HEADER -/

theorem exec_push_header (b : Byte) {s : State} (hp : s.phase = .header) :
    exec (.push b) s = .next (checkMagic b s) := by
  rw [exec, execPush, pushByte_header _ b hp, toOutcome_ok]

theorem magic_of_rle {m : Mode} (hm : m = .rleEnc ∨ m = .rleDec) : magic m = 0x52#8 := by
  rcases hm with rfl | rfl <;> rfl

theorem magic_of_lz {m : Mode} (hm : m = .lzEnc ∨ m = .lzDec) : magic m = 0x4C#8 := by
  rcases hm with rfl | rfl <;> rfl

/-- Settles O13: HEADER runs the magic check, and each mode's magic byte is its family's. -/
theorem firstByteIsCheckedAgainstTheMagic : Obligations.FirstByteIsCheckedAgainstTheMagic := by
  intro s b hp
  rw [exec_push_header b hp, checkMagic, raise]
  refine ⟨fun hm => ?_, fun hm => ?_⟩
  · rw [magic_of_rle hm]
  · rw [magic_of_lz hm]

end Sys2Proof.Machine
end

section
/-! `rst` at the port level (44_framing_commands.md R229). -/

namespace Sys2Proof.Machine

theorem edge_of_rst {x : PortIn} (p : PortState) (hx : x.rst = true) : edge x p = .next p.applyRst := if_pos hx

@[simp] theorem PortState.applyRst_core (p : PortState) : p.applyRst.core = Machine.applyRst p.core := rfl
@[simp] theorem PortState.applyRst_pending (p : PortState) : p.applyRst.pending = none := rfl
@[simp] theorem PortState.applyRst_staged (p : PortState) : p.applyRst.staged = [] := rfl

/-- IDLE, RLE_ENC and no error all have code 0. -/
theorem State.reset_status : State.reset.status = 0x00#8 := by decide

theorem applyRst_status (s : State) : (applyRst s).status = State.reset.status := rfl

@[simp] theorem PortState.applyRst_shown (p : PortState) : p.applyRst.shown = 0x00#8 :=
  (applyRst_status p.core).trans State.reset_status

@[simp] theorem PortState.applyRst_cmdReady (p : PortState) : p.applyRst.cmdReady = true := rfl
@[simp] theorem PortState.applyRst_outValid (p : PortState) : p.applyRst.outValid = false := rfl

/-- Settles O56: the edge is `rst` alone, and every register it names has a lemma of `applyRst`. -/
theorem portResetHasPriority : Obligations.PortResetHasPriority :=
  fun _ p hx => ⟨p.applyRst, edge_of_rst p hx, by simp⟩

end Sys2Proof.Machine
end

section
/-! An ENGINE to which nothing is presented (60_exceptions.md R259), at the transaction level and at the ports. -/

namespace Sys2Proof.Machine

theorem step_of_input_nil {s : State} (hs : s.input = []) : step s = .next s := by
  rw [step, takeNext, hs, toOutcome_ok]

theorem PortState.cmdReady_iff (p : PortState) : p.cmdReady = true ↔ p.pending = none ∧ p.staged = [] := by
  simp [PortState.cmdReady]

/-- A ready ENGINE does nothing at an edge but transfer the command that is offered, if one is
(44_framing_commands.md R228). -/
theorem edge_of_cmdReady {x : PortIn} {p : PortState} (hx : x.rst = false) (hp : p.cmdReady = true) :
    edge x p = .next (if x.cmdValid then
      { p with pending := some (commandWord x.cmdOp x.cmdData), work := x.work } else p) := by
  obtain ⟨hpending, hstaged⟩ := p.cmdReady_iff.mp hp
  cases hvalid : x.cmdValid <;> simp [edge, hx, hpending, hstaged, hvalid]

/-- Settles O7: with no move the step waits, and a ready ENGINE offered no command transfers none. -/
theorem idleEngineKeepsAllState : Obligations.IdleEngineKeepsAllState := by
  refine ⟨fun s hs => step_of_input_nil hs, fun x p hx hvalid hp => ?_⟩
  rw [edge_of_cmdReady hx hp, hvalid, if_neg Bool.false_ne_true]

end Sys2Proof.Machine
end

section
/-! Noninterference (70_reset_and_hazards.md R272): what an instruction emits, and every register that holds a value
after it, is determined by the registers that held a value before it. START needs none of them. -/

namespace Sys2Proof.Machine

/-! ### States that hold the same values -/

/-- `SameValues` apart from the two streams: the states agree in every register that holds a value. -/
structure SameHeld (s u : State) : Prop where
  phase : u.phase = s.phase
  mode : u.mode = s.mode
  err : u.err = s.err
  runOpen : u.runOpen = s.runOpen
  win : u.win = s.win
  la : u.la = s.la
  resLen : u.resLen = s.resLen
  eocSeen : u.eocSeen = s.eocSeen
  runValue : s.runOpen = true → u.runValue = s.runValue
  runLen : s.runOpen = true → u.runLen = s.runLen
  res0 : s.resLen ≠ 0 → u.res0 = s.res0
  res1 : s.resLen = 2 → u.res1 = s.res1

/-- `SameHeld` is the agreement that the obligation asks for. -/
theorem SameHeld.sameValues {s u : State} (h : SameHeld s u) :
    SameValues { s with out := [], input := [] } { u with out := [], input := [] } :=
  ⟨by simp [h.phase, h.mode, h.err, h.runOpen, h.win, h.la, h.resLen, h.eocSeen],
    fun ho => ⟨h.runValue ho, h.runLen ho⟩, h.res0, h.res1⟩

/-- From `s` to `t` and from `u` to `w` the same bytes are emitted, and `t` and `w` hold the same values. -/
structure SameEffect (s u t w : State) : Prop where
  emitted : ∃ bs, t.out = s.out ++ bs ∧ w.out = u.out ++ bs
  sameHeld : SameHeld t w

theorem SameEffect.of_emitted {s u t w : State} (bs : List Byte) (ht : t.out = s.out ++ bs)
    (hw : w.out = u.out ++ bs) (h : SameHeld t w) : SameEffect s u t w :=
  ⟨⟨bs, ht, hw⟩, h⟩

theorem SameEffect.of_silent {s u t w : State} (ht : t.out = s.out) (hw : w.out = u.out) (h : SameHeld t w) :
    SameEffect s u t w :=
  .of_emitted [] (by simp [ht]) (by simp [hw]) h

theorem SameEffect.trans {s u t w t' w' : State} (h : SameEffect s u t w) (h' : SameEffect t w t' w') :
    SameEffect s u t' w' := by
  obtain ⟨⟨bs, ht, hw⟩, -⟩ := h
  obtain ⟨⟨cs, ht', hw'⟩, hheld⟩ := h'
  exact .of_emitted (bs ++ cs) (by rw [ht', ht, List.append_assoc]) (by rw [hw', hw, List.append_assoc]) hheld

/-- Two updates that branch on the same condition. -/
theorem SameEffect.ite {p q : Prop} [Decidable p] [Decidable q] {s u t t' w w' : State} (hqp : q ↔ p)
    (hpos : p → SameEffect s u t w) (hneg : ¬p → SameEffect s u t' w') :
    SameEffect s u (if p then t else t') (if q then w else w') := by
  by_cases hp : p
  · rw [if_pos hp, if_pos (hqp.mpr hp)]
    exact hpos hp
  · rw [if_neg hp, if_neg (hqp.not.mpr hp)]
    exact hneg hp

/-! ### START -/

theorem start_sameHeld (m : Mode) (s u : State) : SameHeld (start m s) (start m u) := by
  cases m <;> constructor <;> simp [start]

theorem start_sameEffect (m : Mode) (s u : State) : SameEffect s u (start m s) (start m u) := by
  cases m
  case rleEnc | lzEnc => exact .of_emitted [magic _] rfl rfl (start_sameHeld _ s u)
  case rleDec | lzDec => exact .of_silent rfl rfl (start_sameHeld _ s u)

/-! ### The cases of FINISH -/

theorem finished_rleEnc (v : Variant) {s : State} (hp : s.phase = .body) (hm : s.mode = .rleEnc) :
    finished v s = { emitAll (if s.runOpen = true then [s.runValue, s.runLen] else []) s with
      runOpen := false, phase := .done } := by
  simp only [finished, hp, hm]

theorem finished_lzEnc (v : Variant) {s : State} (hp : s.phase = .body) (hm : s.mode = .lzEnc) :
    finished v s = { s with
      out := s.out ++ s.la.flatMap fun b => [0x00#8, b]
      la := []
      win := s.la.foldl windowAppend s.win
      phase := .done } := by
  simp only [finished, hp, hm]

theorem finished_decoder (v : Variant) {s : State} (hp : s.phase = .body) (hm : s.mode = .rleDec ∨ s.mode = .lzDec) :
    finished v s = if s.resLen ≠ 0 then raise .truncatedStreamError s else { s with phase := .done } := by
  rcases hm with hm | hm <;> simp only [finished, hp, hm]

/-! ### The updates, and the commands made of them -/

/-- `RES_LEN` is 0, 1 or 2 (10_state.md R30). -/
theorem residue_full_of_ne : ∀ {n : Fin 3}, n ≠ 0 → n ≠ 1 → n = 2 := by decide

section
variable {s u : State} (h : SameHeld s u)
include h

theorem SameHeld.raise (k : Err) : SameHeld (raise k s) (raise k u) := { h with phase := rfl, err := rfl }

theorem SameHeld.withPhase (p : Phase) : SameHeld { s with phase := p } { u with phase := p } :=
  { h with phase := rfl }

theorem SameHeld.openRun (b : Byte) : SameHeld (openRun b s) (openRun b u) :=
  { h with runOpen := rfl, runValue := fun _ => rfl, runLen := fun _ => rfl }

theorem SameHeld.closeRun : SameHeld { s with runOpen := false } { u with runOpen := false } :=
  { h with runOpen := rfl, runValue := nofun, runLen := nofun }

theorem SameHeld.clearResidue : SameHeld { s with resLen := 0 } { u with resLen := 0 } :=
  { h with resLen := rfl, res0 := fun h0 => absurd rfl h0, res1 := nofun }

theorem SameHeld.emitAll (bs cs : List Byte) : SameHeld (emitAll bs s) (emitAll cs u) := { h with }

theorem SameHeld.extend (b : Byte) : extend b u = extend b s := by
  cases ho : s.runOpen
  · simp [Machine.extend, h.runOpen, ho]
  · simp [Machine.extend, h.runOpen, h.runValue ho, h.runLen ho]

theorem rleEncPushed_sameEffect (b : Byte) : SameEffect s u (rleEncPushed b s) (rleEncPushed b u) := by
  refine .ite (by rw [h.runOpen]) (fun _ => .of_silent rfl rfl (h.openRun b)) fun hopen => ?_
  have ho : s.runOpen = true := Bool.eq_true_of_not_eq_false hopen
  refine .ite (by rw [h.extend]) (fun _ => .of_silent rfl rfl ?_) fun _ => ?_
  · exact { h with runLen := fun _ => congrArg (· + 1#8) (h.runLen ho) }
  · exact .of_emitted _ rfl (by simp [h.runValue ho, h.runLen ho]) ((h.emitAll _ _).openRun b)

theorem rleDecPushed_sameEffect (b : Byte) : SameEffect s u (rleDecPushed b s) (rleDecPushed b u) := by
  refine .ite (by rw [h.resLen]) (fun _ => .of_silent rfl rfl ?_) fun hr => ?_
  · exact { h with resLen := rfl, res0 := fun _ => rfl, res1 := nofun }
  · refine .ite .rfl (fun _ => .of_silent rfl rfl (h.raise _)) fun _ => ?_
    exact .of_emitted _ rfl (by simp [h.res0 hr]) (h.emitAll _ _).clearResidue

theorem lzEncPushed_sameEffect (v : Variant) (b : Byte) :
    SameEffect s u (lzEncPushed v b s) (lzEncPushed v b u) := by
  refine .ite (by rw [h.la]) (fun _ => .of_emitted _ rfl (by simp [h.la, h.win]) ?_) fun _ => .of_silent rfl rfl ?_
  · exact { h with la := by simp [h.la, h.win], win := by simp [h.la, h.win] }
  · exact { h with la := by simp [h.la] }

theorem lzDecPushed_sameEffect (b : Byte) : SameEffect s u (lzDecPushed b s) (lzDecPushed b u) := by
  refine .ite (by rw [h.resLen]) (fun _ => ?_) fun hr0 => .ite (by rw [h.resLen]) (fun hr1 => ?_) fun hr1 => ?_
  · refine .ite .rfl (fun _ => .of_silent rfl rfl ?_) fun _ => .of_silent rfl rfl (h.raise _)
    exact { h with resLen := rfl, res0 := fun _ => rfl, res1 := nofun }
  · refine .ite (by rw [h.res0 hr0]) (fun _ => .of_emitted [b] rfl rfl ?_) fun _ => .of_silent rfl rfl ?_
    · exact { h.clearResidue with win := congrArg (windowAppend · b) h.win }
    · exact { h with resLen := rfl, res0 := fun _ => h.res0 hr0, res1 := fun _ => rfl }
  · have hres1 := h.res1 (residue_full_of_ne hr0 hr1)
    refine .ite (by rw [hres1, h.win]) (fun _ => .of_silent rfl rfl (h.raise _)) fun _ => ?_
    refine .of_emitted _ rfl (by simp [hres1, h.win]) ?_
    exact { h.clearResidue with win := by simp [hres1, h.win], res1 := nofun }

theorem checkMagic_sameEffect (b : Byte) : SameEffect s u (checkMagic b s) (checkMagic b u) :=
  .ite (by rw [h.mode]) (fun _ => .of_silent rfl rfl (h.withPhase _)) fun _ => .of_silent rfl rfl (h.raise _)

theorem pushed_sameEffect (v : Variant) (b : Byte) : SameEffect s u (pushed v b s) (pushed v b u) := by
  unfold pushed
  rw [h.phase, h.mode]
  cases s.phase
  case idle | done | error => exact .of_silent rfl rfl h
  case header => exact checkMagic_sameEffect h b
  case body =>
    cases s.mode
    case rleEnc => exact rleEncPushed_sameEffect h b
    case rleDec => exact rleDecPushed_sameEffect h b
    case lzEnc => exact lzEncPushed_sameEffect h v b
    case lzDec => exact lzDecPushed_sameEffect h b

theorem chunkEnded_sameEffect (v : Variant) : SameEffect s u (chunkEnded v s) (chunkEnded v u) := by
  refine .ite (by rw [h.phase, h.mode]) (fun _ => ?_) fun _ => .of_silent rfl rfl h
  refine .of_emitted _ rfl (by simp [h.la, h.win]) ?_
  exact { h with la := rfl, win := by simp [h.la, h.win], eocSeen := rfl }

theorem finishEmpty_sameEffect (v : Variant) : SameEffect s u (finishEmpty v s) (finishEmpty v u) := by
  unfold finishEmpty
  cases v.emptyDecode
  case formatError | truncatedStreamError => exact .of_silent rfl rfl (h.raise _)
  case ok => exact .of_silent rfl rfl (h.withPhase _)

theorem finished_rleEnc_sameEffect (v : Variant) (hp : s.phase = .body) (hm : s.mode = .rleEnc) :
    SameEffect s u (finished v s) (finished v u) := by
  rw [finished_rleEnc v hp hm, finished_rleEnc v (h.phase.trans hp) (h.mode.trans hm)]
  refine .of_emitted _ rfl ?_ ((h.emitAll _ _).closeRun.withPhase _)
  cases ho : s.runOpen
  · simp [h.runOpen, ho]
  · simp [h.runOpen, h.runValue, h.runLen, ho]

theorem finished_lzEnc_sameEffect (v : Variant) (hp : s.phase = .body) (hm : s.mode = .lzEnc) :
    SameEffect s u (finished v s) (finished v u) := by
  rw [finished_lzEnc v hp hm, finished_lzEnc v (h.phase.trans hp) (h.mode.trans hm)]
  refine .of_emitted _ rfl (by simp [h.la]) ?_
  exact { h with phase := rfl, la := rfl, win := by simp [h.la, h.win] }

theorem finished_decoder_sameEffect (v : Variant) (hp : s.phase = .body) (hm : s.mode = .rleDec ∨ s.mode = .lzDec) :
    SameEffect s u (finished v s) (finished v u) := by
  rw [finished_decoder v hp hm, finished_decoder v (h.phase.trans hp) (by rwa [h.mode])]
  refine .ite (by rw [h.resLen]) (fun _ => ?_) fun _ => ?_
  · exact .of_silent rfl rfl (h.raise _)
  · exact .of_silent rfl rfl (h.withPhase _)

theorem finished_sameEffect (v : Variant) : SameEffect s u (finished v s) (finished v u) := by
  cases hp : s.phase
  case body =>
    cases hm : s.mode
    case rleEnc => exact finished_rleEnc_sameEffect h v hp hm
    case lzEnc => exact finished_lzEnc_sameEffect h v hp hm
    case rleDec => exact finished_decoder_sameEffect h v hp (.inl hm)
    case lzDec => exact finished_decoder_sameEffect h v hp (.inr hm)
  all_goals simp only [finished, hp, h.phase.trans hp]
  case header => exact finishEmpty_sameEffect h v
  all_goals exact .of_silent rfl rfl h

theorem abortInstance_sameEffect : SameEffect s u (abortInstance s) (abortInstance u) :=
  .of_silent rfl rfl ⟨rfl, h.mode, rfl, rfl, rfl, rfl, rfl, rfl, nofun, nofun, fun h0 => absurd rfl h0, nofun⟩

end

/-! ### Instructions and sequences of them -/

/-- `f` does not depend on a register that holds no value: what it answers from one state, it answers with the same
effect from every state that holds the same values. -/
def Noninterfering (f : State → Host.Outcome State Fault Refusal) : Prop :=
  ∀ ⦃s u t : State⦄, SameHeld s u → f s = .next t → ∃ w, f u = .next w ∧ SameEffect s u t w

theorem noninterfering_of_eq_next {f : State → Host.Outcome State Fault Refusal} {g : State → State}
    (hf : ∀ s, f s = .next (g s)) (hg : ∀ {s u}, SameHeld s u → SameEffect s u (g s) (g u)) :
    Noninterfering f := by
  intro s u t h ht
  obtain rfl : g s = t := Host.Outcome.next.inj ((hf s).symm.trans ht)
  exact ⟨g u, hf u, hg h⟩

theorem exec_push_noninterfering (b : Byte) : Noninterfering (exec (.push b)) := by
  intro s u t h ht
  rw [exec_push_eq] at ht ⊢
  rw [h.phase, h.mode, h.la]
  split at ht
  case isTrue => cases ht
  case isFalse hfull =>
    cases ht
    exact ⟨_, if_neg hfull, pushed_sameEffect h _ b⟩

/-- A unit is its bytes' PUSHes. -/
theorem toOutcome_deliver (bs : List Byte) (s : State) :
    toOutcome (deliver Config.hw.variant bs s) = execAll (pushes bs) s := by
  induction bs generalizing s with
  | nil => rfl
  | cons b bs ih =>
    rw [deliver, pushes, List.map_cons, execAll, exec, execPush]
    cases pushByte Config.hw.variant b s with
    | ok s => exact ih s
    | error f => rfl

theorem execAll_noninterfering {is : List Instr} (hi : ∀ i ∈ is, Noninterfering (exec i)) :
    Noninterfering (execAll is) := by
  induction is with
  | nil => exact noninterfering_of_eq_next (fun _ => rfl) fun h => .of_silent rfl rfl h
  | cons i is ih =>
    obtain ⟨hhead, htail⟩ := List.forall_mem_cons.mp hi
    intro s u t h ht
    rw [execAll] at ht ⊢
    cases hs : exec i s with
    | fault f => simp [hs] at ht
    | refused r => simp [hs] at ht
    | next s' =>
      rw [hs] at ht
      obtain ⟨u', hu, heff⟩ := hhead h hs
      obtain ⟨w, hw, heff'⟩ := ih htail heff.sameHeld ht
      exact ⟨w, by rw [hu, ← hw], heff.trans heff'⟩

theorem exec_unit_noninterfering {i : Instr} (hi : unitBytes i ≠ []) : Noninterfering (exec i) := by
  have hexec : exec i = execAll (pushes (unitBytes i)) :=
    funext fun s => (exec_unit_eq hi s).trans (toOutcome_deliver _ s)
  rw [hexec]
  refine execAll_noninterfering fun j hj => ?_
  obtain ⟨b, -, rfl⟩ := List.mem_map.mp hj
  exact exec_push_noninterfering b

theorem exec_start_noninterfering (m : Mode) : Noninterfering (exec (startInstr m)) :=
  noninterfering_of_eq_next (exec_startInstr m) fun _ => start_sameEffect m _ _

theorem exec_noninterfering (i : Instr) : Noninterfering (exec i) := by
  cases i
  case startRleEnc => exact exec_start_noninterfering .rleEnc
  case startRleDec => exact exec_start_noninterfering .rleDec
  case startLzEnc => exact exec_start_noninterfering .lzEnc
  case startLzDec => exact exec_start_noninterfering .lzDec
  case push b => exact exec_push_noninterfering b
  case eoc => exact noninterfering_of_eq_next exec_eoc_eq fun h => chunkEnded_sameEffect h _
  case finish => exact noninterfering_of_eq_next exec_finish_eq fun h => finished_sameEffect h _
  case abort => exact noninterfering_of_eq_next exec_abort abortInstance_sameEffect
  case reserved5 => exact noninterfering_of_eq_next exec_reserved5 fun h => .of_silent rfl rfl h
  case reserved6 => exact noninterfering_of_eq_next exec_reserved6 fun h => .of_silent rfl rfl h
  case reserved7 => exact noninterfering_of_eq_next exec_reserved7 fun h => .of_silent rfl rfl h
  all_goals exact exec_unit_noninterfering (List.cons_ne_nil _ _)

/-! ### The obligation -/

/-- What START empties (44_framing_commands.md R211). -/
theorem start_empty (m : Mode) (s : State) :
    (start m s).win = [] ∧ (start m s).la = [] ∧ (start m s).runOpen = false ∧ (start m s).resLen = 0 := by
  cases m <;> exact ⟨rfl, rfl, rfl, rfl⟩

theorem execAll_start (m : Mode) (cmds : List Instr) (s : State) :
    execAll (startInstr m :: cmds) s = execAll cmds (start m s) := by
  rw [execAll, exec_startInstr]

/-- Settles O60: START has the same effect in every two states, and so has every instruction after it. -/
theorem noStateLeaksIntoTheNextInstance : Obligations.NoStateLeaksIntoTheNextInstance := by
  refine ⟨fun m s => ⟨start m s, exec_startInstr m s, start_empty m s⟩, fun m cmds s t u ht => ?_⟩
  have hstart := start_sameEffect m s u
  rw [execAll_start] at ht ⊢
  obtain ⟨w, hw, hrest⟩ := execAll_noninterfering (fun i _ => exec_noninterfering i) hstart.sameHeld ht
  obtain ⟨⟨bs, hts, hwu⟩, hheld⟩ := hstart.trans hrest
  exact ⟨w, bs, hw, hts, hwu, hheld.sameValues⟩

end Sys2Proof.Machine
end

section
/-! Decoding and encoding (30_encoding.md sections 2 to 4): a wire unit is read back from the stream it is written
to, a command word from its fields. -/

namespace Sys2Proof

/-! ### Wire units -/

/-- The seven rows that a flag byte can be the operand of. -/
abbrev unknownFlagRows (f : Byte) : List Instr :=
  [.lzUnknownFlagB7 f, .lzUnknownFlagB6 f, .lzUnknownFlagB5 f, .lzUnknownFlagB4 f, .lzUnknownFlagB3 f,
    .lzUnknownFlagB2 f, .lzUnknownFlagB1 f]

/-- The decoder's choice of a row agrees with the rows' masks, and no row takes a known flag. -/
theorem unknownFlagRow_of_wf : ∀ f : Byte, ∀ i ∈ unknownFlagRows f, i.wf = true →
    unknownFlagRow f = i ∧ f ≠ 0x00#8 ∧ f ≠ 0x01#8 := by
  decide

theorem decodeUnit_unknownFlag {f : Byte} {i : Instr} (hi : i ∈ unknownFlagRows f) (hwf : i.wf = true)
    (rest : List Byte) : decodeUnit .lzToken (f :: rest) = .ok (i, rest) := by
  obtain ⟨hrow, hl, hm⟩ := unknownFlagRow_of_wf f i hi hwf
  simp [decodeUnit, decodeToken, hl, hm, hrow]

/-- Reading undoes writing, whatever follows. -/
theorem decodeUnit_unitBytes {i : Instr} {fmt : Format} (rest : List Byte) (hwf : i.wf = true)
    (henc : encode i = .wire fmt (unitBytes i)) : decodeUnit fmt (unitBytes i ++ rest) = .ok (i, rest) := by
  cases i
  case lzUnknownFlagB7 | lzUnknownFlagB6 | lzUnknownFlagB5 | lzUnknownFlagB4 | lzUnknownFlagB3 | lzUnknownFlagB2
      | lzUnknownFlagB1 =>
    cases henc
    exact decodeUnit_unknownFlag (by simp) hwf rest
  all_goals cases henc
  all_goals rfl

/-- A well-formed unit of the format `fmt`, and a stream that begins with its bytes. -/
structure ReadsUnit (fmt : Format) (bytes : List Byte) (i : Instr) (rest : List Byte) : Prop where
  wf : i.wf = true
  encode_eq : encode i = .wire fmt (unitBytes i)
  bytes_eq : bytes = unitBytes i ++ rest

theorem readsUnit_of_decodeToken {flag : Byte} {bytes rest : List Byte} {i : Instr}
    (h : decodeToken flag bytes = .ok (i, rest)) : ReadsUnit .lzToken (flag :: bytes) i rest := by
  unfold decodeToken at h
  split at h
  case isTrue hl =>
    split at h <;> cases h
    exact ⟨rfl, rfl, by rw [hl]; rfl⟩
  case isFalse hl =>
    split at h
    case isTrue hm =>
      split at h <;> cases h
      exact ⟨rfl, rfl, by rw [hm]; rfl⟩
    case isFalse hm =>
      cases h
      obtain ⟨hwf, hbytes, henc⟩ := unknownFlagRow_spec flag hl hm
      exact ⟨hwf, by rw [hbytes, henc], by rw [hbytes]; rfl⟩

/-- Whatever is read was written so. -/
theorem readsUnit_of_decodeUnit {fmt : Format} {bytes rest : List Byte} {i : Instr}
    (h : decodeUnit fmt bytes = .ok (i, rest)) : ReadsUnit fmt bytes i rest := by
  unfold decodeUnit at h
  split at h
  case h_2 | h_3 =>
    split at h <;> cases h
    rename_i hm
    exact ⟨rfl, rfl, by rw [hm]; rfl⟩
  case h_5 =>
    cases h
    exact ⟨rfl, rfl, rfl⟩
  case h_6 => exact readsUnit_of_decodeToken h
  all_goals cases h

/-- Settles O4: writing then reading, and reading then writing. -/
theorem unitsOnTheWireAreReadAsWritten : Obligations.UnitsOnTheWireAreReadAsWritten := by
  refine ⟨fun i fmt rest hwf henc => decodeUnit_unitBytes rest hwf henc, fun fmt bytes i rest h => ?_⟩
  obtain ⟨hwf, henc, hbytes⟩ := readsUnit_of_decodeUnit h
  exact ⟨hwf, henc, hbytes⟩

/-! ### Command words -/

theorem decodeCommand_start {w : CommandWord} (h : opField w = 0b000#3) :
    decodeCommand w = decodeStart (modeField w) := by
  rw [decodeCommand, if_pos h]

theorem decodeCommand_push (b : Byte) : decodeCommand (commandWord 0b001#3 b) = .push b := by
  simp [decodeCommand]

/-- The canonical command word of 30_encoding.md R105 decodes to its instruction. -/
theorem decodeCommand_encode {i : Instr} {w : CommandWord} (h : encode i = .command w) : decodeCommand w = i := by
  cases i <;> cases h
  case startRleEnc | startRleDec | startLzEnc | startLzDec => exact decodeCommand_start (opField_commandWord _ _)
  case push b => exact decodeCommand_push b
  all_goals simp [decodeCommand]

/-- An instruction is presented as a command word or as the bytes of a unit. -/
theorem encode_cases (i : Instr) :
    (∃ w, encode i = .command w) ∨ ∃ fmt, encode i = .wire fmt (unitBytes i) := by
  cases i
  case startRleEnc | startRleDec | startLzEnc | startLzDec | push | eoc | finish | abort | reserved5 | reserved6
      | reserved7 => exact .inl ⟨_, rfl⟩
  all_goals exact .inr ⟨_, rfl⟩

theorem decode_encode {i : Instr} (hwf : i.wf = true) : decode (encode i) = .ok i := by
  rcases encode_cases i with ⟨w, hw⟩ | ⟨fmt, hfmt⟩
  · rw [hw, decode, decodeCommand_encode hw]
  · have hunit := decodeUnit_unitBytes [] hwf hfmt
    rw [List.append_nil] at hunit
    rw [hfmt, decode, hunit]

/-- Settles O1: a command is read back from its fields, a unit from a stream that ends with it. -/
theorem decodeOfEncodeIsTheInstruction : Obligations.DecodeOfEncodeIsTheInstruction := fun _ => decode_encode

/-! ### The table's command rows -/

/-- What the masks of the command rows keep of a word: START's mode and the operation. -/
def rowBits (op : BitVec 3) (m : BitVec 2) : CommandWord := commandWord op (0#6 ++ m)

/-- Bit by bit, of the eleven. -/
theorem and_mask_eq_append (w : BitVec (3 + 8)) :
    w &&& 0x703#(3 + 8) = w.extractLsb' 8 3 ++ (0#6 ++ w.extractLsb' 0 2 : BitVec (6 + 2)) := by
  apply BitVec.eq_of_getElem_eq
  intro i hi
  simp only [BitVec.getElem_append, BitVec.getElem_and, BitVec.getElem_extractLsb']
  interval_cases i <;> simp

theorem and_mask_eq_rowBits (w : CommandWord) : w &&& 0x703#11 = rowBits (opField w) (modeField w) :=
  and_mask_eq_append w

/-- The row of an operation, with four rows for START, as a position in the table. -/
def rowIndex (op : BitVec 3) (m : BitVec 2) : Fin commandRows.length :=
  if op = 0b000#3 then ⟨m.toNat, m.isLt.trans (by decide)⟩
  else ⟨3 + op.toNat, Nat.add_lt_add_left op.isLt 3⟩

/-- No command row reads another bit. -/
theorem rowMask_le : ∀ j, 0x703#11 &&& (commandRows.get j).mask = (commandRows.get j).mask := by decide

theorem rowBits_matches_iff : ∀ op m j,
    rowBits op m &&& (commandRows.get j).mask = (commandRows.get j).pattern ↔ j = rowIndex op m := by
  decide

theorem matches_iff (w : CommandWord) (j : Fin commandRows.length) :
    w &&& (commandRows.get j).mask = (commandRows.get j).pattern ↔ j = rowIndex (opField w) (modeField w) := by
  rw [← rowBits_matches_iff, ← and_mask_eq_rowBits, BitVec.and_assoc, rowMask_le]

theorem op_cases : ∀ op : BitVec 3, op = 0b000#3 ∨ op = 0b001#3 ∨ op = 0b010#3 ∨ op = 0b011#3 ∨ op = 0b100#3 ∨
    op = 0b101#3 ∨ op = 0b110#3 ∨ op = 0b111#3 := by
  decide

theorem mode_cases : ∀ m : BitVec 2, m = 0b00#2 ∨ m = 0b01#2 ∨ m = 0b10#2 ∨ m = 0b11#2 := by
  decide

theorem decodeCommand_eq_row (w : CommandWord) :
    decodeCommand w = (commandRows.get (rowIndex (opField w) (modeField w))).instr w := by
  rcases op_cases (opField w) with hop | hop | hop | hop | hop | hop | hop | hop
  · rcases mode_cases (modeField w) with hm | hm | hm | hm <;>
      rw [decodeCommand_start hop, hop, hm] <;> rfl
  all_goals
    simp only [decodeCommand, hop]
    rfl

/-- Settles O2: the masks keep the operation and START's mode, which name one row. -/
theorem everyCommandWordMatchesOneTableRow : Obligations.EveryCommandWordMatchesOneTableRow := by
  intro w
  refine ⟨commandRows.get (rowIndex (opField w) (modeField w)), List.get_mem _ _, (matches_iff w _).mpr rfl,
    congrArg Except.ok (decodeCommand_eq_row w), fun other hother hmatch => ?_⟩
  obtain ⟨j, rfl⟩ := List.get_of_mem hother
  rw [(matches_iff w j).mp hmatch]

/-! ### Words written out -/

/-- Settles O5: eleven of the words are canonical encodings; the two with ignored bits set are decoded by their
fields. -/
theorem writtenWordsDecodeToTheirInstructions : Obligations.WrittenWordsDecodeToTheirInstructions :=
  ⟨decode_encode (i := .startLzEnc) rfl, congrArg Except.ok (decodeCommand_start (by decide)),
    decode_encode (i := .push 0x61#8) rfl, decode_encode (i := .eoc) rfl, decode_encode (i := .finish) rfl,
    decode_encode (i := .abort) rfl, congrArg Except.ok (Machine.decodeCommand_of_opField_reserved5 (by decide)),
    decode_encode (i := .rleMagic) rfl, decode_encode (i := .rlePair 0x41#8 0x2D#8) rfl,
    decode_encode (i := .lzMagic) rfl, decode_encode (i := .lzLiteral 0x61#8) rfl,
    decode_encode (i := .lzMatch 0x14#8 0x03#8) rfl, decode_encode (i := .lzUnknownFlagB1 0x02#8) rfl⟩

end Sys2Proof
end

section
/-! One step of the machine by the HOST's move (44_framing_commands.md R227; 70_reset_and_hazards.md R286): a command
word is executed, the bytes of a unit are PUSHed, `rst` resets. -/

namespace Sys2Proof.Machine

/-! ### Sequences of instructions -/

@[simp] theorem execAll_nil (s : State) : execAll [] s = .next s := rfl

theorem execAll_cons_of_next {i : Instr} {s t : State} (is : List Instr) (h : exec i s = .next t) :
    execAll (i :: is) s = execAll is t := by
  rw [execAll, h]

theorem execAll_cons_of_fault {i : Instr} {s : State} {f : Fault} (is : List Instr) (h : exec i s = .fault f) :
    execAll (i :: is) s = .fault f := by
  rw [execAll, h]

theorem execAll_append_of_next {is : List Instr} {s t : State} (js : List Instr) (h : execAll is s = .next t) :
    execAll (is ++ js) s = execAll js t := by
  induction is generalizing s with
  | nil => cases h; rfl
  | cons i is ih =>
    rw [execAll] at h
    cases hi : exec i s with
    | next s' => rw [hi] at h; rw [List.cons_append, execAll_cons_of_next _ hi, ih h]
    | fault f => simp [hi] at h
    | refused r => simp [hi] at h

/-- A sequence that completes has a next state after its first instruction. -/
theorem execAll_cons_eq_next {i : Instr} {is : List Instr} {s t : State} (h : execAll (i :: is) s = .next t) :
    ∃ s', exec i s = .next s' ∧ execAll is s' = .next t := by
  rw [execAll] at h
  cases hi : exec i s with
  | next s' => exact ⟨s', rfl, by simpa [hi] using h⟩
  | fault f => simp [hi] at h
  | refused r => simp [hi] at h

/-- Every instruction of a sequence keeps `P`, so the sequence keeps it. -/
theorem execAll_induction {P : State → Prop} {is : List Instr}
    (hstep : ∀ i ∈ is, ∀ s t, P s → exec i s = .next t → P t) {s t : State} (hs : P s)
    (h : execAll is s = .next t) : P t := by
  induction is generalizing s with
  | nil => cases h; exact hs
  | cons i is ih =>
    obtain ⟨hhead, htail⟩ := List.forall_mem_cons.mp hstep
    obtain ⟨s', hi, hrest⟩ := execAll_cons_eq_next h
    exact ih htail (hhead s s' hs hi) hrest

/-- Every instruction of a sequence completes from a state with `P` and keeps it, so the sequence does. -/
theorem execAll_completes {P : State → Prop} {is : List Instr}
    (hstep : ∀ i ∈ is, ∀ s, P s → ∃ t, exec i s = .next t ∧ P t) {s : State} (hs : P s) :
    ∃ t, execAll is s = .next t ∧ P t := by
  induction is generalizing s with
  | nil => exact ⟨s, rfl, hs⟩
  | cons i is ih =>
    obtain ⟨hhead, htail⟩ := List.forall_mem_cons.mp hstep
    obtain ⟨s', hi, hs'⟩ := hhead s hs
    rw [execAll_cons_of_next is hi]
    exact ih htail hs'

theorem forall_mem_pushes {P : Instr → Prop} (h : ∀ b, P (.push b)) (bs : List Byte) : ∀ i ∈ pushes bs, P i := by
  intro i hi
  obtain ⟨b, -, rfl⟩ := List.mem_map.mp hi
  exact h b

/-! ### The wire units -/

theorem exec_unit {i : Instr} (hi : unitBytes i ≠ []) (s : State) :
    exec i s = execAll (pushes (unitBytes i)) s :=
  (exec_unit_eq hi s).trans (toOutcome_deliver _ s)

/-- What a reader of the state after an instruction has to consider: START, ABORT, the three commands of a run, an
operation that does nothing, or a unit. -/
theorem instr_cases {motive : Instr → Prop} (start : ∀ m, motive (startInstr m)) (abort : motive .abort)
    (push : ∀ b, motive (.push b)) (eoc : motive .eoc) (finish : motive .finish)
    (reserved : ∀ i, i = .reserved5 ∨ i = .reserved6 ∨ i = .reserved7 → motive i)
    (unit : ∀ i, unitBytes i ≠ [] → motive i) (i : Instr) : motive i := by
  cases i
  case startRleEnc => exact start .rleEnc
  case startRleDec => exact start .rleDec
  case startLzEnc => exact start .lzEnc
  case startLzDec => exact start .lzDec
  case push b => exact push b
  case eoc => exact eoc
  case finish => exact finish
  case abort => exact abort
  case reserved5 | reserved6 | reserved7 => exact reserved _ (by simp)
  all_goals exact unit _ (List.cons_ne_nil _ _)

theorem exec_reserved {i : Instr} (hi : i = .reserved5 ∨ i = .reserved6 ∨ i = .reserved7) (s : State) :
    exec i s = .next s := by
  rcases hi with rfl | rfl | rfl
  · exact exec_reserved5 s
  · exact exec_reserved6 s
  · exact exec_reserved7 s

/-! ### PUSH and FINISH, by phase and mode -/

/-- What PUSH can do: it is ignored, it is checked in HEADER, or it is the mode's. -/
theorem pushed_cases {motive : State → Prop} (v : Variant) (b : Byte) (s : State)
    (ignored : s.phase = .idle ∨ s.phase = .done ∨ s.phase = .error → motive s)
    (header : s.phase = .header → motive (checkMagic b s))
    (rleEnc : s.phase = .body → s.mode = .rleEnc → motive (rleEncPushed b s))
    (rleDec : s.phase = .body → s.mode = .rleDec → motive (rleDecPushed b s))
    (lzEnc : s.phase = .body → s.mode = .lzEnc → motive (lzEncPushed v b s))
    (lzDec : s.phase = .body → s.mode = .lzDec → motive (lzDecPushed b s)) : motive (pushed v b s) := by
  cases hp : s.phase
  case idle | done | error => simpa only [pushed, hp] using ignored (by simp [hp])
  case header => simpa only [pushed, hp] using header hp
  case body =>
    cases hm : s.mode
    case rleEnc => simpa only [pushed, hp, hm] using rleEnc hp hm
    case rleDec => simpa only [pushed, hp, hm] using rleDec hp hm
    case lzEnc => simpa only [pushed, hp, hm] using lzEnc hp hm
    case lzDec => simpa only [pushed, hp, hm] using lzDec hp hm

theorem pushed_ignored (v : Variant) (b : Byte) {s : State}
    (hp : s.phase = .idle ∨ s.phase = .done ∨ s.phase = .error) : pushed v b s = s := by
  rcases hp with hp | hp | hp <;> simp only [pushed, hp]

theorem finished_header (v : Variant) {s : State} (hp : s.phase = .header) : finished v s = finishEmpty v s := by
  simp only [finished, hp]

theorem finished_ignored (v : Variant) {s : State} (hp : s.phase = .idle ∨ s.phase = .done ∨ s.phase = .error) :
    finished v s = s := by
  rcases hp with hp | hp | hp <;> simp only [finished, hp]

/-- What FINISH can do: it is ignored, it follows `EMPTY_DECODE` in HEADER, it flushes an encoder, or it checks a
decoder's residue. -/
theorem finished_cases {motive : State → Prop} (v : Variant) (s : State)
    (ignored : s.phase = .idle ∨ s.phase = .done ∨ s.phase = .error → motive s)
    (header : s.phase = .header → motive (finishEmpty v s))
    (rleEnc : s.phase = .body → s.mode = .rleEnc →
      motive { emitAll (if s.runOpen = true then [s.runValue, s.runLen] else []) s with
        runOpen := false, phase := .done })
    (lzEnc : s.phase = .body → s.mode = .lzEnc →
      motive { s with
        out := s.out ++ s.la.flatMap fun b => [0x00#8, b]
        la := []
        win := s.la.foldl windowAppend s.win
        phase := .done })
    (decoder : s.phase = .body → s.mode = .rleDec ∨ s.mode = .lzDec →
      motive (if s.resLen ≠ 0 then raise .truncatedStreamError s else { s with phase := .done })) :
    motive (finished v s) := by
  cases hp : s.phase
  case idle | done | error => rw [finished_ignored v (by simp [hp])]; exact ignored (by simp [hp])
  case header => rw [finished_header v hp]; exact header hp
  case body =>
    cases hm : s.mode
    case rleEnc => rw [finished_rleEnc v hp hm]; exact rleEnc hp hm
    case lzEnc => rw [finished_lzEnc v hp hm]; exact lzEnc hp hm
    case rleDec => rw [finished_decoder v hp (.inl hm)]; exact decoder hp (.inl hm)
    case lzDec => rw [finished_decoder v hp (.inr hm)]; exact decoder hp (.inr hm)

/-! ### The step -/

theorem step_of_decode {s : State} {x : Input} {rest : List Input} {i : Instr} (hs : s.input = x :: rest)
    (hx : decode x = .ok i) : step s = exec i { s with input := rest } := by
  simp only [step, takeNext, hs, take, hx]

theorem step_command {s : State} {w : CommandWord} {rest : List Input} (hs : s.input = .command w :: rest) :
    step s = exec (decodeCommand w) { s with input := rest } :=
  step_of_decode hs rfl

theorem step_rst {s : State} {rest : List Input} (hs : s.input = .rst :: rest) :
    step s = .next (applyRst { s with input := rest }) := by
  simp only [step, takeNext, hs, take, decode, takeOther, toOutcome_ok]

/-- A move that decodes to a unit is that unit's bytes. -/
theorem unit_of_decode_wire {fmt : Format} {bytes : List Byte} {i : Instr} (h : decode (.wire fmt bytes) = .ok i) :
    unitBytes i = bytes ∧ encode i = .wire fmt (unitBytes i) := by
  rw [decode] at h
  split at h <;> cases h
  rename_i hread
  obtain ⟨-, henc, hbytes⟩ := readsUnit_of_decodeUnit hread
  exact ⟨by rw [hbytes, List.append_nil], henc⟩

/-- Bytes are PUSHed in order, whether they are a unit or not. -/
theorem step_wire {s : State} {fmt : Format} {bytes : List Byte} {rest : List Input}
    (hs : s.input = .wire fmt bytes :: rest) : step s = execAll (pushes bytes) { s with input := rest } := by
  cases hd : decode (.wire fmt bytes) with
  | error e =>
    simp only [step, takeNext, hs, take, hd, takeOther]
    exact toOutcome_deliver bytes _
  | ok i =>
    obtain ⟨hbytes, henc⟩ := unit_of_decode_wire hd
    have hi : unitBytes i ≠ [] := by
      intro hnil
      rw [← hbytes, hnil] at hd
      cases fmt <;> cases hd
    rw [step_of_decode hs hd, exec_unit hi, hbytes]

/-- Settles O6: the next move, and a word placed as the next move. -/
theorem stepRunsTheDecodedInstruction : Obligations.StepRunsTheDecodedInstruction := by
  refine ⟨fun s x rest i hs hx => step_of_decode hs hx, fun s nbits w i h => ?_⟩
  unfold decodeTableWord at h
  cases hx : tableInput nbits w with
  | none => simp [hx] at h
  | some x =>
    cases hd : decode x with
    | error e => simp [hx, hd] at h
    | ok j =>
      have hj : j = i := by simpa [hx, hd] using h
      have hs : s.withFetchWord nbits w = { s with input := x :: s.input } := by
        simp only [State.withFetchWord, present, hx]
      rw [hs, step_of_decode rfl hd, hj]

/-- Settles O8: what `rst` and ABORT empty, register by register. -/
theorem resetLineIsAbortPlusModeZero : Obligations.ResetLineIsAbortPlusModeZero := by
  intro s rest hs
  refine ⟨applyRst { s with input := rest }, abortInstance s, step_rst hs, exec_abort s, ?_, ?_⟩
  · simp [State.ext_iff, abortInstance_eq]
  · simp

/-! ### A unit, byte by byte -/

/-- `s` with other moves to come. -/
def withMoves (moves : List Input) (s : State) : State := { s with input := moves }

/-- PUSH neither reads nor changes the moves to come. -/
theorem pushed_withMoves (v : Variant) (b : Byte) (moves : List Input) (s : State) :
    pushed v b (withMoves moves s) = withMoves moves (pushed v b s) := by
  unfold pushed
  rw [show (withMoves moves s).phase = s.phase from rfl, show (withMoves moves s).mode = s.mode from rfl]
  cases s.phase
  case idle | done | error => rfl
  case header => simp only [checkMagic, apply_ite (withMoves moves)]; rfl
  case body =>
    cases s.mode
    case rleEnc => simp only [rleEncPushed, apply_ite (withMoves moves)]; rfl
    case rleDec => simp only [rleDecPushed, apply_ite (withMoves moves)]; rfl
    case lzEnc => simp only [lzEncPushed, apply_ite (withMoves moves)]; rfl
    case lzDec => simp only [lzDecPushed, apply_ite (withMoves moves)]; rfl

theorem exec_push_withMoves (b : Byte) (moves : List Input) (s : State) :
    exec (.push b) (withMoves moves s) =
      if s.phase = .body ∧ s.mode = .lzEnc ∧ 255 ≤ s.la.length then .fault .laPushWhenFull
      else .next (withMoves moves (pushed Config.hw.variant b s)) := by
  rw [exec_push_eq, pushed_withMoves]
  rfl

/-- The PUSH command words of some bytes. -/
abbrev pushMoves (bs : List Byte) : List Input := bs.map fun b => .command (commandWord 0b001#3 b)

theorem run_succ_of_next {s t : State} (n : Nat) (h : step s = .next t) :
    Host.Core.run Sys2Proof.core (n + 1) s = Host.Core.run Sys2Proof.core n t := by
  have hcore : Sys2Proof.core.step s = .next t := h
  simp only [Host.Core.run, hcore]

theorem run_succ_of_fault {s : State} {f : Fault} (n : Nat) (h : step s = .fault f) :
    Host.Core.run Sys2Proof.core (n + 1) s = .fault f := by
  have hcore : Sys2Proof.core.step s = .fault f := h
  simp only [Host.Core.run, hcore]

theorem run_pushMoves (bs : List Byte) (s : State) (rest : List Input) :
    Host.Core.run Sys2Proof.core bs.length (withMoves (pushMoves bs ++ rest) s) =
      execAll (pushes bs) (withMoves rest s) := by
  induction bs generalizing s with
  | nil => rfl
  | cons b bs ih =>
    have hstep : step (withMoves (pushMoves (b :: bs) ++ rest) s) =
        exec (.push b) (withMoves (pushMoves bs ++ rest) s) := by
      rw [← decodeCommand_push b]
      exact step_command rfl
    have hexec := exec_push_withMoves b rest s
    rw [exec_push_withMoves] at hstep
    by_cases hfull : s.phase = .body ∧ s.mode = .lzEnc ∧ 255 ≤ s.la.length
    · rw [if_pos hfull] at hstep hexec
      exact (run_succ_of_fault _ hstep).trans (execAll_cons_of_fault _ hexec).symm
    · rw [if_neg hfull] at hstep hexec
      exact (run_succ_of_next _ hstep).trans ((ih _).trans (execAll_cons_of_next _ hexec).symm)

/-- Settles O9: a unit is its PUSHes in one step, and they are one step each. -/
theorem wireUnitRunsAsItsPushes : Obligations.WireUnitRunsAsItsPushes := by
  refine ⟨fun s fmt bytes rest hs => ?_, fun i s hi => exec_unit hi s⟩
  rw [step_wire hs]
  exact (run_pushMoves bytes s rest).symm

end Sys2Proof.Machine
end

section
/-! The legal states (10_state.md section 7). What `Inv` says in each phase, and for BODY in each mode, is stated
once; every command then keeps it. -/

namespace Sys2Proof.Machine

/-! ### `Inv` by phase and mode -/

section
variable {s : State}

theorem inv_rleEnc_iff (hp : s.phase = .body) (hm : s.mode = .rleEnc) :
    Inv s ↔ s.err = .noError ∧ s.eocSeen = false ∧ s.win = [] ∧ s.la = [] ∧ s.resLen = 0 ∧
      (s.runOpen = true → s.runLen ≠ 0#8) := by
  simp only [Inv, ErrIffErrorPhase, PhaseShape, hp]
  grind

theorem inv_rleDec_iff (hp : s.phase = .body) (hm : s.mode = .rleDec) :
    Inv s ↔ s.err = .noError ∧ s.eocSeen = false ∧ s.win = [] ∧ s.la = [] ∧ s.runOpen = false ∧ s.resLen ≠ 2 := by
  simp only [Inv, ErrIffErrorPhase, PhaseShape, hp]
  grind

theorem inv_lzEnc_iff (hp : s.phase = .body) (hm : s.mode = .lzEnc) :
    Inv s ↔ s.err = .noError ∧ s.eocSeen = false ∧ s.win.length ≤ 20 ∧ s.la.length < 255 ∧ s.runOpen = false ∧
      s.resLen = 0 := by
  simp only [Inv, ErrIffErrorPhase, PhaseShape, hp]
  grind

theorem inv_lzDec_iff (hp : s.phase = .body) (hm : s.mode = .lzDec) :
    Inv s ↔ s.err = .noError ∧ s.eocSeen = false ∧ s.win.length ≤ 20 ∧ s.la = [] ∧ s.runOpen = false ∧
      (s.resLen = 1 → s.res0 = 0x00#8 ∨ s.res0 = 0x01#8) ∧ (s.resLen = 2 → s.res0 = 0x01#8) := by
  simp only [Inv, ErrIffErrorPhase, PhaseShape, hp]
  grind

theorem inv_header_iff (hp : s.phase = .header) :
    Inv s ↔ (s.mode = .rleDec ∨ s.mode = .lzDec) ∧ s.err = .noError ∧ s.eocSeen = false ∧ s.win = [] ∧ s.la = [] ∧
      s.runOpen = false ∧ s.resLen = 0 := by
  simp only [Inv, ErrIffErrorPhase, PhaseShape, hp]
  grind

theorem inv_idle_iff (hp : s.phase = .idle) :
    Inv s ↔ s.err = .noError ∧ s.eocSeen = false ∧ s.win = [] ∧ s.la = [] ∧ s.runOpen = false ∧ s.resLen = 0 := by
  simp only [Inv, ErrIffErrorPhase, PhaseShape, hp]
  grind

theorem inv_done_iff (hp : s.phase = .done) :
    Inv s ↔ s.err = .noError ∧ s.eocSeen = false ∧ s.win.length ≤ 20 ∧ s.la = [] ∧ s.runOpen = false ∧
      s.resLen = 0 ∧ (s.mode = .rleEnc ∨ s.mode = .rleDec → s.win = []) := by
  simp only [Inv, ErrIffErrorPhase, PhaseShape, hp]
  grind

end

/-! ### START, ABORT, `rst` and errors -/

theorem start_inv (m : Mode) (s : State) : Inv (start m s) := by
  cases m
  case rleEnc => exact Iff.mpr (inv_rleEnc_iff rfl rfl) (by simp [start])
  case lzEnc => exact Iff.mpr (inv_lzEnc_iff rfl rfl) (by simp [start])
  case rleDec => exact Iff.mpr (inv_header_iff rfl) (by simp [start])
  case lzDec => exact Iff.mpr (inv_header_iff rfl) (by simp [start])

theorem abortInstance_inv (s : State) : Inv (abortInstance s) := Iff.mpr (inv_idle_iff rfl) (by simp [abortInstance])

theorem applyRst_inv (s : State) : Inv (applyRst s) := Iff.mpr (inv_idle_iff rfl) (by simp)

/-- A decoder that is not in ERROR can fail: ERROR freezes what was legal (60_exceptions.md R248). -/
theorem raise_inv {k : Err} {s : State} (hs : Inv s) (hm : s.mode = .rleDec ∨ s.mode = .lzDec)
    (hk : k ≠ .noError) : Inv (raise k s) := by
  obtain ⟨hwin, hla, heoc, -, hrun, hres, hown, -⟩ := hs
  exact ⟨hwin, hla, heoc, by simpa [ErrIffErrorPhase] using hk, hrun, hres, hown, by simpa [PhaseShape] using hm⟩

/-! ### PUSH -/

theorem rleEncPushed_inv (b : Byte) {s : State} (hs : Inv s) (hp : s.phase = .body) (hm : s.mode = .rleEnc) :
    Inv (rleEncPushed b s) := by
  have h := (inv_rleEnc_iff hp hm).mp hs
  cases ho : s.runOpen with
  | false =>
    rw [rleEncPushed_of_closed b ho]
    exact Iff.mpr (inv_rleEnc_iff hp hm) (by simp [h])
  | true =>
    cases he : extend b s with
    | true =>
      obtain ⟨-, -, hlen⟩ := extend_eq_true.mp he
      have hne : s.runLen + 1#8 ≠ 0#8 := by
        rw [ne_eq, byte_eq_zero_iff, byte_toNat_add_one hlen]
        exact Nat.succ_ne_zero _
      rw [rleEncPushed_of_extend he]
      exact Iff.mpr (inv_rleEnc_iff hp hm) (by simp [h, hne])
    | false =>
      rw [rleEncPushed_of_flush ho he]
      exact Iff.mpr (inv_rleEnc_iff hp hm) (by simp [h])

theorem rleDecPushed_inv (b : Byte) {s : State} (hs : Inv s) (hp : s.phase = .body) (hm : s.mode = .rleDec) :
    Inv (rleDecPushed b s) := by
  have h := (inv_rleDec_iff hp hm).mp hs
  by_cases hr : s.resLen = 0
  · rw [rleDecPushed_of_value b hr]
    exact Iff.mpr (inv_rleDec_iff hp hm) (by simp [h])
  · by_cases hb : b = 0#8
    · rw [hb, rleDecPushed_of_zero_count hr]
      exact raise_inv hs (.inl hm) (by decide)
    · rw [rleDecPushed_of_count hr hb]
      exact Iff.mpr (inv_rleDec_iff hp hm) (by simp [h])

/-- The look-ahead and the window stay within their bounds: a token moves at least one byte. -/
theorem lzEncPushed_inv (v : Variant) (b : Byte) {s : State} (hs : Inv s) (hp : s.phase = .body)
    (hm : s.mode = .lzEnc) : Inv (lzEncPushed v b s) := by
  obtain ⟨herr, heoc, hwin, hla, hrun, hres⟩ := (inv_lzEnc_iff hp hm).mp hs
  unfold lzEncPushed
  split
  case isTrue hfull =>
    have hn := (tokenOut_bounds v s.win (la := s.la ++ [b]) (by simp)).1
    refine Iff.mpr (inv_lzEnc_iff hp hm) ⟨herr, heoc, foldl_windowAppend_length_le hwin _, ?_, hrun, hres⟩
    simp only [List.length_drop, List.length_append, List.length_singleton]
    omega
  case isFalse hroom =>
    refine Iff.mpr (inv_lzEnc_iff hp hm) ⟨herr, heoc, hwin, ?_, hrun, hres⟩
    simp only [List.length_append, List.length_singleton]
    omega

theorem lzDecPushed_inv (b : Byte) {s : State} (hs : Inv s) (hp : s.phase = .body) (hm : s.mode = .lzDec) :
    Inv (lzDecPushed b s) := by
  obtain ⟨herr, heoc, hwin, hla, hrun, hone, htwo⟩ := (inv_lzDec_iff hp hm).mp hs
  by_cases h0 : s.resLen = 0
  · by_cases hb : b = 0x00#8 ∨ b = 0x01#8
    · rw [lzDecPushed_of_known_flag h0 hb]
      exact Iff.mpr (inv_lzDec_iff hp hm) ⟨herr, heoc, hwin, hla, hrun, fun _ => hb, nofun⟩
    · rw [lzDecPushed_of_unknown_flag h0 hb]
      exact raise_inv hs (.inr hm) (by decide)
  · by_cases h1 : s.resLen = 1
    · by_cases hf : s.res0 = 0x00#8
      · rw [lzDecPushed_of_literal b h1 hf]
        exact Iff.mpr (inv_lzDec_iff hp hm) ⟨herr, heoc, windowAppend_length_le hwin b, hla, hrun, nofun, nofun⟩
      · rw [lzDecPushed_of_offset b h1 hf]
        exact Iff.mpr (inv_lzDec_iff hp hm) ⟨herr, heoc, hwin, hla, hrun, nofun, fun _ => (hone h1).resolve_left hf⟩
    · have h2 := residue_full_of_ne h0 h1
      by_cases hbad : s.res1 = 0#8 ∨ b = 0#8 ∨ s.win.length < s.res1.toNat
      · rw [lzDecPushed_of_illegal_match h2 hbad]
        exact raise_inv hs (.inr hm) (by decide)
      · rw [lzDecPushed_of_legal_match h2 hbad]
        exact Iff.mpr (inv_lzDec_iff hp hm)
          ⟨herr, heoc, foldl_windowAppend_length_le hwin _, hla, hrun, nofun, nofun⟩

theorem checkMagic_inv (b : Byte) {s : State} (hs : Inv s) (hp : s.phase = .header) : Inv (checkMagic b s) := by
  have h := (inv_header_iff hp).mp hs
  unfold checkMagic
  split
  · rcases h.1 with hm | hm
    · exact Iff.mpr (inv_rleDec_iff rfl hm) (by simp [h])
    · exact Iff.mpr (inv_lzDec_iff rfl hm) (by simp [h])
  · exact raise_inv hs h.1 (by decide)

theorem pushed_inv (v : Variant) (b : Byte) {s : State} (hs : Inv s) : Inv (pushed v b s) :=
  pushed_cases v b s (fun _ => hs) (checkMagic_inv b hs) (rleEncPushed_inv b hs) (rleDecPushed_inv b hs)
    (lzEncPushed_inv v b hs) (lzDecPushed_inv b hs)

/-! ### EOC and FINISH -/

theorem chunkEnded_inv (v : Variant) {s : State} (hs : Inv s) : Inv (chunkEnded v s) := by
  by_cases h : s.phase = .body ∧ s.mode = .lzEnc
  · obtain ⟨hp, hm⟩ := h
    obtain ⟨herr, -, hwin, -, hrun, hres⟩ := (inv_lzEnc_iff hp hm).mp hs
    rw [chunkEnded_of_lzEnc v hp hm]
    exact Iff.mpr (inv_lzEnc_iff hp hm) ⟨herr, rfl, foldl_windowAppend_length_le hwin _, by simp, hrun, hres⟩
  · rw [chunkEnded_eq_self v h]
    exact hs

theorem finishEmpty_inv (v : Variant) {s : State} (hs : Inv s) (hp : s.phase = .header) : Inv (finishEmpty v s) := by
  have h := (inv_header_iff hp).mp hs
  unfold finishEmpty
  split
  · exact raise_inv hs h.1 (by decide)
  · exact raise_inv hs h.1 (by decide)
  · exact Iff.mpr (inv_done_iff rfl) (by simp [h])

theorem rleEnc_finished_inv {s : State} (hs : Inv s) (hp : s.phase = .body) (hm : s.mode = .rleEnc)
    (bs : List Byte) : Inv { emitAll bs s with runOpen := false, phase := .done } := by
  have h := (inv_rleEnc_iff hp hm).mp hs
  exact Iff.mpr (inv_done_iff rfl) (by simp [h])

theorem lzEnc_finished_inv {s : State} (hs : Inv s) (hp : s.phase = .body) (hm : s.mode = .lzEnc) (bs : List Byte) :
    Inv { s with out := bs, la := [], win := s.la.foldl windowAppend s.win, phase := .done } := by
  obtain ⟨herr, heoc, hwin, -, hrun, hres⟩ := (inv_lzEnc_iff hp hm).mp hs
  exact Iff.mpr (inv_done_iff rfl) ⟨herr, heoc, foldl_windowAppend_length_le hwin _, rfl, hrun, hres, by simp [hm]⟩

/-- A decoder is done when its residue is empty. -/
theorem decoder_finished_inv {s : State} (hs : Inv s) (hp : s.phase = .body) (hm : s.mode = .rleDec ∨ s.mode = .lzDec) :
    Inv (if s.resLen ≠ 0 then raise .truncatedStreamError s else { s with phase := .done }) := by
  by_cases hr : s.resLen = 0
  · rw [if_neg (not_not_intro hr)]
    rcases hm with hm | hm
    · have h := (inv_rleDec_iff hp hm).mp hs
      exact Iff.mpr (inv_done_iff rfl) (by simp [h, hr])
    · have h := (inv_lzDec_iff hp hm).mp hs
      exact Iff.mpr (inv_done_iff rfl) (by simp [h, hr, hm])
  · rw [if_pos hr]
    exact raise_inv hs hm (by decide)

theorem finished_inv (v : Variant) {s : State} (hs : Inv s) : Inv (finished v s) :=
  finished_cases v s (fun _ => hs) (finishEmpty_inv v hs) (fun hp hm => rleEnc_finished_inv hs hp hm _)
    (fun hp hm => lzEnc_finished_inv hs hp hm _) (decoder_finished_inv hs)

/-! ### Instructions, moves and the step -/

/-- In a legal state PUSH never stops. -/
theorem exec_push_of_inv (b : Byte) {s : State} (hs : Inv s) :
    exec (.push b) s = .next (pushed Config.hw.variant b s) := by
  obtain ⟨-, hla, -⟩ := hs
  exact (exec_push_eq b s).trans (if_neg fun h => hla.not_ge h.2.2)

theorem execAll_pushes_of_inv (bs : List Byte) {s : State} (hs : Inv s) :
    ∃ t, execAll (pushes bs) s = .next t ∧ Inv t :=
  execAll_completes (forall_mem_pushes (fun b _ hs => ⟨_, exec_push_of_inv b hs, pushed_inv _ b hs⟩) bs) hs

/-- Every instruction completes in a legal state and leaves a legal one (44_framing_commands.md R210). -/
theorem exec_of_inv (i : Instr) {s : State} (hs : Inv s) : ∃ t, exec i s = .next t ∧ Inv t := by
  induction i using instr_cases with
  | start m => exact ⟨_, exec_startInstr m s, start_inv m s⟩
  | abort => exact ⟨_, exec_abort s, abortInstance_inv s⟩
  | push b => exact ⟨_, exec_push_of_inv b hs, pushed_inv _ b hs⟩
  | eoc => exact ⟨_, exec_eoc_eq s, chunkEnded_inv _ hs⟩
  | finish => exact ⟨_, exec_finish_eq s, finished_inv _ hs⟩
  | reserved i hi => exact ⟨s, exec_reserved hi s, hs⟩
  | unit i hi =>
    rw [exec_unit hi]
    exact execAll_pushes_of_inv _ hs

theorem inv_of_exec {i : Instr} {s t : State} (hs : Inv s) (h : exec i s = .next t) : Inv t := by
  obtain ⟨t', ht', hinv⟩ := exec_of_inv i hs
  cases h.symm.trans ht'
  exact hinv

/-- Settles O47: by the HOST's move, if it has one. -/
theorem stepCompletesAndKeepsTheInvariant : Obligations.StepCompletesAndKeepsTheInvariant := by
  intro s hs
  cases hin : s.input with
  | nil => exact ⟨s, step_of_input_nil hin, hs⟩
  | cons x rest =>
    have hrest : Inv { s with input := rest } := hs
    cases x with
    | command w => rw [step_command hin]; exact exec_of_inv _ hrest
    | wire fmt bytes => rw [step_wire hin]; exact execAll_pushes_of_inv bytes hrest
    | rst => exact ⟨_, step_rst hin, applyRst_inv _⟩

/-- Settles O48: both reset states, register by register. -/
theorem resetIsIdleAndMeetsTheInvariant : Obligations.ResetIsIdleAndMeetsTheInvariant := by
  have hinv : Inv State.reset := applyRst_inv State.reset
  have hport : PortInv PortState.reset := ⟨hinv, fun _ => rfl, fun _ => rfl⟩
  exact ⟨hinv, rfl, rfl, rfl, rfl, rfl, rfl, rfl, rfl, State.reset_status, hport, rfl, rfl, rfl, by decide, by decide⟩

end Sys2Proof.Machine
end

section
/-! What every command leaves as it was: the moves to come, the mode, and the state of the other modes (10_state.md
sections 2 and 7). What it emits is added at the end of the output (20_memory.md section 4). -/

namespace Sys2Proof.Machine

/-! ### Relations that every command keeps -/

/-- A relation that PUSH, EOC and FINISH keep, and that composes, is kept by every instruction but START and
ABORT. -/
theorem exec_rel {R : State → State → Prop} (refl : ∀ s, R s s) (trans : ∀ {s t u}, R s t → R t u → R s u)
    (push : ∀ b s, R s (pushed Config.hw.variant b s)) (eoc : ∀ s, R s (chunkEnded Config.hw.variant s))
    (finish : ∀ s, R s (finished Config.hw.variant s)) {i : Instr} {s t : State}
    (hstart : ∀ m, i ≠ startInstr m) (habort : i ≠ .abort) (h : exec i s = .next t) : R s t := by
  have hpush : ∀ {b s t}, exec (.push b) s = .next t → R s t := by
    intro b s t hb
    rw [exec_push_eq] at hb
    split at hb <;> cases hb
    exact push b s
  induction i using instr_cases with
  | start m => exact absurd rfl (hstart m)
  | abort => exact absurd rfl habort
  | push b => exact hpush h
  | eoc => cases (exec_eoc_eq s).symm.trans h; exact eoc s
  | finish => cases (exec_finish_eq s).symm.trans h; exact finish s
  | reserved i hi => cases (exec_reserved hi s).symm.trans h; exact refl s
  | unit i hi =>
    rw [exec_unit hi] at h
    exact execAll_induction (P := R s) (forall_mem_pushes (fun _ _ _ hsu hut => trans hsu (hpush hut)) _)
      (refl s) h

theorem ne_startInstr {i : Instr} (h1 : i ≠ .startRleEnc) (h2 : i ≠ .startRleDec) (h3 : i ≠ .startLzEnc)
    (h4 : i ≠ .startLzDec) (m : Mode) : i ≠ startInstr m := by
  cases m <;> assumption

/-! ### The output -/

/-- `t` has emitted all that `s` has. -/
def Emits (s t : State) : Prop := ∃ bs, t.out = s.out ++ bs

theorem Emits.of_eq {s t : State} (h : t.out = s.out) : Emits s t := ⟨[], by rw [h, List.append_nil]⟩

theorem Emits.refl (s : State) : Emits s s := .of_eq rfl

theorem Emits.trans {s t u : State} (hst : Emits s t) (htu : Emits t u) : Emits s u := by
  obtain ⟨bs, hbs⟩ := hst
  obtain ⟨cs, hcs⟩ := htu
  exact ⟨bs ++ cs, by rw [hcs, hbs, List.append_assoc]⟩

theorem Emits.ite {p : Prop} [Decidable p] {s t u : State} (ht : Emits s t) (hu : Emits s u) :
    Emits s (if p then t else u) := by
  split <;> assumption

theorem start_emits (m : Mode) (s : State) : Emits s (start m s) := by
  cases m
  case rleEnc | lzEnc => exact ⟨_, rfl⟩
  case rleDec | lzDec => exact .of_eq rfl

theorem pushed_emits (v : Variant) (b : Byte) (s : State) : Emits s (pushed v b s) := by
  refine pushed_cases v b s (fun _ => .refl s) (fun _ => ?_) (fun _ _ => ?_) (fun _ _ => ?_) (fun _ _ => ?_)
    fun _ _ => ?_
  · exact .ite (.of_eq rfl) (.of_eq rfl)
  · exact .ite (.of_eq rfl) (.ite (.of_eq rfl) ⟨_, rfl⟩)
  · exact .ite (.of_eq rfl) (.ite (.of_eq rfl) ⟨_, rfl⟩)
  · exact .ite ⟨_, rfl⟩ (.of_eq rfl)
  · exact .ite (.ite (.of_eq rfl) (.of_eq rfl)) (.ite (.ite ⟨_, rfl⟩ (.of_eq rfl)) (.ite (.of_eq rfl) ⟨_, rfl⟩))

theorem chunkEnded_emits (v : Variant) (s : State) : Emits s (chunkEnded v s) := .ite ⟨_, rfl⟩ (.refl s)

@[simp] theorem finishEmpty_out (v : Variant) (s : State) : (finishEmpty v s).out = s.out := by
  unfold finishEmpty
  split <;> rfl

theorem finished_emits (v : Variant) (s : State) : Emits s (finished v s) := by
  refine finished_cases v s (fun _ => .refl s) (fun _ => .of_eq (finishEmpty_out v s)) (fun _ _ => ⟨_, rfl⟩)
    (fun _ _ => ⟨_, rfl⟩) fun _ _ => .ite (.of_eq rfl) (.of_eq rfl)

theorem exec_emits {i : Instr} {s t : State} (h : exec i s = .next t) : Emits s t := by
  by_cases hstart : ∃ m, i = startInstr m
  · obtain ⟨m, rfl⟩ := hstart
    cases (exec_startInstr m s).symm.trans h
    exact start_emits m s
  · by_cases habort : i = .abort
    · subst habort
      cases (exec_abort s).symm.trans h
      exact .of_eq rfl
    · exact exec_rel .refl .trans (pushed_emits _) (chunkEnded_emits _) (finished_emits _)
        (not_exists.mp hstart) habort h

theorem execAll_emits {is : List Instr} {s t : State} (h : execAll is s = .next t) : Emits s t :=
  execAll_induction (P := Emits s) (fun _ _ _ _ hs hi => hs.trans (exec_emits hi)) (.refl s) h

/-- Settles O40: by the instruction, and by the move a step takes. -/
theorem outputIsAppendOnly : Obligations.OutputIsAppendOnly := by
  refine ⟨fun i s t h => exec_emits h, fun s t h => ?_⟩
  cases hin : s.input with
  | nil => cases (step_of_input_nil hin).symm.trans h; exact Emits.refl s
  | cons x rest =>
    cases x with
    | command w => rw [step_command hin] at h; exact exec_emits (s := { s with input := rest }) h
    | wire fmt bytes => rw [step_wire hin] at h; exact execAll_emits (s := { s with input := rest }) h
    | rst => cases (step_rst hin).symm.trans h; exact Emits.of_eq rfl

/-! ### The frame -/

/-- What a command other than START and ABORT leaves as it was, by the mode (10_state.md R22, R32). -/
structure Framed (s t : State) : Prop where
  mode : t.mode = s.mode
  input : t.input = s.input
  run : s.mode ≠ .rleEnc → t.runOpen = s.runOpen ∧ t.runValue = s.runValue ∧ t.runLen = s.runLen
  win : s.mode = .rleEnc ∨ s.mode = .rleDec → t.win = s.win
  lookAhead : s.mode ≠ .lzEnc → t.la = s.la ∧ t.eocSeen = s.eocSeen
  residue : s.mode = .rleEnc ∨ s.mode = .lzEnc → t.resLen = s.resLen ∧ t.res0 = s.res0
  res1 : s.mode ≠ .lzDec → t.res1 = s.res1

theorem Framed.refl (s : State) : Framed s s :=
  ⟨rfl, rfl, fun _ => ⟨rfl, rfl, rfl⟩, fun _ => rfl, fun _ => ⟨rfl, rfl⟩, fun _ => ⟨rfl, rfl⟩, fun _ => rfl⟩

theorem Framed.trans {s t u : State} (hst : Framed s t) (htu : Framed t u) : Framed s u := by
  obtain ⟨hmode, hinput, hrun, hwin, hla, hres, hres1⟩ := hst
  obtain ⟨hmode', hinput', hrun', hwin', hla', hres', hres1'⟩ := htu
  rw [hmode] at hrun' hwin' hla' hres' hres1'
  refine ⟨hmode'.trans hmode, hinput'.trans hinput, fun hm => ?_, fun hm => (hwin' hm).trans (hwin hm), fun hm => ?_,
    fun hm => ?_, fun hm => (hres1' hm).trans (hres1 hm)⟩
  · obtain ⟨h1, h2, h3⟩ := hrun' hm
    rw [h1, h2, h3]
    exact hrun hm
  · obtain ⟨h1, h2⟩ := hla' hm
    rw [h1, h2]
    exact hla hm
  · obtain ⟨h1, h2⟩ := hres' hm
    rw [h1, h2]
    exact hres hm

theorem Framed.ite {p : Prop} [Decidable p] {s t u : State} (ht : Framed s t) (hu : Framed s u) :
    Framed s (if p then t else u) := by
  split <;> assumption

/-- An error is no matter of any mode's registers. -/
theorem raise_framed (k : Err) (s : State) : Framed s (raise k s) := { Framed.refl s with }

theorem checkMagic_framed (b : Byte) (s : State) : Framed s (checkMagic b s) :=
  .ite { Framed.refl s with } (raise_framed _ s)

theorem rleEncPushed_framed (b : Byte) {s : State} (hm : s.mode = .rleEnc) : Framed s (rleEncPushed b s) := by
  have hrun {P : Prop} : s.mode ≠ .rleEnc → P := fun h => absurd hm h
  exact .ite { Framed.refl s with run := hrun }
    (.ite { Framed.refl s with run := hrun } { Framed.refl s with run := hrun })

theorem rleDecPushed_framed (b : Byte) {s : State} (hm : s.mode = .rleDec) : Framed s (rleDecPushed b s) := by
  have hres {P : Prop} : s.mode = .rleEnc ∨ s.mode = .lzEnc → P := fun h => by simp [hm] at h
  exact .ite { Framed.refl s with residue := hres } (.ite (raise_framed _ s) { Framed.refl s with residue := hres })

theorem lzEncPushed_framed (v : Variant) (b : Byte) {s : State} (hm : s.mode = .lzEnc) :
    Framed s (lzEncPushed v b s) := by
  have hla {P : Prop} : s.mode ≠ .lzEnc → P := fun h => absurd hm h
  have hwin {P : Prop} : s.mode = .rleEnc ∨ s.mode = .rleDec → P := fun h => by simp [hm] at h
  exact .ite { Framed.refl s with lookAhead := hla, win := hwin } { Framed.refl s with lookAhead := hla }

theorem lzDecPushed_framed (b : Byte) {s : State} (hm : s.mode = .lzDec) : Framed s (lzDecPushed b s) := by
  have hwin {P : Prop} : s.mode = .rleEnc ∨ s.mode = .rleDec → P := fun h => by simp [hm] at h
  have hres {P : Prop} : s.mode = .rleEnc ∨ s.mode = .lzEnc → P := fun h => by simp [hm] at h
  have hres1 {P : Prop} : s.mode ≠ .lzDec → P := fun h => absurd hm h
  refine .ite (.ite { Framed.refl s with residue := hres } (raise_framed _ s)) (.ite (.ite ?_ ?_) (.ite ?_ ?_))
  · exact { Framed.refl s with win := hwin, residue := hres }
  · exact { Framed.refl s with residue := hres, res1 := hres1 }
  · exact raise_framed _ s
  · exact { Framed.refl s with win := hwin, residue := hres }

theorem pushed_framed (v : Variant) (b : Byte) (s : State) : Framed s (pushed v b s) :=
  pushed_cases v b s (fun _ => .refl s) (fun _ => checkMagic_framed b s) (fun _ => rleEncPushed_framed b)
    (fun _ => rleDecPushed_framed b) (fun _ => lzEncPushed_framed v b) fun _ => lzDecPushed_framed b

theorem chunkEnded_framed (v : Variant) (s : State) : Framed s (chunkEnded v s) := by
  by_cases h : s.phase = .body ∧ s.mode = .lzEnc
  · rw [chunkEnded_of_lzEnc v h.1 h.2]
    exact { Framed.refl s with
      lookAhead := fun hm => absurd h.2 hm
      win := fun hm => by simp [h.2] at hm }
  · rw [chunkEnded_eq_self v h]
    exact .refl s

theorem finishEmpty_framed (v : Variant) (s : State) : Framed s (finishEmpty v s) := by
  unfold finishEmpty
  split <;> exact { Framed.refl s with }

theorem finished_framed (v : Variant) (s : State) : Framed s (finished v s) := by
  refine finished_cases v s (fun _ => .refl s) (fun _ => finishEmpty_framed v s) (fun _ hm => ?_) (fun _ hm => ?_)
    fun _ _ => .ite (raise_framed _ s) { Framed.refl s with }
  · exact { Framed.refl s with run := fun h => absurd hm h }
  · exact { Framed.refl s with lookAhead := fun h => absurd hm h, win := fun h => by simp [hm] at h }

theorem exec_framed {i : Instr} {s t : State} (hstart : ∀ m, i ≠ startInstr m) (habort : i ≠ .abort)
    (h : exec i s = .next t) : Framed s t :=
  exec_rel .refl .trans (pushed_framed _) (chunkEnded_framed _) (finished_framed _) hstart habort h

/-- Settles O41: each of PUSH, EOC and FINISH keeps the frame, so every instruction named here does. -/
theorem commandsLeaveOtherModesStateAlone : Obligations.CommandsLeaveOtherModesStateAlone := by
  intro s t i h1 h2 h3 h4 habort h
  obtain ⟨hmode, hinput, hrun, hwin, hla, hres, hres1⟩ := exec_framed (ne_startInstr h1 h2 h3 h4) habort h
  exact ⟨hmode, hinput, hrun, hwin, hla, hres, hres1⟩

end Sys2Proof.Machine
end

section
/-! A step does not see what a data register holds while it holds no value (10_state.md R25, R26, R30;
93_implementation_defined.md U1, U2): what an instruction emits and leaves is noninterfering, and the one fault there
is comes of the look-ahead, which is no such register. -/

namespace Sys2Proof.Machine

/-! ### `SameValues` as `SameHeld` and the two streams -/

theorem SameHeld.of_sameValues {s u : State} (h : SameValues s u) :
    SameHeld s u ∧ u.out = s.out ∧ u.input = s.input := by
  obtain ⟨hu, hrun, h0, h1⟩ := h
  refine ⟨⟨?_, ?_, ?_, ?_, ?_, ?_, ?_, ?_, fun ho => (hrun ho).1, fun ho => (hrun ho).2, h0, h1⟩, ?_, ?_⟩ <;> rw [hu]

theorem SameHeld.sameValues_of_streams {s u : State} (h : SameHeld s u) (hout : u.out = s.out)
    (hinput : u.input = s.input) : SameValues s u :=
  ⟨by simp [State.ext_iff, h.phase, h.mode, h.err, h.runOpen, h.win, h.la, h.resLen, h.eocSeen, hout, hinput],
    fun ho => ⟨h.runValue ho, h.runLen ho⟩, h.res0, h.res1⟩

theorem SameHeld.symm {s u : State} (h : SameHeld s u) : SameHeld u s where
  phase := h.phase.symm
  mode := h.mode.symm
  err := h.err.symm
  runOpen := h.runOpen.symm
  win := h.win.symm
  la := h.la.symm
  resLen := h.resLen.symm
  eocSeen := h.eocSeen.symm
  runValue ho := (h.runValue (h.runOpen ▸ ho)).symm
  runLen ho := (h.runLen (h.runOpen ▸ ho)).symm
  res0 hr := (h.res0 (h.resLen ▸ hr)).symm
  res1 hr := (h.res1 (h.resLen ▸ hr)).symm

/-! ### How an instruction ends -/

/-- The outcome is a next state, or the one fault that PUSH has. -/
def NextOrFull (o : Host.Outcome State Fault Refusal) : Prop := (∃ t, o = .next t) ∨ o = .fault .laPushWhenFull

theorem exec_push_nextOrFull (b : Byte) (s : State) : NextOrFull (exec (.push b) s) := by
  rw [exec_push_eq]
  split
  · exact .inr rfl
  · exact .inl ⟨_, rfl⟩

theorem execAll_nextOrFull {is : List Instr} (hi : ∀ i ∈ is, ∀ s, NextOrFull (exec i s)) (s : State) :
    NextOrFull (execAll is s) := by
  induction is generalizing s with
  | nil => exact .inl ⟨s, rfl⟩
  | cons i is ih =>
    obtain ⟨hhead, htail⟩ := List.forall_mem_cons.mp hi
    rcases hhead s with ⟨t, ht⟩ | hf
    · rw [execAll_cons_of_next is ht]
      exact ih htail t
    · exact .inr (execAll_cons_of_fault is hf)

theorem execAll_pushes_nextOrFull (bs : List Byte) (s : State) : NextOrFull (execAll (pushes bs) s) :=
  execAll_nextOrFull (forall_mem_pushes exec_push_nextOrFull bs) s

theorem exec_nextOrFull (i : Instr) (s : State) : NextOrFull (exec i s) := by
  induction i using instr_cases with
  | start m => exact .inl ⟨_, exec_startInstr m s⟩
  | abort => exact .inl ⟨_, exec_abort s⟩
  | push b => exact exec_push_nextOrFull b s
  | eoc => exact .inl ⟨_, exec_eoc_eq s⟩
  | finish => exact .inl ⟨_, exec_finish_eq s⟩
  | reserved i hi => exact .inl ⟨_, exec_reserved hi s⟩
  | unit i hi =>
    rw [exec_unit hi]
    exact execAll_pushes_nextOrFull _ s

/-! ### The moves to come -/

@[simp] theorem start_input (m : Mode) (s : State) : (start m s).input = s.input := by
  cases m <;> rfl

/-- No instruction takes a move from the HOST. -/
theorem exec_input {i : Instr} {s t : State} (h : exec i s = .next t) : t.input = s.input := by
  by_cases hstart : ∃ m, i = startInstr m
  · obtain ⟨m, rfl⟩ := hstart
    cases (exec_startInstr m s).symm.trans h
    exact start_input m s
  · by_cases habort : i = .abort
    · subst habort
      cases (exec_abort s).symm.trans h
      rfl
    · exact (exec_framed (not_exists.mp hstart) habort h).input

theorem execAll_input {is : List Instr} {s t : State} (h : execAll is s = .next t) : t.input = s.input :=
  execAll_induction (P := fun t => t.input = s.input) (fun _ _ _ _ hs hi => (exec_input hi).trans hs) rfl h

/-! ### The step -/

theorem Noninterfering.sameOutcome {f : State → Host.Outcome State Fault Refusal} (hf : Noninterfering f)
    (hend : ∀ s, NextOrFull (f s)) (hmoves : ∀ {s t}, f s = .next t → t.input = s.input) {s u : State}
    (h : SameHeld s u) (hout : u.out = s.out) (hinput : u.input = s.input) : SameOutcome (f s) (f u) := by
  rcases hend s with ⟨t, ht⟩ | hs
  · obtain ⟨w, hw, ⟨bs, hbs, hbs'⟩, hheld⟩ := hf h ht
    rw [ht, hw]
    exact hheld.sameValues_of_streams (by rw [hbs, hbs', hout]) (by rw [hmoves hw, hmoves ht, hinput])
  · rcases hend u with ⟨w, hw⟩ | hu
    · obtain ⟨t, ht, -⟩ := hf h.symm hw
      cases hs.symm.trans ht
    · rw [hs, hu]
      exact rfl

theorem SameHeld.withInput {s u : State} (h : SameHeld s u) (moves : List Input) :
    SameHeld { s with input := moves } { u with input := moves } := { h with }

theorem applyRst_sameHeld (s u : State) : SameHeld (applyRst s) (applyRst u) := by
  constructor <;> simp

theorem step_sameOutcome {s u : State} (h : SameHeld s u) (hout : u.out = s.out) (hinput : u.input = s.input) :
    SameOutcome (step s) (step u) := by
  cases hs : s.input with
  | nil =>
    rw [step_of_input_nil hs, step_of_input_nil (hinput.trans hs)]
    exact h.sameValues_of_streams hout hinput
  | cons x rest =>
    have hu := hinput.trans hs
    have hrest := h.withInput rest
    cases x with
    | command w =>
      rw [step_command hs, step_command hu]
      exact (exec_noninterfering _).sameOutcome (exec_nextOrFull _) exec_input hrest hout rfl
    | wire fmt bytes =>
      rw [step_wire hs, step_wire hu]
      exact (execAll_noninterfering (fun i _ => exec_noninterfering i)).sameOutcome
        (execAll_pushes_nextOrFull bytes) execAll_input hrest hout rfl
    | rst =>
      rw [step_rst hs, step_rst hu]
      exact (applyRst_sameHeld _ _).sameValues_of_streams hout rfl

/-- Settles O49: the step by noninterference; the status word shows no data register. -/
theorem registersWithoutValueAreInvisible : Obligations.RegistersWithoutValueAreInvisible := by
  intro s t hst
  obtain ⟨h, hout, hinput⟩ := SameHeld.of_sameValues hst
  refine ⟨step_sameOutcome h hout hinput, ?_, hout⟩
  rw [State.status, State.status, h.phase, h.mode, h.err]

end Sys2Proof.Machine
end

section
/-! What a command does to `PHASE` and `ERR` (44_framing_commands.md section 2; 60_exceptions.md sections 1 and 2):
the error a byte or FINISH raises, if any, is read off the state before it, and raising it is all that then happens. -/

namespace Sys2Proof.Machine

/-! ### PUSH -/

/-- The offset waiting in the residue and the length `b` are no Match of the history (43_lz77_decode.md R193). -/
abbrev IllegalMatch (b : Byte) (s : State) : Prop := s.res1 = 0#8 ∨ b = 0#8 ∨ s.win.length < s.res1.toNat

/-- The error that `PUSH b` raises, by the role of the byte (60_exceptions.md section 1). -/
def pushError (b : Byte) (s : State) : Option Err :=
  match s.nextRole with
  | .magicByte => if b = magic s.mode then none else some .formatError
  | .count => if b = 0#8 then some .corruptDataError else none
  | .flag => if 2 ≤ b.toNat then some .unknownTokenError else none
  | .length => if IllegalMatch b s then some .corruptDataError else none
  | .ignored | .data | .value | .literalByte | .offset => none

/-- The phase after a command that raises no error, where `role` is the role of its byte. -/
def phaseOfRole (role : ByteRole) (p : Phase) : Phase := if role = .ignored then p else .body

/-- The command raises `e` if there is one, and that is its whole effect; with none it keeps `ERR` and leads to
phase `p`. -/
def Raises (e : Option Err) (p : Phase) (s t : State) : Prop :=
  (∃ k, e = some k ∧ k ≠ .noError ∧ t = raise k s) ∨ (e = none ∧ t.err = s.err ∧ t.phase = p)

theorem Raises.raised {k : Err} (hk : k ≠ .noError) (p : Phase) (s : State) : Raises (some k) p s (raise k s) :=
  .inl ⟨k, rfl, hk, rfl⟩

theorem Raises.silent {p : Phase} {s t : State} (herr : t.err = s.err) (hphase : t.phase = p) :
    Raises none p s t :=
  .inr ⟨rfl, herr, hphase⟩

/-- A check that raises an error where it fails. -/
theorem Raises.ite {c : Prop} [Decidable c] {e e' : Option Err} {p : Phase} {s t t' : State}
    (ht : c → Raises e p s t) (ht' : ¬c → Raises e' p s t') :
    Raises (if c then e else e') p s (if c then t else t') := by
  by_cases hc : c
  · rw [if_pos hc, if_pos hc]; exact ht hc
  · rw [if_neg hc, if_neg hc]; exact ht' hc

/-- A flag byte is known when it is 0 or 1 (43_lz77_decode.md R191). -/
theorem two_le_toNat_iff (b : Byte) : 2 ≤ b.toNat ↔ ¬(b = 0x00#8 ∨ b = 0x01#8) := by
  have h0 := byte_eq_zero_iff b
  have h1 : b = 1#8 ↔ b.toNat = 1 := ⟨fun h => congrArg BitVec.toNat h, fun h => BitVec.eq_of_toNat_eq h⟩
  rw [h0, h1]
  omega

theorem nextRole_header {s : State} (hp : s.phase = .header) : s.nextRole = .magicByte := by
  simp [State.nextRole, hp]

theorem nextRole_encoder {s : State} (hp : s.phase = .body) (hm : s.mode = .rleEnc ∨ s.mode = .lzEnc) :
    s.nextRole = .data := by
  rcases hm with hm | hm <;> simp [State.nextRole, hp, hm]

theorem nextRole_rleDec {s : State} (hp : s.phase = .body) (hm : s.mode = .rleDec) :
    s.nextRole = if s.resLen = 0 then .value else .count := by
  simp [State.nextRole, hp, hm]

theorem nextRole_lzDec {s : State} (hp : s.phase = .body) (hm : s.mode = .lzDec) :
    s.nextRole = if s.resLen = 0 then .flag
      else if s.resLen = 1 then if s.res0 = 0x00#8 then .literalByte else .offset else .length := by
  simp [State.nextRole, hp, hm]

theorem nextRole_ignored {s : State} (hp : s.phase = .idle ∨ s.phase = .done ∨ s.phase = .error) :
    s.nextRole = .ignored := by
  rcases hp with hp | hp | hp <;> simp [State.nextRole, hp]

section
variable {s : State} (b : Byte)

theorem checkMagic_raises (hp : s.phase = .header) :
    Raises (pushError b s) (phaseOfRole s.nextRole s.phase) s (checkMagic b s) := by
  simp only [pushError, nextRole_header hp, checkMagic]
  exact .ite (fun _ => .silent rfl rfl) fun _ => .raised (by decide) _ _

theorem rleEncPushed_raises (hp : s.phase = .body) (hm : s.mode = .rleEnc) :
    Raises (pushError b s) (phaseOfRole s.nextRole s.phase) s (rleEncPushed b s) := by
  simp only [pushError, nextRole_encoder hp (.inl hm)]
  unfold rleEncPushed
  split
  · exact .silent rfl hp
  · split <;> exact .silent rfl hp

theorem rleDecPushed_raises (hp : s.phase = .body) (hm : s.mode = .rleDec) :
    Raises (pushError b s) (phaseOfRole s.nextRole s.phase) s (rleDecPushed b s) := by
  by_cases hr : s.resLen = 0
  · simp only [pushError, nextRole_rleDec hp hm, hr, if_true, rleDecPushed]
    exact .silent rfl hp
  · simp only [pushError, nextRole_rleDec hp hm, hr, if_false, rleDecPushed]
    exact .ite (fun _ => .raised (by decide) _ _) fun _ => .silent rfl hp

theorem lzEncPushed_raises (v : Variant) (hp : s.phase = .body) (hm : s.mode = .lzEnc) :
    Raises (pushError b s) (phaseOfRole s.nextRole s.phase) s (lzEncPushed v b s) := by
  simp only [pushError, nextRole_encoder hp (.inr hm)]
  unfold lzEncPushed
  split <;> exact .silent rfl hp

theorem lzDecPushed_raises (hp : s.phase = .body) (hm : s.mode = .lzDec) :
    Raises (pushError b s) (phaseOfRole s.nextRole s.phase) s (lzDecPushed b s) := by
  by_cases h0 : s.resLen = 0
  · simp only [pushError, nextRole_lzDec hp hm, h0, if_true, lzDecPushed, two_le_toNat_iff, ite_not]
    exact .ite (fun _ => .silent rfl hp) fun _ => .raised (by decide) _ _
  · by_cases h1 : s.resLen = 1
    · by_cases hf : s.res0 = 0x00#8
      · simp only [pushError, nextRole_lzDec hp hm, if_neg h0, if_pos h1, if_pos hf, lzDecPushed]
        exact .silent rfl hp
      · simp only [pushError, nextRole_lzDec hp hm, if_neg h0, if_pos h1, if_neg hf, lzDecPushed]
        exact .silent rfl hp
    · simp only [pushError, nextRole_lzDec hp hm, if_neg h0, if_neg h1, lzDecPushed]
      exact .ite (fun _ => .raised (by decide) _ _) fun _ => .silent rfl hp

theorem ignored_raises (hp : s.phase = .idle ∨ s.phase = .done ∨ s.phase = .error) :
    Raises (pushError b s) (phaseOfRole s.nextRole s.phase) s s := by
  simp only [pushError, nextRole_ignored hp]
  exact .silent rfl rfl

/-- PUSH in every state. -/
theorem pushed_raises (v : Variant) (s : State) :
    Raises (pushError b s) (phaseOfRole s.nextRole s.phase) s (pushed v b s) :=
  pushed_cases v b s (ignored_raises b) (checkMagic_raises b) (rleEncPushed_raises b) (rleDecPushed_raises b)
    (lzEncPushed_raises b v) (lzDecPushed_raises b)

end

/-! ### FINISH -/

/-- The error that FINISH raises. FormatError in HEADER is the spec's choice D11 (log 8). -/
def finishError (s : State) : Option Err :=
  match s.phase with
  | .header => some .formatError
  | .body => if (s.mode = .rleDec ∨ s.mode = .lzDec) ∧ s.resLen ≠ 0 then some .truncatedStreamError else none
  | .idle | .done | .error => none

/-- The phase after a FINISH that raises no error. -/
def phaseAfterFinish (p : Phase) : Phase := if p = .body then .done else p

/-- Settles O14: each value of the parameter, and this hardware's. -/
theorem finishBeforeAnyByteFollowsEmptyDecode : Obligations.FinishBeforeAnyByteFollowsEmptyDecode := by
  intro s hp
  refine ⟨fun o => ?_, fun o => ?_, fun o => ?_, ?_⟩
  all_goals simp only [finishStream_eq_ok, exec_finish_eq, finished_header _ hp, finishEmpty, raise]

/-- FINISH in every state. -/
theorem finished_raises (s : State) :
    Raises (finishError s) (phaseAfterFinish s.phase) s (finished Config.hw.variant s) := by
  refine finished_cases _ s (fun hp => ?_) (fun hp => ?_) (fun hp hm => ?_) (fun hp hm => ?_) fun hp hm => ?_
  · rcases hp with hp | hp | hp
    all_goals
      simp only [finishError, hp]
      exact .silent rfl hp
  · simp only [finishError, hp]
    exact .raised (by decide) _ _
  · simp only [finishError, hp, hm]
    exact .silent rfl rfl
  · simp only [finishError, hp, hm]
    exact .silent rfl rfl
  · simp only [finishError, hp, hm, true_and]
    exact .ite (fun _ => .raised (by decide) _ _) fun _ => .silent rfl rfl

/-! ### Every command -/

@[simp] theorem chunkEnded_phase (v : Variant) (s : State) : (chunkEnded v s).phase = s.phase := by
  unfold chunkEnded
  split <;> rfl

@[simp] theorem chunkEnded_err (v : Variant) (s : State) : (chunkEnded v s).err = s.err := by
  unfold chunkEnded
  split <;> rfl

@[simp] theorem start_err (m : Mode) (s : State) : (start m s).err = .noError := by
  cases m <;> rfl

theorem start_phase_ne_error (m : Mode) (s : State) : (start m s).phase ≠ .error := by
  cases m <;> nofun

theorem Raises.entersError {e : Option Err} {p : Phase} {s t : State} (h : Raises e p s t)
    (hp : p = .error → s.phase = .error) (hs : s.phase ≠ .error) (ht : t.phase = .error) :
    ∃ k, k ≠ .noError ∧ t = raise k s := by
  rcases h with ⟨k, -, hk, ht'⟩ | ⟨-, -, hphase⟩
  · exact ⟨k, hk, ht'⟩
  · exact absurd (hp (hphase.symm.trans ht)) hs

/-- The only way into ERROR is to raise an error, and nothing else happens on it. -/
theorem exec_entersError {i : Instr} {s t : State} (hunit : unitBytes i = []) (h : exec i s = .next t)
    (hs : s.phase ≠ .error) (ht : t.phase = .error) : ∃ k, k ≠ .noError ∧ t = raise k s := by
  induction i using instr_cases with
  | start m => cases (exec_startInstr m s).symm.trans h; exact absurd ht (start_phase_ne_error m s)
  | abort => cases (exec_abort s).symm.trans h; cases ht
  | push b =>
    rw [exec_push_eq] at h
    split at h <;> cases h
    refine (pushed_raises b _ s).entersError (fun hp => ?_) hs ht
    unfold phaseOfRole at hp
    split at hp
    · exact hp
    · cases hp
  | eoc => cases (exec_eoc_eq s).symm.trans h; exact absurd ((chunkEnded_phase _ s).symm.trans ht) hs
  | finish =>
    cases (exec_finish_eq s).symm.trans h
    refine (finished_raises s).entersError (fun hp => ?_) hs ht
    unfold phaseAfterFinish at hp
    split at hp
    · cases hp
    · exact hp
  | reserved i hi => cases (exec_reserved hi s).symm.trans h; exact absurd ht hs
  | unit i hne => exact absurd hunit hne

/-- Settles O37: a command that enters ERROR has raised an error. -/
theorem errorEntryWritesOnlyErrAndPhase : Obligations.ErrorEntryWritesOnlyErrAndPhase := by
  intro s t i hi h hs ht
  obtain ⟨k, hk, rfl⟩ := exec_entersError hi h hs ht
  exact ⟨hk, rfl⟩

/-! ### The causes of the errors -/

theorem Raises.err_eq_iff {e : Option Err} {p : Phase} {s t : State} (h : Raises e p s t) (hs : s.err = .noError)
    {k : Err} (hk : k ≠ .noError) : t.err = k ↔ e = some k := by
  rcases h with ⟨k', rfl, -, rfl⟩ | ⟨rfl, herr, -⟩
  · simp
  · simp [herr, hs, hk.symm]

theorem pushError_eq_formatError_iff (b : Byte) (s : State) :
    pushError b s = some .formatError ↔ s.nextRole = .magicByte ∧ b ≠ magic s.mode := by
  unfold pushError
  cases s.nextRole <;> simp

theorem pushError_eq_corruptDataError_iff (b : Byte) (s : State) :
    pushError b s = some .corruptDataError ↔
      (s.nextRole = .count ∧ b = 0#8) ∨ (s.nextRole = .length ∧ IllegalMatch b s) := by
  unfold pushError
  cases s.nextRole
  case length => simp only [Option.ite_none_right_eq_some, and_true, reduceCtorEq, false_and, false_or, true_and]
  all_goals simp

theorem pushError_eq_unknownTokenError_iff (b : Byte) (s : State) :
    pushError b s = some .unknownTokenError ↔ s.nextRole = .flag ∧ 2 ≤ b.toNat := by
  unfold pushError
  cases s.nextRole <;> simp [Nat.succ_le_iff]

theorem pushError_ne_truncatedStreamError (b : Byte) (s : State) : pushError b s ≠ some .truncatedStreamError := by
  unfold pushError
  cases s.nextRole <;> simp

theorem finishError_eq_formatError_iff (s : State) : finishError s = some .formatError ↔ s.phase = .header := by
  unfold finishError
  cases s.phase <;> simp

/-- An encoder has no residue (10_state.md R32), so a residue is a decoder's. -/
theorem decoder_of_residue {s : State} (hs : Inv s) (hr : s.resLen ≠ 0) : s.mode = .rleDec ∨ s.mode = .lzDec := by
  obtain ⟨-, -, -, -, -, -, ⟨-, -, -, hencoder⟩, -⟩ := hs
  cases hm : s.mode
  case rleEnc | lzEnc => exact absurd (hencoder (by simp [hm])) hr
  case rleDec | lzDec => simp

theorem finishError_eq_truncatedStreamError_iff {s : State} (hs : Inv s) :
    finishError s = some .truncatedStreamError ↔ s.phase = .body ∧ s.resLen ≠ 0 := by
  have hdec := decoder_of_residue hs
  unfold finishError
  cases s.phase <;> simp
  exact hdec

theorem finishError_cases (s : State) : finishError s = none ∨ finishError s = some .formatError ∨
    finishError s = some .truncatedStreamError := by
  unfold finishError
  cases s.phase <;> simp
  tauto

theorem err_eq_noError_of_inv {s : State} (hs : Inv s) (hp : s.phase ≠ .error) : s.err = .noError := by
  obtain ⟨-, -, -, herr, -⟩ := hs
  exact not_not.mp (mt herr.mp hp)

/-- Settles O38: PUSH and FINISH raise the errors the two functions name; START, ABORT, EOC and the reserved
operations raise none. -/
theorem errorsHaveExactlyTheirCauses : Obligations.ErrorsHaveExactlyTheirCauses := by
  intro s t hs hp
  have herr := err_eq_noError_of_inv hs hp
  refine ⟨fun b h => ?_, fun h => ?_, fun i hunit hpush hfinish h => ?_⟩
  · cases (exec_push_of_inv b hs).symm.trans h
    have hiff {k : Err} (hk : k ≠ .noError) := (pushed_raises b Config.hw.variant s).err_eq_iff herr hk
    exact ⟨(hiff (by decide)).trans (pushError_eq_formatError_iff b s),
      (hiff (by decide)).trans (pushError_eq_corruptDataError_iff b s),
      (hiff (by decide)).trans (pushError_eq_unknownTokenError_iff b s),
      (hiff (by decide)).not.mpr (pushError_ne_truncatedStreamError b s)⟩
  · cases (exec_finish_eq s).symm.trans h
    have hiff {k : Err} (hk : k ≠ .noError) := (finished_raises s).err_eq_iff herr hk
    refine ⟨(hiff (by decide)).trans (finishError_eq_formatError_iff s),
      (hiff (by decide)).trans (finishError_eq_truncatedStreamError_iff hs), (hiff (by decide)).not.mpr ?_,
      (hiff (by decide)).not.mpr ?_⟩
    all_goals rcases finishError_cases s with he | he | he <;> simp [he]
  · induction i using instr_cases with
    | start m => cases (exec_startInstr m s).symm.trans h; exact start_err m s
    | abort => cases (exec_abort s).symm.trans h; rfl
    | push b => exact absurd rfl (hpush b)
    | eoc => cases (exec_eoc_eq s).symm.trans h; exact (chunkEnded_err _ s).trans herr
    | finish => exact absurd rfl hfinish
    | reserved i hi => cases (exec_reserved hi s).symm.trans h; exact herr
    | unit i hne => exact absurd hunit hne

/-! ### The transition table -/

theorem Raises.phase_eq {e : Option Err} {p : Phase} {s t : State} (h : Raises e p s t) :
    t.phase = if e = none then p else .error := by
  rcases h with ⟨k, rfl, -, rfl⟩ | ⟨rfl, -, hphase⟩
  · rfl
  · exact hphase

/-- PUSH's rows of the table. -/
theorem pushed_phase (v : Variant) (b : Byte) (s : State) :
    (pushed v b s).phase =
      match s.nextRole with
      | .magicByte => if b = magic s.mode then .body else .error
      | .count => if b = 0#8 then .error else .body
      | .flag => if 2 ≤ b.toNat then .error else .body
      | .length => if IllegalMatch b s then .error else .body
      | .data | .value | .literalByte | .offset => .body
      | .ignored => s.phase := by
  rw [(pushed_raises b v s).phase_eq]
  unfold pushError phaseOfRole
  cases s.nextRole
  case magicByte | count | flag | length => dsimp only; split_ifs <;> simp_all
  case ignored | data | value | literalByte | offset => rfl

/-- FINISH's rows of the table. -/
theorem finished_phase {s : State} (hs : Inv s) :
    (finished Config.hw.variant s).phase =
      match s.phase with
      | .header => .error
      | .body => if s.resLen = 0 then .done else .error
      | .idle | .done | .error => s.phase := by
  have hdec := decoder_of_residue hs
  rw [(finished_raises s).phase_eq]
  unfold finishError phaseAfterFinish
  cases s.phase <;> simp
  by_cases hr : s.resLen = 0
  · simp [hr]
  · simp [hr, hdec hr]

/-- Settles O39: START and ABORT by their updates, PUSH and FINISH by their rows, and no other row. -/
theorem phaseChangesOnlyByTheTransitionTable : Obligations.PhaseChangesOnlyByTheTransitionTable := by
  intro s t i hs hunit h
  cases i
  case startRleEnc => cases (exec_startInstr .rleEnc s).symm.trans h; rfl
  case startRleDec => cases (exec_startInstr .rleDec s).symm.trans h; rfl
  case startLzEnc => cases (exec_startInstr .lzEnc s).symm.trans h; rfl
  case startLzDec => cases (exec_startInstr .lzDec s).symm.trans h; rfl
  case abort => cases (exec_abort s).symm.trans h; rfl
  case push b => cases (exec_push_of_inv b hs).symm.trans h; exact pushed_phase _ b s
  case eoc => cases (exec_eoc_eq s).symm.trans h; exact chunkEnded_phase _ s
  case finish => cases (exec_finish_eq s).symm.trans h; exact finished_phase hs
  case reserved5 | reserved6 | reserved7 => cases (exec_reserved (by simp) s).symm.trans h; rfl
  all_goals cases hunit

end Sys2Proof.Machine
end

section
/-! Commands that change nothing (44_framing_commands.md sections 1 and 2), and the wire units where the decoders
execute them (30_encoding.md R92 to R97; 43_lz77_decode.md R191 to R194): a unit is the PUSH of each of its bytes. -/

namespace Sys2Proof.Machine

/-! ### Outside a run -/

theorem execAll_eq_self {is : List Instr} {s : State} (h : ∀ i ∈ is, exec i s = .next s) :
    execAll is s = .next s := by
  induction is with
  | nil => rfl
  | cons i is ih =>
    obtain ⟨hhead, htail⟩ := List.forall_mem_cons.mp h
    rw [execAll_cons_of_next is hhead, ih htail]

/-- Settles O12: PUSH, EOC and FINISH are ignored, so a unit is. -/
theorem onlyStartAndAbortActOutsideARun : Obligations.OnlyStartAndAbortActOutsideARun := by
  intro s i hp h1 h2 h3 h4 habort
  have hbody : s.phase ≠ .body := by rcases hp with h | h | h <;> simp [h]
  have hpush (b : Byte) : exec (.push b) s = .next s := by
    rw [exec_push_eq, if_neg fun h => hbody h.1, pushed_ignored _ b hp]
  induction i using instr_cases with
  | start m => exact absurd rfl (ne_startInstr h1 h2 h3 h4 m)
  | abort => exact absurd rfl habort
  | push b => exact hpush b
  | eoc => exact exec_eoc_of_phase_ne_body hbody
  | finish => rw [exec_finish_eq, finished_ignored _ hp]
  | reserved i hi => exact exec_reserved hi s
  | unit i hi => rw [exec_unit hi, execAll_eq_self (forall_mem_pushes hpush _)]

/-! ### Chunk boundaries -/

theorem exec_push_mode {b : Byte} {s t : State} (h : exec (.push b) s = .next t) : t.mode = s.mode :=
  (exec_framed (i := .push b) (fun m => by cases m <;> nofun) nofun h).mode

/-- Outside the LZ encoder EOC commands can be left out. -/
theorem execAll_eq_pushes {cmds : List Instr} (hcmds : ∀ i ∈ cmds, FeedInstr i) {s : State} (hm : s.mode ≠ .lzEnc) :
    execAll cmds s = execAll (pushes (pushedBytes cmds)) s := by
  induction cmds generalizing s with
  | nil => rfl
  | cons i cmds ih =>
    obtain ⟨hhead, htail⟩ := List.forall_mem_cons.mp hcmds
    rcases hhead with rfl | ⟨b, rfl⟩
    · rw [execAll_cons_of_next _ (exec_eoc_of_mode_ne_lzEnc hm)]
      exact ih htail hm
    · rw [pushedBytes, pushes, List.map_cons]
      rcases exec_push_nextOrFull b s with ⟨t, ht⟩ | hf
      · rw [execAll_cons_of_next _ ht, execAll_cons_of_next _ ht]
        exact ih htail (by rwa [exec_push_mode ht])
      · rw [execAll_cons_of_fault _ hf, execAll_cons_of_fault _ hf]

/-- Settles O51: leaving out each EOC changes nothing. -/
theorem chunkBoundariesHaveNoEffectOutsideTheLzEncoder :
    Obligations.ChunkBoundariesHaveNoEffectOutsideTheLzEncoder :=
  fun _ _ hm hcmds => execAll_eq_pushes hcmds hm

/-! ### Units of one, two and three bytes -/

theorem exec_unit_one {i : Instr} {b : Byte} (hi : unitBytes i = [b]) {s t : State}
    (h : exec (.push b) s = .next t) : exec i s = .next t := by
  rw [exec_unit (by simp [hi]), hi]
  exact execAll_cons_of_next _ h

theorem exec_unit_two {i : Instr} {b c : Byte} (hi : unitBytes i = [b, c]) {s t u : State}
    (hb : exec (.push b) s = .next t) (hc : exec (.push c) t = .next u) : exec i s = .next u := by
  rw [exec_unit (by simp [hi]), hi]
  exact (execAll_cons_of_next _ hb).trans (execAll_cons_of_next _ hc)

theorem exec_unit_three {i : Instr} {b c d : Byte} (hi : unitBytes i = [b, c, d]) {s t u w : State}
    (hb : exec (.push b) s = .next t) (hc : exec (.push c) t = .next u) (hd : exec (.push d) u = .next w) :
    exec i s = .next w := by
  rw [exec_unit (by simp [hi]), hi]
  exact (execAll_cons_of_next _ hb).trans ((execAll_cons_of_next _ hc).trans (execAll_cons_of_next _ hd))

/-! ### The magic units -/

/-- Settles O42: the unit's byte is the family's magic byte, or it is not. -/
theorem magicUnitOpensTheBody : Obligations.MagicUnitOpensTheBody := by
  intro s hp
  have hpush (b : Byte) : exec (.push b) s = .next (checkMagic b s) := exec_push_header b hp
  refine ⟨fun hm => ?_, fun hm => ?_, fun hm => ?_, fun hm => ?_⟩
  · exact (exec_unit_one rfl (hpush _)).trans (congrArg _ (if_pos (congrArg magic hm).symm))
  · exact (exec_unit_one rfl (hpush _)).trans (congrArg _ (if_pos (congrArg magic hm).symm))
  · exact (exec_unit_one rfl (hpush _)).trans (congrArg _ (if_neg (by rw [hm]; decide)))
  · exact (exec_unit_one rfl (hpush _)).trans (congrArg _ (if_neg (by rw [hm]; decide)))

/-! ### The RLE pair -/

theorem exec_rlePair {s : State} (value count : Byte) (hp : s.phase = .body) (hm : s.mode = .rleDec)
    (hr : s.resLen = 0) :
    exec (.rlePair value count) s = .next (rleDecPushed count { s with res0 := value, resLen := 1 }) := by
  have hvalue : exec (.push value) s = .next { s with res0 := value, resLen := 1 } := by
    rw [exec_push_rleDec value hp hm, rleDecPushed_of_value value hr]
  exact exec_unit_two rfl hvalue (exec_push_rleDec count hp hm)

/-- Settles O43: the value waits for the count, which expands or refuses it. -/
theorem rlePairUnitExpandsToItsRun : Obligations.RlePairUnitExpandsToItsRun := by
  intro s value count hp hm hr
  rw [exec_rlePair value count hp hm hr]
  have hone : ({ s with res0 := value, resLen := 1 } : State).resLen ≠ 0 := by simp
  refine ⟨fun hcount => ?_, fun hcount => ?_⟩
  · rw [rleDecPushed_of_count hone hcount]
    simp [hr]
  · rw [hcount, rleDecPushed_of_zero_count hone, raise]

/-! ### The LZ units -/

theorem exec_lzFlag {s : State} {flag : Byte} (hflag : flag = 0x00#8 ∨ flag = 0x01#8) (hp : s.phase = .body)
    (hm : s.mode = .lzDec) (hr : s.resLen = 0) :
    exec (.push flag) s = .next { s with res0 := flag, resLen := 1 } := by
  rw [exec_push_lzDec flag hp hm, lzDecPushed_of_known_flag hr hflag]

theorem exec_lzLiteral {s : State} (b : Byte) (hp : s.phase = .body) (hm : s.mode = .lzDec) (hr : s.resLen = 0) :
    exec (.lzLiteral b) s = .next { s with
      out := s.out ++ [b], win := windowAppend s.win b, res0 := 0x00#8 } := by
  have hflag := exec_lzFlag (.inl rfl) hp hm hr
  have hbyte : exec (.push b) { s with res0 := 0x00#8, resLen := 1 } = .next { s with
      out := s.out ++ [b], win := windowAppend s.win b, res0 := 0x00#8 } := by
    refine Eq.trans (exec_push_lzDec b hp hm) (congrArg _ ?_)
    rw [lzDecPushed_of_literal b rfl rfl, hr]
  exact exec_unit_two rfl hflag hbyte

/-- Settles O44: the flag waits for the byte, which is emitted and appended. -/
theorem lzLiteralUnitEmitsItsByte : Obligations.LzLiteralUnitEmitsItsByte :=
  fun _ b hp hm hr => exec_lzLiteral b hp hm hr

theorem exec_lzMatch {s : State} (offset length : Byte) (hp : s.phase = .body) (hm : s.mode = .lzDec)
    (hr : s.resLen = 0) :
    exec (.lzMatch offset length) s =
      .next (lzDecPushed length { s with res0 := 0x01#8, res1 := offset, resLen := 2 }) := by
  have hflag := exec_lzFlag (.inr rfl) hp hm hr
  have hoffset : exec (.push offset) { s with res0 := 0x01#8, resLen := 1 } =
      .next { s with res0 := 0x01#8, res1 := offset, resLen := 2 } := by
    refine Eq.trans (exec_push_lzDec offset hp hm) (congrArg _ ?_)
    rw [lzDecPushed_of_offset offset rfl (by simp)]
  exact exec_unit_three rfl hflag hoffset (exec_push_lzDec length hp hm)

/-- A Match of the history is copied (43_lz77_decode.md R194). -/
theorem exec_lzMatch_of_legal {s : State} {offset length : Byte} (hp : s.phase = .body) (hm : s.mode = .lzDec)
    (hr : s.resLen = 0) (ho : offset ≠ 0#8) (hl : length ≠ 0#8) (hw : offset.toNat ≤ s.win.length) :
    exec (.lzMatch offset length) s = .next { s with
      out := s.out ++ copyBytes offset.toNat length.toNat s.win
      win := (copyBytes offset.toNat length.toNat s.win).foldl windowAppend s.win
      res0 := 0x01#8, res1 := offset } := by
  rw [exec_lzMatch offset length hp hm hr,
    lzDecPushed_of_legal_match rfl (not_or.mpr ⟨ho, not_or.mpr ⟨hl, hw.not_gt⟩⟩), hr]

/-- Settles O45: the flag and the offset wait for the length, which is validated and then copied; O32 says what a
copy is. -/
theorem lzMatchUnitCopiesFromTheHistory : Obligations.LzMatchUnitCopiesFromTheHistory := by
  intro s offset length hp hm hr
  refine ⟨fun ho hl hw => ?_, fun hbad => ?_⟩
  · have h1 := one_le_toNat_of_ne_zero ho
    obtain ⟨bs, hlen, hcopy, hbs⟩ := copyIsPeriodicInItsOffset s offset.toNat length.toNat h1 hw
      (one_le_toNat_of_ne_zero hl) (Nat.le_of_lt_succ (byte_toNat_lt length))
    obtain rfl : copyBytes offset.toNat length.toNat s.win = bs := by
      rw [copy_eq_ok length.toNat h1 hw, Except.ok.injEq] at hcopy
      exact List.append_cancel_left (congrArg State.out hcopy)
    exact ⟨_, hlen, exec_lzMatch_of_legal hp hm hr ho hl hw, hbs⟩
  · rw [exec_lzMatch offset length hp hm hr, lzDecPushed_of_illegal_match rfl hbad, raise]

/-- Settles O46: a row's byte is no known flag, whatever the row. -/
theorem unknownFlagRowsRaiseUnknownToken : Obligations.UnknownFlagRowsRaiseUnknownToken := by
  intro s i f hp hm hr hwf hi
  obtain ⟨hrow, hl, hmatch⟩ := unknownFlagRow_of_wf f i hi hwf
  obtain ⟨-, hbytes, -⟩ := unknownFlagRow_spec f hl hmatch
  have hpush : exec (.push f) s = .next (raise .unknownTokenError s) := by
    rw [exec_push_lzDec f hp hm, lzDecPushed_of_unknown_flag hr (not_or.mpr ⟨hl, hmatch⟩)]
  rw [hrow] at hbytes
  rw [exec_unit_one hbytes hpush, raise]

end Sys2Proof.Machine
end

section
/-! The window (20_memory.md sections 2 and 5): its sequence form holds the last 20 bytes, and both physical
organisations show it. -/

namespace Sys2Proof.Machine

/-! ### The last 20 bytes -/

theorem lastWindow_of_length_le {bs : List Byte} (h : bs.length ≤ 20) : lastWindow bs = bs := by
  rw [lastWindow, Nat.sub_eq_zero_of_le h, List.drop_zero]

theorem lastWindow_length_le (bs : List Byte) : (lastWindow bs).length ≤ 20 := by
  rw [lastWindow, List.length_drop, hw_windowSize]
  omega

/-- Bytes older than the last 20 do not matter to what comes. -/
theorem lastWindow_lastWindow_append (bs cs : List Byte) :
    lastWindow (lastWindow bs ++ cs) = lastWindow (bs ++ cs) := by
  have hle : bs.length - 20 ≤ bs.length := Nat.sub_le _ _
  simp only [lastWindow]
  rw [← List.drop_append_of_le_length hle, List.drop_drop, List.length_drop, List.length_append]
  congr 1
  omega

theorem windowAppend_eq_lastWindow {w : List Byte} (h : w.length ≤ 20) (b : Byte) :
    windowAppend w b = lastWindow (w ++ [b]) := by
  unfold windowAppend
  split
  case isTrue hroom => rw [lastWindow_of_length_le (by simpa using hroom)]
  case isFalse hfull =>
    have hlen : w.length = 20 := le_antisymm h (not_lt.mp hfull)
    rw [lastWindow, List.length_append, List.length_singleton, hlen,
      List.drop_append_of_le_length (by simp [hlen])]
    rfl

theorem foldl_windowAppend_eq_lastWindow {w : List Byte} (h : w.length ≤ 20) (bs : List Byte) :
    bs.foldl windowAppend w = lastWindow (w ++ bs) := by
  induction bs generalizing w with
  | nil => rw [List.append_nil, lastWindow_of_length_le h, List.foldl_nil]
  | cons b bs ih =>
    rw [List.foldl_cons, ih (windowAppend_length_le h b), windowAppend_eq_lastWindow h, lastWindow_lastWindow_append,
      List.append_assoc, List.singleton_append]

/-- Settles O33: by the append one byte at a time. -/
theorem windowHoldsTheLastTwentyBytes : Obligations.WindowHoldsTheLastTwentyBytes := fun _ bs h =>
  ⟨foldl_windowAppend_eq_lastWindow h bs, foldl_windowAppend_length_le h bs⟩

theorem windowAppend_of_room {w : List Byte} (h : w.length < 20) (b : Byte) : windowAppend w b = w ++ [b] :=
  if_pos h

theorem windowAppend_of_full {w : List Byte} (h : w.length = 20) (b : Byte) : windowAppend w b = w.drop 1 ++ [b] :=
  if_neg (by simp [h])

/-! ### The circular buffer -/

@[simp] theorem Ring.view_length (r : Ring) : r.view.length = r.wLen := by simp [Ring.view]

/-- Cell `k` of the view is cell `W_HEAD + k` of the buffer (20_memory.md R65). -/
theorem Ring.view_getElem? {r : Ring} (hr : r.wf) {k : Nat} (hk : k < r.wLen) :
    r.view[k]? = r.wmem[(r.wHead + k) % 20]? := by
  obtain ⟨hmem, -, -⟩ := hr
  have hcell : (r.wHead + k) % 20 < r.wmem.length := hmem ▸ Nat.mod_lt _ (by decide)
  simp [Ring.view, hk, List.getElem?_eq_getElem hcell]

theorem Ring.append_wf {r : Ring} (hr : r.wf) (b : Byte) : (r.append b).wf := by
  obtain ⟨hmem, hhead, hlen⟩ := hr
  unfold Ring.append
  split
  case isTrue hroom => exact ⟨by simpa using hmem, hhead, hroom⟩
  case isFalse => exact ⟨by simpa using hmem, Nat.mod_lt _ (by decide), hlen⟩

/-- Below capacity the byte is written behind the last one. -/
theorem Ring.append_view_of_room {r : Ring} (hr : r.wf) (hroom : r.wLen < 20) (b : Byte) :
    (r.append b).view = r.view ++ [b] := by
  have hwf := Ring.append_wf hr b
  have happ : r.append b = { r with wmem := r.wmem.set ((r.wHead + r.wLen) % 20) b, wLen := r.wLen + 1 } :=
    if_pos hroom
  obtain ⟨hmem, hhead, -⟩ := id hr
  rw [happ] at hwf ⊢
  apply List.ext_getElem?
  intro k
  rcases Nat.lt_trichotomy k r.wLen with hk | rfl | hk
  · have hne : (r.wHead + r.wLen) % 20 ≠ (r.wHead + k) % 20 := by
      simp only at hhead
      omega
    rw [Ring.view_getElem? hwf (Nat.lt_succ_of_lt hk), List.getElem?_append_left (by simpa using hk),
      Ring.view_getElem? hr hk, List.getElem?_set_ne hne]
  · have hcell : (r.wHead + r.wLen) % 20 < r.wmem.length := hmem ▸ Nat.mod_lt _ (by decide)
    rw [Ring.view_getElem? hwf (Nat.lt_succ_self _), List.getElem?_set_self hcell]
    simp
  · rw [List.getElem?_eq_none (by simpa using hk), List.getElem?_eq_none (by simpa using hk)]

/-- At capacity the byte takes the oldest one's cell, and the head moves on. -/
theorem Ring.append_view_of_full {r : Ring} (hr : r.wf) (hfull : r.wLen = 20) (b : Byte) :
    (r.append b).view = r.view.drop 1 ++ [b] := by
  have hwf := Ring.append_wf hr b
  have happ : r.append b = { r with wmem := r.wmem.set r.wHead b, wHead := (r.wHead + 1) % 20 } :=
    if_neg (by simp [hfull])
  obtain ⟨hmem, hhead, -⟩ := id hr
  rw [happ] at hwf ⊢
  simp only at hhead hmem
  have hdrop : (r.view.drop 1).length = 19 := by simp [hfull]
  apply List.ext_getElem?
  intro k
  rcases Nat.lt_trichotomy k 19 with hk | rfl | hk
  · have hidx : ((r.wHead + 1) % 20 + k) % 20 = (r.wHead + (1 + k)) % 20 := by omega
    have hne : r.wHead ≠ (r.wHead + (1 + k)) % 20 := by omega
    rw [Ring.view_getElem? hwf (by simp [hfull]; omega), List.getElem?_append_left (by omega), List.getElem?_drop,
      Ring.view_getElem? hr (by omega), hidx, List.getElem?_set_ne hne]
  · have hidx : ((r.wHead + 1) % 20 + 19) % 20 = r.wHead := by omega
    rw [Ring.view_getElem? hwf (by simp [hfull]), hidx, List.getElem?_set_self (by omega),
      List.getElem?_append_right (by omega), hdrop]
    simp
  · rw [List.getElem?_eq_none (by simp [hfull]; omega), List.getElem?_eq_none (by simp [hfull]; omega)]

theorem Ring.append_view {r : Ring} (hr : r.wf) (b : Byte) : (r.append b).view = windowAppend r.view b := by
  obtain ⟨-, -, hlen⟩ := id hr
  rcases Nat.lt_or_eq_of_le hlen with hroom | hfull
  · rw [Ring.append_view_of_room hr hroom, windowAppend_of_room (by simpa using hroom)]
  · rw [Ring.append_view_of_full hr hfull, windowAppend_of_full (by simpa using hfull)]

/-! ### The shift register -/

theorem ShiftRegister.append_wf {r : ShiftRegister} (hr : r.wf) (b : Byte) : (r.append b).wf := by
  obtain ⟨hstages, -⟩ := hr
  refine ⟨?_, min_le_right _ _⟩
  simp [ShiftRegister.append, hstages]

/-- The view after a shift: the byte enters, and of the older ones as many are shown as there is room for. -/
theorem ShiftRegister.append_view_eq (r : ShiftRegister) (b : Byte) :
    (r.append b).view = ((r.stages.take (min r.wLen 19)).reverse) ++ [b] := by
  have hmin : min (min (r.wLen + 1) 20) 20 = min r.wLen 19 + 1 := by omega
  simp only [ShiftRegister.view, ShiftRegister.append]
  rw [List.take_take, hmin, List.take_succ_cons, List.reverse_cons]

theorem ShiftRegister.append_view {r : ShiftRegister} (hr : r.wf) (b : Byte) :
    (r.append b).view = windowAppend r.view b := by
  obtain ⟨hstages, hlen⟩ := hr
  simp only at hstages hlen
  have hview : r.view.length = r.wLen := by simp [ShiftRegister.view, hstages, hlen]
  rw [ShiftRegister.append_view_eq]
  rcases Nat.lt_or_eq_of_le hlen with hroom | hfull
  · rw [windowAppend_of_room (hview ▸ hroom), Nat.min_eq_left (Nat.le_of_lt_succ hroom), ShiftRegister.view]
  · rw [windowAppend_of_full (hview.trans hfull), hfull, ShiftRegister.view, hfull, List.drop_reverse, List.take_take,
      List.length_take, hstages]
    rfl

/-- Settles O34: the two appends, and views of no cell after clear and reset. -/
theorem physicalWindowsShowTheSequenceForm : Obligations.PhysicalWindowsShowTheSequenceForm := by
  refine ⟨fun r b hr => ⟨Ring.append_wf hr b, Ring.append_view hr b⟩, fun r hr => ?_,
    fun r b hr => ⟨ShiftRegister.append_wf hr b, ShiftRegister.append_view hr b⟩, fun r hr => ?_⟩
  · obtain ⟨hmem, hhead, -⟩ := hr
    exact ⟨⟨hmem, hhead, Nat.zero_le _⟩, rfl, ⟨hmem, Nat.succ_pos 19, Nat.zero_le _⟩, rfl, rfl, rfl⟩
  · obtain ⟨hstages, -⟩ := hr
    exact ⟨⟨hstages, Nat.zero_le _⟩, rfl, ⟨hstages, Nat.zero_le _⟩, rfl⟩

end Sys2Proof.Machine
end

section
/-! The search and the token it leads to (42_lz77_encode.md sections 2 and 5). -/

namespace Sys2Proof.Machine

/-! ### The search -/

/-- `best` is the longest match of the indices below `n`, and of equal ones the latest. -/
structure BestBelow (overlap : Bool) (win la : List Byte) (n : Nat) (best : Best) : Prop where
  index_lt : best.1 < n
  length_eq : best.2 = curLen overlap win la best.1
  longest : ∀ i < n, curLen overlap win la i ≤ best.2
  latest : ∀ i < n, curLen overlap win la i = best.2 → i ≤ best.1

theorem searchBelow_succ (overlap : Bool) (win la : List Byte) (n : Nat) :
    (List.range (n + 1)).foldl (improve overlap win la) (0, 0) =
      improve overlap win la ((List.range n).foldl (improve overlap win la) (0, 0)) n := by
  rw [List.range_succ, List.foldl_append, List.foldl_cons, List.foldl_nil]

/-- A round at least as long as the best replaces it; a shorter one does not. -/
theorem BestBelow.improve {overlap : Bool} {win la : List Byte} {n : Nat} {best : Best}
    (h : BestBelow overlap win la n best) : BestBelow overlap win la (n + 1) (improve overlap win la best n) := by
  obtain ⟨hlt, hlen, hlongest, hlatest⟩ := h
  unfold Machine.improve
  split
  case isTrue hle =>
    refine ⟨Nat.lt_succ_self n, rfl, fun i hi => ?_, fun i hi _ => Nat.le_of_lt_succ hi⟩
    rcases Nat.lt_succ_iff_lt_or_eq.mp hi with hi | rfl
    · exact (hlongest i hi).trans hle
    · exact le_rfl
  case isFalse hnle =>
    refine ⟨Nat.lt_succ_of_lt hlt, hlen, fun i hi => ?_, fun i hi heq => ?_⟩
    · rcases Nat.lt_succ_iff_lt_or_eq.mp hi with hi | rfl
      · exact hlongest i hi
      · exact (not_le.mp hnle).le
    · rcases Nat.lt_succ_iff_lt_or_eq.mp hi with hi | rfl
      · exact hlatest i hi heq
      · exact absurd heq.ge hnle

theorem bestBelow_searchBelow (overlap : Bool) (win la : List Byte) (n : Nat) :
    BestBelow overlap win la (n + 1) ((List.range (n + 1)).foldl (improve overlap win la) (0, 0)) := by
  induction n with
  | zero =>
    rw [searchBelow_succ]
    refine ⟨by simp [improve], by simp [improve], fun i hi => ?_, fun i hi _ => by omega⟩
    obtain rfl : i = 0 := by omega
    simp [improve]
  | succ n ih =>
    rw [searchBelow_succ]
    exact ih.improve

/-- Settles O23: after the round of each index. -/
theorem searchFindsTheNearestLongestMatch : Obligations.SearchFindsTheNearestLongestMatch := by
  refine fun overlap win la => ⟨fun hnil => by rw [hnil]; rfl, fun hne => ?_⟩
  obtain ⟨n, hn⟩ := Nat.exists_eq_succ_of_ne_zero (List.length_pos_iff.mpr hne).ne'
  have hbest := bestBelow_searchBelow overlap win la n
  rw [← Nat.succ_eq_add_one, ← hn, ← search] at hbest
  obtain ⟨hlt, hlen, hlongest, hlatest⟩ := hbest
  exact ⟨hlt, hlen, fun i hi => ⟨hlongest i hi, hlatest i hi⟩⟩

/-! ### The bounds of a token -/

theorem decideMatch_bounds {overlap : Bool} {win la : List Byte} {offset length : Nat}
    (h : decideMatch overlap win la = some (offset, length)) :
    1 ≤ offset ∧ offset ≤ win.length ∧ 3 ≤ length ∧ length ≤ la.length ∧ (overlap = false → length ≤ offset) := by
  obtain ⟨i, hi, rfl, rfl, h3⟩ := decideMatch_eq_some h
  refine ⟨by omega, by omega, h3, curLen_le_la _ _ _ _, ?_⟩
  rintro rfl
  exact curLen_le_win win la i

theorem tokenOut_of_match {v : Variant} {win la : List Byte} {offset length : Nat}
    (h : decideMatch v.overlapSearch win la = some (offset, length)) :
    tokenOut v win la = ([0x01#8, BitVec.ofNat 8 offset, BitVec.ofNat 8 length], length) := by
  simp only [tokenOut, h]

theorem tokenOut_of_literal {v : Variant} {win : List Byte} {b : Byte} {rest : List Byte}
    (h : decideMatch v.overlapSearch win (b :: rest) = none) :
    tokenOut v win (b :: rest) = ([0x00#8, b], 1) := by
  simp only [tokenOut, h, List.headD_cons]

/-- Settles O28: a Match has the bounds of the decision, which fit a byte; a Literal is the front byte. -/
theorem emittedTokensAreWithinBounds : Obligations.EmittedTokensAreWithinBounds := by
  intro v s t hla hlen hwin h
  rw [token_eq_ok v hla, Except.ok.injEq] at h
  subst h
  cases hd : decideMatch v.overlapSearch s.win s.la with
  | some p =>
    obtain ⟨h1, ho, h3, hn, hover⟩ := decideMatch_bounds (offset := p.1) (length := p.2) hd
    have hoff : (BitVec.ofNat 8 p.1 : Byte).toNat = p.1 := byte_ofNat_toNat (by omega)
    have hlength : (BitVec.ofNat 8 p.2 : Byte).toNat = p.2 := byte_ofNat_toNat (by omega)
    refine ⟨.lzMatch (BitVec.ofNat 8 p.1) (BitVec.ofNat 8 p.2), by rw [tokenOut_of_match hd]; rfl,
      .inr ⟨_, _, rfl, ?_⟩⟩
    rw [hoff, hlength]
    exact ⟨h1, ho, h3, hn, hover⟩
  | none =>
    obtain ⟨b, rest, hcons⟩ := List.exists_cons_of_ne_nil hla
    rw [hcons] at hd
    exact ⟨.lzLiteral b, by rw [hcons, tokenOut_of_literal hd]; rfl, .inl ⟨b, rfl, by simp [hcons]⟩⟩

end Sys2Proof.Machine
end

section
/-! The pairs of an input (40_rle_encode.md R125), read from its front: a nonempty input begins with a run of 1 to
255 equal bytes whose pair is the first, and the pairs of what follows come after it. -/

namespace Sys2Proof

@[simp] theorem rlePairs_nil : rlePairs [] = [] := rfl

/-- The pairs of a maximal run come before those of the rest. -/
theorem rlePairs_replicate_append {n : Nat} (hn : n ≠ 0) {v : Byte} {rest : List Byte}
    (hrest : ∀ c ∈ rest.head?, c ≠ v) :
    rlePairs (List.replicate n v ++ rest) = groupPairs (List.replicate n v) ++ rlePairs rest := by
  have hsplit : (List.replicate n v).splitBy (· == ·) = [List.replicate n v] :=
    List.splitBy_of_isChain (by simpa using hn) (List.isChain_replicate_of_rel n (by simp))
  have hdiff : ∀ x ∈ (List.replicate n v).getLast?, ∀ y ∈ rest.head?, (x == y) = false := by
    intro x hx y hy
    obtain rfl : x = v := List.eq_of_mem_replicate (List.mem_of_mem_getLast? hx)
    exact beq_false_of_ne (hrest y hy).symm
  rw [rlePairs, List.splitBy_append hdiff, hsplit, List.flatMap_append, List.flatMap_singleton, ← rlePairs]

theorem groupPairs_replicate {n : Nat} (hn : n ≠ 0) (v : Byte) :
    groupPairs (List.replicate n v) =
      (List.replicate (n / 255) [v, 255#8]).flatten ++ if n % 255 = 0 then [] else [v, BitVec.ofNat 8 (n % 255)] := by
  obtain ⟨m, rfl⟩ := Nat.exists_eq_succ_of_ne_zero hn
  rw [List.replicate_succ, groupPairs, ← List.replicate_succ, List.length_replicate]

/-- A run that one pair holds. -/
theorem groupPairs_replicate_of_le {n : Nat} (hn : n ≠ 0) (hle : n ≤ 255) (v : Byte) :
    groupPairs (List.replicate n v) = [v, BitVec.ofNat 8 n] := by
  rw [groupPairs_replicate hn]
  rcases Nat.lt_or_eq_of_le hle with hlt | rfl
  · rw [Nat.div_eq_of_lt hlt, Nat.mod_eq_of_lt hlt, if_neg hn]
    rfl
  · rfl

/-- A longer run begins with a pair of count 255. -/
theorem groupPairs_replicate_add (v : Byte) {n : Nat} (hn : n ≠ 0) :
    groupPairs (List.replicate (255 + n) v) = [v, 255#8] ++ groupPairs (List.replicate n v) := by
  rw [groupPairs_replicate (by omega), groupPairs_replicate hn, Nat.add_mod_left, Nat.add_div_left n (by decide),
    List.replicate_succ, List.flatten_cons, List.append_assoc]

/-- Every nonempty input begins with a maximal run. -/
theorem exists_run (v : Byte) (bs : List Byte) :
    ∃ n rest, n ≠ 0 ∧ v :: bs = List.replicate n v ++ rest ∧ ∀ c ∈ rest.head?, c ≠ v := by
  induction bs with
  | nil => exact ⟨1, [], one_ne_zero, rfl, by simp⟩
  | cons b bs ih =>
    by_cases hb : b = v
    · subst hb
      obtain ⟨n, rest, hn, heq, hrest⟩ := ih
      exact ⟨n + 1, rest, Nat.succ_ne_zero n, by rw [heq, List.replicate_succ, List.cons_append], hrest⟩
    · exact ⟨1, b :: bs, one_ne_zero, rfl, by simpa using hb⟩

/-- A run of up to 255 bytes that ends, or that fills its pair, has its pair in front (40_rle_encode.md R122). -/
theorem rlePairs_first_pair {n : Nat} {v : Byte} {rest : List Byte} (hn : n ≠ 0) (hle : n ≤ 255)
    (hflush : (∀ c ∈ rest.head?, c ≠ v) ∨ n = 255) :
    rlePairs (List.replicate n v ++ rest) = [v, BitVec.ofNat 8 n] ++ rlePairs rest := by
  by_cases hrest : ∀ c ∈ rest.head?, c ≠ v
  · rw [rlePairs_replicate_append hn hrest, groupPairs_replicate_of_le hn hle]
  · obtain rfl := hflush.resolve_left hrest
    cases rest with
    | nil => simp at hrest
    | cons c rest =>
      obtain rfl : c = v := by simpa using hrest
      obtain ⟨k, rest', hk, heq, hrest'⟩ := exists_run c rest
      rw [heq, ← List.append_assoc, ← List.replicate_add, rlePairs_replicate_append (by omega) hrest',
        groupPairs_replicate_add c hk, List.append_assoc, ← rlePairs_replicate_append hk hrest']

/-- The first pair of an input. -/
theorem exists_first_pair {bs : List Byte} (hbs : bs ≠ []) :
    ∃ v n rest, n ≠ 0 ∧ n ≤ 255 ∧ bs = List.replicate n v ++ rest ∧
      rlePairs bs = [v, BitVec.ofNat 8 n] ++ rlePairs rest := by
  obtain ⟨v, bs, rfl⟩ := List.exists_cons_of_ne_nil hbs
  obtain ⟨n, rest, hn, heq, hrest⟩ := exists_run v bs
  rcases Nat.le_total n 255 with hle | hge
  · exact ⟨v, n, rest, hn, hle, heq, by rw [heq, rlePairs_first_pair hn hle (.inl hrest)]⟩
  · obtain ⟨k, rfl⟩ := Nat.exists_eq_add_of_le hge
    rw [List.replicate_add, List.append_assoc] at heq
    exact ⟨v, 255, List.replicate k v ++ rest, by decide, le_rfl, heq, by
      rw [heq, rlePairs_first_pair (by decide) le_rfl (.inr rfl)]⟩

end Sys2Proof
end

section
/-! Whole runs, from START to FINISH (30_encoding.md R107; 44_framing_commands.md section 2). -/

namespace Sys2Proof.Machine

/-! ### The bytes of a sequence of commands -/

theorem pushes_append (bs cs : List Byte) : pushes (bs ++ cs) = pushes bs ++ pushes cs := List.map_append

theorem pushedBytes_append {cmds : List Instr} (hcmds : ∀ i ∈ cmds, FeedInstr i) (cmds' : List Instr) :
    pushedBytes (cmds ++ cmds') = pushedBytes cmds ++ pushedBytes cmds' := by
  induction cmds with
  | nil => rfl
  | cons i cmds ih =>
    obtain ⟨hhead, htail⟩ := List.forall_mem_cons.mp hcmds
    rcases hhead with rfl | ⟨b, rfl⟩
    · exact ih htail
    · exact congrArg (b :: ·) (ih htail)

theorem feed_feedInstr (chunk : List Byte) : ∀ i ∈ feed chunk, FeedInstr i :=
  List.forall_mem_append.mpr ⟨forall_mem_pushes (fun b => .inr ⟨b, rfl⟩) chunk, by simp [FeedInstr]⟩

theorem feeds_feedInstr (chunks : List (List Byte)) : ∀ i ∈ chunks.flatMap feed, FeedInstr i := by
  intro i hi
  obtain ⟨chunk, -, hi⟩ := List.mem_flatMap.mp hi
  exact feed_feedInstr chunk i hi

theorem pushedBytes_feed (chunk : List Byte) : pushedBytes (feed chunk) = chunk := by
  induction chunk with
  | nil => rfl
  | cons b chunk ih => exact congrArg (b :: ·) ih

theorem pushedBytes_feeds (chunks : List (List Byte)) : pushedBytes (chunks.flatMap feed) = chunks.flatten := by
  induction chunks with
  | nil => rfl
  | cons chunk chunks ih =>
    rw [List.flatMap_cons, pushedBytes_append (feed_feedInstr chunk), pushedBytes_feed, ih, List.flatten_cons]

/-! ### Runs -/

@[simp] theorem start_mode (m : Mode) (s : State) : (start m s).mode = m := by
  cases m <;> rfl

/-- A run of any mode but LZ_ENC is START, the PUSH of each byte and FINISH. -/
theorem execAll_run {m : Mode} (hm : m ≠ .lzEnc) {cmds : List Instr} (hcmds : ∀ i ∈ cmds, FeedInstr i)
    {s t u : State} (hpush : execAll (pushes (pushedBytes cmds)) (start m s) = .next t)
    (hfinish : exec .finish t = .next u) : execAll (startInstr m :: (cmds ++ [.finish])) s = .next u := by
  rw [← execAll_eq_pushes hcmds (by simpa using hm)] at hpush
  rw [execAll_start, execAll_append_of_next _ hpush, execAll_cons_of_next _ hfinish, execAll_nil]

theorem execAll_streamTrace {m : Mode} (hm : m ≠ .lzEnc) {chunks : List (List Byte)} {s t u : State}
    (hpush : execAll (pushes chunks.flatten) (start m s) = .next t) (hfinish : exec .finish t = .next u) :
    execAll (streamTrace m chunks) s = .next u :=
  execAll_run hm (feeds_feedInstr chunks) (by rwa [pushedBytes_feeds]) hfinish

/-! ### The RLE encoder -/

/-- The bytes of the open run, not yet emitted. -/
def openBytes (s : State) : List Byte := if s.runOpen = true then List.replicate s.runLen.toNat s.runValue else []

/-- An encoder that has received `bs`: its output and its open run have the pairs of `bs`, whatever comes after. -/
structure RleEncoding (out bs : List Byte) (s : State) : Prop where
  phase : s.phase = .body
  mode : s.mode = .rleEnc
  err : s.err = .noError
  runLen : s.runOpen = true → s.runLen ≠ 0#8
  pairs : ∀ cs, s.out ++ rlePairs (openBytes s ++ cs) = out ++ rlePairs (bs ++ cs)

theorem start_rleEncoding (s : State) : RleEncoding (s.out ++ [0x52#8]) [] (start .rleEnc s) :=
  ⟨rfl, rfl, rfl, nofun, fun _ => rfl⟩

theorem openBytes_of_open {s : State} (ho : s.runOpen = true) :
    openBytes s = List.replicate s.runLen.toNat s.runValue := if_pos ho

/-- The pair of an open run, when the next byte ends it or it is full. -/
theorem rlePairs_openBytes {s : State} (ho : s.runOpen = true) (hlen : s.runLen ≠ 0#8) {cs : List Byte}
    (hflush : (∀ c ∈ cs.head?, c ≠ s.runValue) ∨ s.runLen.toNat = 255) :
    rlePairs (openBytes s ++ cs) = [s.runValue, s.runLen] ++ rlePairs cs := by
  have hne : s.runLen.toNat ≠ 0 := mt (byte_eq_zero_iff _).mpr hlen
  have hle : s.runLen.toNat ≤ 255 := Nat.le_of_lt_succ (byte_toNat_lt _)
  have hbyte : BitVec.ofNat 8 s.runLen.toNat = s.runLen := BitVec.eq_of_toNat_eq (byte_ofNat_toNat (byte_toNat_lt _))
  rw [openBytes_of_open ho, rlePairs_first_pair hne hle hflush, hbyte]

theorem openBytes_openRun (b : Byte) (s : State) : openBytes (openRun b s) = [b] := rfl

/-- A run that does not extend is flushed: the byte is another, or the run is full. -/
theorem flushes_of_extend_eq_false {b : Byte} {s : State} (ho : s.runOpen = true) (he : extend b s = false) :
    b ≠ s.runValue ∨ s.runLen.toNat = 255 := by
  by_contra hc
  obtain ⟨hb, hlen⟩ := not_or.mp hc
  have hlt : s.runLen.toNat < 255 := by
    have := byte_toNat_lt s.runLen
    omega
  rw [extend_eq_true.mpr ⟨ho, not_not.mp hb, hlt⟩] at he
  cases he

theorem RleEncoding.push {out bs : List Byte} {s : State} (h : RleEncoding out bs s) (b : Byte) :
    RleEncoding out (bs ++ [b]) (rleEncPushed b s) := by
  obtain ⟨hp, hm, herr, hlen, hpairs⟩ := h
  have hpairs (cs : List Byte) : s.out ++ rlePairs (openBytes s ++ b :: cs) = out ++ rlePairs (bs ++ [b] ++ cs) := by
    rw [hpairs, List.append_assoc, List.singleton_append]
  cases ho : s.runOpen with
  | false =>
    have hnil : openBytes s = [] := by simp [openBytes, ho]
    rw [rleEncPushed_of_closed b ho]
    refine ⟨hp, hm, herr, fun _ => by simp, fun cs => ?_⟩
    rw [← hpairs, openBytes_openRun, hnil]
    rfl
  | true =>
    cases he : extend b s with
    | true =>
      obtain ⟨-, hb, hlt⟩ := extend_eq_true.mp he
      have hnext := byte_toNat_add_one hlt
      rw [rleEncPushed_of_extend he]
      refine ⟨hp, hm, herr, fun _ => ?_, fun cs => ?_⟩
      · rw [ne_eq, byte_eq_zero_iff, hnext]
        exact Nat.succ_ne_zero _
      · have hgrown : openBytes { s with runLen := s.runLen + 1#8 } = openBytes s ++ [b] := by
          rw [openBytes_of_open (s := s) ho, hb, ← List.replicate_succ', ← hnext]
          exact openBytes_of_open ho
        rw [← hpairs, hgrown, List.append_assoc, List.singleton_append]
    | false =>
      rw [rleEncPushed_of_flush ho he]
      refine ⟨hp, hm, herr, fun _ => by simp, fun cs => ?_⟩
      rw [← hpairs, rlePairs_openBytes ho (hlen ho) (by simpa using flushes_of_extend_eq_false ho he),
        openBytes_openRun, ← List.append_assoc]
      rfl

theorem execAll_pushes_rleEncoding {out bs : List Byte} {s : State} (h : RleEncoding out bs s) (cs : List Byte) :
    ∃ t, execAll (pushes cs) s = .next t ∧ RleEncoding out (bs ++ cs) t := by
  induction cs generalizing s bs with
  | nil => exact ⟨s, rfl, by rwa [List.append_nil]⟩
  | cons c cs ih =>
    obtain ⟨t, ht, henc⟩ := ih (h.push c)
    exact ⟨t, (execAll_cons_of_next _ (exec_push_rleEnc c h.phase h.mode)).trans ht, by simpa using henc⟩

/-- FINISH emits the pair of the open run, which is the last one. -/
theorem RleEncoding.finish {out bs : List Byte} {s : State} (h : RleEncoding out bs s) :
    ∃ t, exec .finish s = .next t ∧ t.phase = .done ∧ t.err = .noError ∧ t.out = out ++ rlePairs bs := by
  obtain ⟨hp, hm, herr, hlen, hpairs⟩ := h
  refine ⟨_, exec_finish_rleEnc hp hm, rfl, herr, ?_⟩
  have hend := hpairs []
  rw [List.append_nil bs] at hend
  rw [← hend]
  cases ho : s.runOpen with
  | false => simp [openBytes, ho]
  | true => rw [rlePairs_openBytes ho (hlen ho) (.inl (by simp))]; simp

/-- A whole encoding run, whatever its chunks. -/
theorem rleEncoding_run {cmds : List Instr} (hcmds : ∀ i ∈ cmds, FeedInstr i) (s : State) :
    ∃ t, execAll (.startRleEnc :: (cmds ++ [.finish])) s = .next t ∧ t.phase = .done ∧ t.err = .noError ∧
      t.out = s.out ++ 0x52#8 :: rlePairs (pushedBytes cmds) := by
  obtain ⟨t, ht, henc⟩ := execAll_pushes_rleEncoding (start_rleEncoding s) (pushedBytes cmds)
  obtain ⟨u, hu, hp, herr, hout⟩ := henc.finish
  exact ⟨u, execAll_run (m := .rleEnc) nofun hcmds ht hu, hp, herr, by simpa using hout⟩

/-- Settles O20: by the encoder's invariant, PUSH by PUSH. -/
theorem rleEncodingIsThePairsOfMaximalRuns : Obligations.RleEncodingIsThePairsOfMaximalRuns := by
  intro s chunks
  obtain ⟨t, ht, hp, herr, hout⟩ := rleEncoding_run (feeds_feedInstr chunks) s
  exact ⟨t, ht, hp, herr, by rw [hout, pushedBytes_feeds]⟩

/-! ### The RLE decoder -/

/-- A decoder between two pairs that has emitted `out`. -/
structure RleDecoding (out : List Byte) (s : State) : Prop where
  phase : s.phase = .body
  mode : s.mode = .rleDec
  resLen : s.resLen = 0
  out_eq : s.out = out

/-- The decoder expands the pairs of `bs` to `bs`, one pair at a time. -/
theorem execAll_pushes_rlePairs (bs : List Byte) {out : List Byte} {s : State} (h : RleDecoding out s) :
    ∃ t, execAll (pushes (rlePairs bs)) s = .next t ∧ RleDecoding (out ++ bs) t := by
  obtain ⟨k, hk⟩ : ∃ k, bs.length ≤ k := ⟨_, le_rfl⟩
  induction k generalizing bs out s with
  | zero =>
    obtain rfl : bs = [] := List.length_eq_zero_iff.mp (Nat.le_zero.mp hk)
    exact ⟨s, rfl, by rwa [List.append_nil]⟩
  | succ k ih =>
    rcases eq_or_ne bs [] with rfl | hbs
    · exact ⟨s, rfl, by rwa [List.append_nil]⟩
    · obtain ⟨v, n, rest, hn, hle, rfl, hpairs⟩ := exists_first_pair hbs
      obtain ⟨hp, hm, hr, hout⟩ := h
      have hcount : (BitVec.ofNat 8 n : Byte).toNat = n := byte_ofNat_toNat (Nat.lt_succ_of_le hle)
      have hne : (BitVec.ofNat 8 n : Byte) ≠ 0#8 := by rwa [ne_eq, byte_eq_zero_iff, hcount]
      have hpair := (rlePairUnitExpandsToItsRun s v (BitVec.ofNat 8 n) hp hm hr).1 hne
      rw [exec_unit (by simp [unitBytes]), hcount] at hpair
      have hexpanded : RleDecoding (out ++ List.replicate n v)
          { s with out := s.out ++ List.replicate n v, res0 := v } := ⟨hp, hm, hr, by rw [hout]⟩
      have hshorter : rest.length ≤ k := by
        rw [List.length_append, List.length_replicate] at hk
        omega
      obtain ⟨t, ht, hdec⟩ := ih rest hexpanded hshorter
      refine ⟨t, ?_, by rwa [← List.append_assoc]⟩
      rw [hpairs, pushes_append]
      exact (execAll_append_of_next _ hpair).trans ht

theorem start_rleDecoding (s : State) :
    ∃ t, exec (.push 0x52#8) (start .rleDec s) = .next t ∧ RleDecoding s.out t :=
  ⟨_, exec_push_header _ rfl, rfl, rfl, rfl, rfl⟩

/-- Settles O21: the encoding is the pairs of the pushed bytes, which the decoder expands. -/
theorem rleDecodingInvertsEncoding : Obligations.RleDecodingInvertsEncoding := by
  intro s u cmds hcmds
  obtain ⟨t, ht, hp, -, hout⟩ := rleEncoding_run hcmds s
  refine ⟨t, _, ht, hp, hout, fun chunks hchunks => ?_⟩
  obtain ⟨u', hmagic, hdec⟩ := start_rleDecoding u
  obtain ⟨w, hw, hp', hm', hr', hout'⟩ := execAll_pushes_rlePairs (pushedBytes cmds) hdec
  have hfinish := (decoderFinishChecksTheResidue w hp' (.inl hm')).2 hr'
  have hpush : execAll (pushes chunks.flatten) (start .rleDec u) = .next w := by
    rw [hchunks]
    exact (execAll_cons_of_next _ hmagic).trans hw
  exact ⟨_, execAll_streamTrace (by decide) hpush hfinish, rfl, hout'⟩

end Sys2Proof.Machine
end

section
/-! The history of an LZ decoder and the window of an LZ encoder (20_memory.md section 5), and the round trip: the
encoder emits tokens that, decoded against the same window, are the bytes encoded. -/

namespace Sys2Proof.Machine

/-! ### The decoder's history -/

/-- Every byte emitted from `s` to `t` enters the history. -/
def EmitsToWindow (s t : State) : Prop := ∃ bs, t.out = s.out ++ bs ∧ t.win = bs.foldl windowAppend s.win

theorem EmitsToWindow.of_eq {s t : State} (hout : t.out = s.out) (hwin : t.win = s.win) : EmitsToWindow s t :=
  ⟨[], by rw [hout, List.append_nil], hwin⟩

theorem EmitsToWindow.ite {c : Prop} [Decidable c] {s t u : State} (ht : EmitsToWindow s t)
    (hu : EmitsToWindow s u) : EmitsToWindow s (if c then t else u) := by
  split <;> assumption

theorem lzDecPushed_emitsToWindow (b : Byte) (s : State) : EmitsToWindow s (lzDecPushed b s) :=
  .ite (.ite (.of_eq rfl rfl) (.of_eq rfl rfl))
    (.ite (.ite ⟨[b], rfl, rfl⟩ (.of_eq rfl rfl)) (.ite (.of_eq rfl rfl) ⟨_, rfl, rfl⟩))

theorem pushed_emitsToWindow (v : Variant) (b : Byte) {s : State} (hm : s.mode = .lzDec) :
    EmitsToWindow s (pushed v b s) := by
  have other {m : Mode} {P : Prop} (hne : m ≠ .lzDec) (h : s.mode = m) : P := absurd (h.symm.trans hm) hne
  exact pushed_cases v b s (fun _ => .of_eq rfl rfl) (fun _ => .ite (.of_eq rfl rfl) (.of_eq rfl rfl))
    (fun _ => other (by decide)) (fun _ => other (by decide)) (fun _ => other (by decide))
    fun _ _ => lzDecPushed_emitsToWindow b s

/-- An LZ decoder that has emitted `bs` after `out`. -/
structure LzHistory (out bs : List Byte) (s : State) : Prop where
  mode : s.mode = .lzDec
  out_eq : s.out = out ++ bs
  win_eq : s.win = lastWindow bs

theorem LzHistory.push {out bs : List Byte} {s : State} (h : LzHistory out bs s) (v : Variant) (b : Byte) :
    ∃ bs', LzHistory out bs' (pushed v b s) := by
  obtain ⟨cs, hout, hwin⟩ := pushed_emitsToWindow v b h.mode
  refine ⟨bs ++ cs, (pushed_framed v b s).mode.trans h.mode, by rw [hout, h.out_eq, List.append_assoc], ?_⟩
  rw [hwin, h.win_eq, foldl_windowAppend_eq_lastWindow (lastWindow_length_le bs), lastWindow_lastWindow_append]

theorem LzHistory.exec {out bs : List Byte} {s t : State} (h : LzHistory out bs s) {i : Instr} (hi : FeedInstr i)
    (hexec : exec i s = .next t) : ∃ bs', LzHistory out bs' t := by
  rcases hi with rfl | ⟨b, rfl⟩
  · cases (exec_eoc_of_mode_ne_lzEnc (by simp [h.mode])).symm.trans hexec
    exact ⟨bs, h⟩
  · rw [exec_push_eq, if_neg (by simp [h.mode])] at hexec
    cases hexec
    exact h.push _ b

/-- Settles O35: PUSH by PUSH; EOC changes nothing. -/
theorem decoderHistoryIsItsLastOutput : Obligations.DecoderHistoryIsItsLastOutput := by
  intro s t cmds hcmds h
  change execAll (startInstr .lzDec :: cmds) s = .next t at h
  rw [execAll_start] at h
  have hstart : ∃ bs, LzHistory s.out bs (start .lzDec s) := ⟨[], rfl, (List.append_nil _).symm, rfl⟩
  obtain ⟨bs, -, hout, hwin⟩ := execAll_induction (P := fun s' => ∃ bs, LzHistory s.out bs s')
    (fun i hi _ _ ⟨_, hbs⟩ hexec => hbs.exec (hcmds i hi) hexec) hstart h
  exact ⟨bs, hout, hwin⟩

/-! ### Tokens and what they decode to -/

/-- `LzTokens win enc bs`: decoded with the history `win`, the tokens of `enc` are `bs` (43_lz77_decode.md R191 to
R194). -/
inductive LzTokens : List Byte → List Byte → List Byte → Prop
  | nil (win : List Byte) : LzTokens win [] []
  | literal {win enc bs : List Byte} (b : Byte) (rest : LzTokens (windowAppend win b) enc bs) :
    LzTokens win (unitBytes (.lzLiteral b) ++ enc) (b :: bs)
  | copied {win enc bs : List Byte} {offset length : Byte} (ho : offset ≠ 0#8) (hl : length ≠ 0#8)
    (hw : offset.toNat ≤ win.length)
    (rest : LzTokens ((copyBytes offset.toNat length.toNat win).foldl windowAppend win) enc bs) :
    LzTokens win (unitBytes (.lzMatch offset length) ++ enc) (copyBytes offset.toNat length.toNat win ++ bs)

theorem LzTokens.append {win enc bs enc' bs' : List Byte} (h : LzTokens win enc bs)
    (h' : LzTokens (bs.foldl windowAppend win) enc' bs') : LzTokens win (enc ++ enc') (bs ++ bs') := by
  induction h with
  | nil win => exact h'
  | literal b rest ih =>
    rw [List.append_assoc]
    exact .literal b (ih h')
  | copied ho hl hw rest ih =>
    rw [List.append_assoc, List.append_assoc]
    refine .copied ho hl hw (ih ?_)
    rwa [← List.foldl_append]

/-- A copy that ends before it reaches its own bytes is a piece of the history. -/
theorem copyBytes_eq_take {offset length : Nat} {win : List Byte} (h1 : 1 ≤ offset) (ho : offset ≤ win.length)
    (hl : length ≤ offset) : copyBytes offset length win = (win.drop (win.length - offset)).take length := by
  apply List.ext_getElem?
  intro n
  rcases Nat.lt_or_ge n length with hn | hn
  · rw [copyBytes_getElem? h1 ho hn, List.getElem?_append_left (by omega), List.getElem?_take_of_lt hn,
      List.getElem?_drop]
  · rw [List.getElem?_eq_none (by rw [copyBytes_length]; exact hn),
      List.getElem?_eq_none ((List.length_take_le _ _).trans hn)]

/-- A Match of the search, copied, is the front of the look-ahead (42_lz77_encode.md R164). -/
theorem copyBytes_of_decideMatch {win la : List Byte} {offset length : Nat}
    (h : decideMatch false win la = some (offset, length)) : copyBytes offset length win = la.take length := by
  obtain ⟨h1, ho, -, -, hl⟩ := decideMatch_bounds h
  obtain ⟨i, hi, rfl, rfl, -⟩ := decideMatch_eq_some h
  have hcommon := take_commonPrefix (matchSource false win la i) la
  rw [copyBytes_eq_take h1 ho (hl rfl), Nat.sub_sub_self hi.le]
  simpa [matchSource, curLen] using hcommon

theorem tokenOut_tokens {v : Variant} (hv : v.overlapSearch = false) {win la : List Byte} (hla : la ≠ [])
    (hwin : win.length ≤ 20) (hlen : la.length ≤ 255) :
    LzTokens win (tokenOut v win la).1 (la.take (tokenOut v win la).2) := by
  cases hd : decideMatch v.overlapSearch win la with
  | none =>
    obtain ⟨b, rest, rfl⟩ := List.exists_cons_of_ne_nil hla
    rw [tokenOut_of_literal hd]
    exact .literal b (.nil _)
  | some p =>
    obtain ⟨offset, length⟩ := p
    obtain ⟨h1, ho, h3, hn, -⟩ := decideMatch_bounds hd
    have hoffset : (BitVec.ofNat 8 offset : Byte).toNat = offset := byte_ofNat_toNat (by omega)
    have hlength : (BitVec.ofNat 8 length : Byte).toNat = length := byte_ofNat_toNat (by omega)
    have hcopy := LzTokens.copied (win := win) (offset := BitVec.ofNat 8 offset) (length := BitVec.ofNat 8 length)
      (by rw [ne_eq, byte_eq_zero_iff, hoffset]; omega) (by rw [ne_eq, byte_eq_zero_iff, hlength]; omega)
      (by rwa [hoffset]) (.nil _)
    rw [hoffset, hlength, copyBytes_of_decideMatch (hv ▸ hd), List.append_nil, List.append_nil] at hcopy
    rw [tokenOut_of_match hd]
    exact hcopy

/-- The tokens of a whole chunk. -/
theorem drainOut_tokens {v : Variant} (hv : v.overlapSearch = false) (fuel : Nat) {win la : List Byte}
    (hwin : win.length ≤ 20) (hlen : la.length ≤ 255) (hf : la.length ≤ fuel) :
    LzTokens win (drainOut v fuel win la) la := by
  induction fuel generalizing win la with
  | zero =>
    obtain rfl : la = [] := List.length_eq_zero_iff.mp (Nat.le_zero.mp hf)
    exact .nil win
  | succ fuel ih =>
    rw [drainOut]
    split
    case isTrue hnil => rw [hnil]; exact .nil win
    case isFalse hla =>
      have hn := (tokenOut_bounds v win hla).1
      have hrest := ih (win := (la.take (tokenOut v win la).2).foldl windowAppend win)
        (la := la.drop (tokenOut v win la).2) (foldl_windowAppend_length_le hwin _)
        (by rw [List.length_drop]; omega) (by rw [List.length_drop]; omega)
      have hall := (tokenOut_tokens hv hla hwin hlen).append hrest
      rwa [List.take_append_drop] at hall

/-- The Literals of FINISH. -/
theorem literals_tokens (win la : List Byte) : LzTokens win (la.flatMap fun b => [0x00#8, b]) la := by
  induction la generalizing win with
  | nil => exact .nil win
  | cons b la ih => exact .literal b (ih _)

/-! ### The encoder -/

/-- Of the bytes `bs` received, those before the look-ahead are encoded by what is emitted after `out`, and the
window has received them. -/
structure LzEncoded (out bs : List Byte) (s : State) : Prop where
  exists_tokens : ∃ enc encoded, s.out = out ++ enc ∧ LzTokens [] enc encoded ∧
    s.win = encoded.foldl windowAppend [] ∧ bs = encoded ++ s.la

theorem LzEncoded.win_length_le {out bs : List Byte} {s : State} (h : LzEncoded out bs s) : s.win.length ≤ 20 := by
  obtain ⟨-, encoded, -, -, hwin, -⟩ := h
  rw [hwin]
  exact foldl_windowAppend_length_le (w := []) (Nat.zero_le 20) encoded

/-- Tokens of the front of the look-ahead are emitted, and it moves to the window. -/
theorem LzEncoded.emit {out bs enc front rest : List Byte} {s t : State} (h : LzEncoded out bs s)
    (hla : s.la = front ++ rest) (htokens : LzTokens s.win enc front) (hout : t.out = s.out ++ enc)
    (hrest : t.la = rest) (hwin : t.win = front.foldl windowAppend s.win) : LzEncoded out bs t := by
  obtain ⟨enc₀, encoded, hout₀, htokens₀, hwin₀, hbs⟩ := h
  rw [hwin₀] at htokens
  exact ⟨enc₀ ++ enc, encoded ++ front, by rw [hout, hout₀, List.append_assoc], htokens₀.append htokens,
    by rw [hwin, hwin₀, List.foldl_append], by rw [hbs, hla, hrest, List.append_assoc]⟩

theorem LzEncoded.receive {out bs : List Byte} {s : State} (h : LzEncoded out bs s) (b : Byte) :
    LzEncoded out (bs ++ [b]) { s with la := s.la ++ [b] } := by
  obtain ⟨enc, encoded, hout, htokens, hwin, hbs⟩ := h
  exact ⟨enc, encoded, hout, htokens, hwin, by rw [hbs, List.append_assoc]⟩

/-- A legal encoder that has received `bs`. -/
structure LzEncoding (out bs : List Byte) (s : State) : Prop where
  inv : Inv s
  phase : s.phase = .body
  mode : s.mode = .lzEnc
  encoded : LzEncoded out bs s

theorem start_lzEncoding (s : State) : LzEncoding (s.out ++ [0x4C#8]) [] (start .lzEnc s) :=
  ⟨start_inv _ _, rfl, rfl, [], [], (List.append_nil _).symm, .nil _, rfl, rfl⟩

@[simp] theorem lzEncPushed_phase (v : Variant) (b : Byte) (s : State) : (lzEncPushed v b s).phase = s.phase := by
  unfold lzEncPushed
  split <;> rfl

@[simp] theorem lzEncPushed_mode (v : Variant) (b : Byte) (s : State) : (lzEncPushed v b s).mode = s.mode := by
  unfold lzEncPushed
  split <;> rfl

theorem lzEncPushed_encoded {v : Variant} (hv : v.overlapSearch = false) {out bs : List Byte} {s : State}
    (h : LzEncoded out bs s) (b : Byte) : LzEncoded out (bs ++ [b]) (lzEncPushed v b s) := by
  have hreceived := h.receive b
  unfold lzEncPushed
  split
  case isFalse => exact hreceived
  case isTrue hfull =>
    have htokens := tokenOut_tokens hv (la := s.la ++ [b]) (by simp) h.win_length_le (by simp [hfull])
    exact hreceived.emit (List.take_append_drop _ _).symm htokens rfl rfl rfl

theorem LzEncoding.push {out bs : List Byte} {s : State} (h : LzEncoding out bs s) (b : Byte) :
    ∃ t, exec (.push b) s = .next t ∧ LzEncoding out (bs ++ [b]) t := by
  obtain ⟨hinv, hp, hm, henc⟩ := h
  have hpushed : pushed Config.hw.variant b s = lzEncPushed Config.hw.variant b s := by simp only [pushed, hp, hm]
  have hinv' := pushed_inv Config.hw.variant b hinv
  rw [hpushed] at hinv'
  exact ⟨_, (exec_push_of_inv b hinv).trans (congrArg _ hpushed), hinv', by simpa using hp, by simpa using hm,
    lzEncPushed_encoded rfl henc b⟩

theorem LzEncoding.eoc {out bs : List Byte} {s : State} (h : LzEncoding out bs s) :
    ∃ t, exec .eoc s = .next t ∧ LzEncoding out bs t := by
  obtain ⟨hinv, hp, hm, henc⟩ := h
  obtain ⟨-, hla, -⟩ := id hinv
  have hinv' := chunkEnded_inv Config.hw.variant hinv
  have htokens := drainOut_tokens (v := Config.hw.variant) rfl s.la.length henc.win_length_le hla.le le_rfl
  have hend := chunkEnded_of_lzEnc Config.hw.variant hp hm
  rw [hend] at hinv'
  exact ⟨_, (exec_eoc_eq s).trans (congrArg _ hend), hinv', hp, hm,
    henc.emit (List.append_nil _).symm htokens rfl rfl rfl⟩

theorem execAll_lzEncoding {cmds : List Instr} (hcmds : ∀ i ∈ cmds, FeedInstr i) {out bs : List Byte} {s : State}
    (h : LzEncoding out bs s) : ∃ t, execAll cmds s = .next t ∧ LzEncoding out (bs ++ pushedBytes cmds) t := by
  induction cmds generalizing bs s with
  | nil => exact ⟨s, rfl, by rwa [pushedBytes, List.append_nil]⟩
  | cons i cmds ih =>
    obtain ⟨hhead, htail⟩ := List.forall_mem_cons.mp hcmds
    rcases hhead with rfl | ⟨b, rfl⟩
    · obtain ⟨t, ht, henc⟩ := h.eoc
      rw [execAll_cons_of_next _ ht]
      exact ih htail henc
    · obtain ⟨t, ht, henc⟩ := h.push b
      rw [execAll_cons_of_next _ ht, pushedBytes, List.append_cons]
      exact ih htail henc

theorem execAll_startLzEnc {cmds : List Instr} (hcmds : ∀ i ∈ cmds, FeedInstr i) (s : State) :
    ∃ t, execAll (.startLzEnc :: cmds) s = .next t ∧ LzEncoding (s.out ++ [0x4C#8]) (pushedBytes cmds) t := by
  obtain ⟨t, ht, henc⟩ := execAll_lzEncoding hcmds (start_lzEncoding s)
  exact ⟨t, (execAll_start .lzEnc cmds s).trans ht, henc⟩

/-- Settles O36: by the encoder's invariant, command by command. -/
theorem encoderWindowIsItsLastEncodedInput : Obligations.EncoderWindowIsItsLastEncodedInput := by
  intro s cmds hcmds
  obtain ⟨t, ht, -, -, -, -, encoded, -, -, hwin, hbs⟩ := execAll_startLzEnc hcmds s
  exact ⟨t, encoded, ht, hbs, hwin.trans (foldl_windowAppend_eq_lastWindow (w := []) (Nat.zero_le 20) encoded)⟩

/-- FINISH encodes what is left. -/
theorem LzEncoding.finish {out bs : List Byte} {s : State} (h : LzEncoding out bs s) :
    ∃ t enc, exec .finish s = .next t ∧ t.phase = .done ∧ t.out = out ++ enc ∧ LzTokens [] enc bs := by
  obtain ⟨-, hp, hm, henc⟩ := h
  have hend := finished_lzEnc Config.hw.variant hp hm
  have hfinished : LzEncoded out bs (finished Config.hw.variant s) := by
    rw [hend]
    exact henc.emit (List.append_nil _).symm (literals_tokens _ _) rfl rfl rfl
  have hla : (finished Config.hw.variant s).la = [] := by rw [hend]
  obtain ⟨enc, encoded, hout, htokens, -, hbs⟩ := hfinished
  rw [hla, List.append_nil] at hbs
  exact ⟨_, enc, exec_finish_eq s, by rw [hend], hout, hbs ▸ htokens⟩

/-! ### The decoder -/

/-- A decoder between two tokens that has emitted `out` and holds `win`. -/
structure LzDecoding (out win : List Byte) (s : State) : Prop where
  phase : s.phase = .body
  mode : s.mode = .lzDec
  resLen : s.resLen = 0
  out_eq : s.out = out
  win_eq : s.win = win

theorem LzDecoding.literal {out win : List Byte} {s : State} (h : LzDecoding out win s) (b : Byte) :
    ∃ t, execAll (pushes (unitBytes (.lzLiteral b))) s = .next t ∧
      LzDecoding (out ++ [b]) (windowAppend win b) t := by
  obtain ⟨hp, hm, hr, rfl, rfl⟩ := h
  exact ⟨_, (exec_unit (i := .lzLiteral b) nofun s).symm.trans (exec_lzLiteral b hp hm hr), hp, hm, hr, rfl, rfl⟩

theorem LzDecoding.copied {out win : List Byte} {s : State} (h : LzDecoding out win s) {offset length : Byte}
    (ho : offset ≠ 0#8) (hl : length ≠ 0#8) (hw : offset.toNat ≤ win.length) :
    ∃ t, execAll (pushes (unitBytes (.lzMatch offset length))) s = .next t ∧
      LzDecoding (out ++ copyBytes offset.toNat length.toNat win)
        ((copyBytes offset.toNat length.toNat win).foldl windowAppend win) t := by
  obtain ⟨hp, hm, hr, rfl, rfl⟩ := h
  exact ⟨_, (exec_unit (i := .lzMatch offset length) nofun s).symm.trans
    (exec_lzMatch_of_legal hp hm hr ho hl hw), hp, hm, hr, rfl, rfl⟩

/-- The decoder emits what the tokens decode to. -/
theorem execAll_pushes_lzTokens {win enc bs : List Byte} (h : LzTokens win enc bs) {out : List Byte} {s : State}
    (hs : LzDecoding out win s) :
    ∃ t, execAll (pushes enc) s = .next t ∧ LzDecoding (out ++ bs) (bs.foldl windowAppend win) t := by
  induction h generalizing out s with
  | nil win => exact ⟨s, rfl, by rwa [List.append_nil]⟩
  | literal b rest ih =>
    obtain ⟨s', hunit, hs'⟩ := hs.literal b
    obtain ⟨t, ht, hdec⟩ := ih hs'
    rw [pushes_append, execAll_append_of_next _ hunit]
    exact ⟨t, ht, by simpa using hdec⟩
  | copied ho hl hw rest ih =>
    obtain ⟨s', hunit, hs'⟩ := hs.copied ho hl hw
    obtain ⟨t, ht, hdec⟩ := ih hs'
    rw [pushes_append, execAll_append_of_next _ hunit]
    exact ⟨t, ht, by simpa using hdec⟩

theorem start_lzDecoding (s : State) :
    ∃ t, exec (.push 0x4C#8) (start .lzDec s) = .next t ∧ LzDecoding s.out [] t :=
  ⟨_, exec_push_header _ rfl, rfl, rfl, rfl, rfl, rfl⟩

/-- Settles O52: the encoder's tokens decode to the pushed bytes. -/
theorem lzDecodingInvertsEncoding : Obligations.LzDecodingInvertsEncoding := by
  intro s u cmds hcmds
  obtain ⟨s', hs', henc⟩ := execAll_startLzEnc hcmds s
  obtain ⟨t, enc, ht, hp, hout, htokens⟩ := henc.finish
  refine ⟨t, 0x4C#8 :: enc, ?_, hp, by rw [hout, List.append_assoc, List.singleton_append], fun chunks hchunks => ?_⟩
  · rw [List.cons_append, ← List.cons_append, execAll_append_of_next _ hs', execAll_cons_of_next _ ht, execAll_nil]
  · obtain ⟨u', hmagic, hdec⟩ := start_lzDecoding u
    obtain ⟨w, hw, hp', hm', hr', hout', -⟩ := execAll_pushes_lzTokens htokens hdec
    have hfinish := (decoderFinishChecksTheResidue w hp' (.inr hm')).2 hr'
    have hpush : execAll (pushes chunks.flatten) (start .lzDec u) = .next w := by
      rw [hchunks]
      exact (execAll_cons_of_next _ hmagic).trans hw
    exact ⟨_, execAll_streamTrace (by decide) hpush hfinish, rfl, hout'⟩

end Sys2Proof.Machine
end

section
/-! The port level (44_framing_commands.md section 3): what one edge can do, said once, and what it keeps. -/

namespace Sys2Proof.Machine

/-! ### The status that is shown -/

@[simp] theorem PortState.settle_core (p : PortState) : p.settle.core = p.core := by unfold settle; split <;> rfl
@[simp] theorem PortState.settle_pending (p : PortState) : p.settle.pending = p.pending := by
  unfold settle; split <;> rfl
@[simp] theorem PortState.settle_staged (p : PortState) : p.settle.staged = p.staged := by
  unfold settle; split <;> rfl

theorem PortState.settle_shown_of_nil {p : PortState} (h : p.staged = []) : p.settle.shown = p.core.status := by
  simp [settle, h]

theorem PortState.settle_shown_of_ne_nil {p : PortState} (h : p.staged ≠ []) : p.settle.shown = p.shown := by
  simp [settle, h]

@[simp] theorem PortState.settle_transaction (p : PortState) : p.settle.transaction = p.transaction := by
  unfold settle; split <;> rfl

theorem PortState.outValid_iff (p : PortState) : p.outValid = true ↔ p.staged ≠ [] := by
  simp [outValid]

/-! ### One edge -/

/-- `p` once its command has led to `t`: the bytes of the command wait. -/
def PortState.executed (t : State) (p : PortState) : PortState :=
  PortState.settle
    { p with core := { t with out := p.core.out }, pending := none, staged := t.out.drop p.core.out.length }

/-- `p` once its first byte `b` is transferred and `rest` still waits. -/
def PortState.transferred (b : Byte) (rest : List Byte) (p : PortState) : PortState :=
  PortState.settle { p with core := emitAll [b] p.core, staged := rest }

/-- What an edge without `rst` can do (44_framing_commands.md R228; log 15). -/
inductive EdgeStep (x : PortIn) (p : PortState) : PortState → Prop
  | work {w : CommandWord} {n : Nat} (hpending : p.pending = some w) (hwork : p.work = n + 1) :
    EdgeStep x p { p with work := n }
  | execute {w : CommandWord} {t : State} (hpending : p.pending = some w) (hwork : p.work = 0)
    (hexec : exec (decodeCommand w) p.core = .next t) : EdgeStep x p (p.executed t)
  | transfer {b : Byte} {rest : List Byte} (hpending : p.pending = none) (hstaged : p.staged = b :: rest)
    (hready : x.outReady = true) : EdgeStep x p (p.transferred b rest)
  | wait (hpending : p.pending = none) (hstaged : p.staged ≠ []) (hready : x.outReady = false) : EdgeStep x p p
  | accept (hready : p.cmdReady = true) (hvalid : x.cmdValid = true) :
    EdgeStep x p { p with pending := some (commandWord x.cmdOp x.cmdData), work := x.work }
  | idle (hready : p.cmdReady = true) (hvalid : x.cmdValid = false) : EdgeStep x p p

theorem PortState.execute_of_next {p : PortState} {w : CommandWord} {t : State}
    (h : exec (decodeCommand w) p.core = .next t) : p.execute w = .next (p.executed t) := by
  simp only [PortState.execute, h, PortState.executed]

/-- From a legal port state every edge without `rst` does one of these. -/
theorem exists_edgeStep {x : PortIn} {p : PortState} (hinv : Inv p.core) (hx : x.rst = false) :
    ∃ q, edge x p = .next q ∧ EdgeStep x p q := by
  cases hpending : p.pending with
  | some w =>
    cases hwork : p.work with
    | zero =>
      obtain ⟨t, ht, -⟩ := exec_of_inv (decodeCommand w) hinv
      refine ⟨_, ?_, .execute hpending hwork ht⟩
      rw [← PortState.execute_of_next ht]
      simp [edge, hx, hpending, hwork]
    | succ n => exact ⟨_, by simp [edge, hx, hpending, hwork], .work hpending hwork⟩
  | none =>
    cases hstaged : p.staged with
    | nil =>
      have hready := p.cmdReady_iff.mpr ⟨hpending, hstaged⟩
      rw [edge_of_cmdReady hx hready]
      cases hvalid : x.cmdValid with
      | true => exact ⟨_, congrArg _ (if_pos rfl), .accept hready hvalid⟩
      | false => exact ⟨_, congrArg _ (if_neg Bool.false_ne_true), .idle hready hvalid⟩
    | cons b rest =>
      cases hready : x.outReady with
      | true =>
        exact ⟨_, by simp [edge, hx, hpending, hstaged, hready, PortState.transferred],
          .transfer hpending hstaged hready⟩
      | false => exact ⟨p, by simp [edge, hx, hpending, hstaged, hready], .wait hpending (by simp [hstaged]) hready⟩

theorem edgeStep_of_edge {x : PortIn} {p q : PortState} (hinv : Inv p.core) (hx : x.rst = false)
    (h : edge x p = .next q) : EdgeStep x p q := by
  obtain ⟨q', hq', hstep⟩ := exists_edgeStep hinv hx
  cases h.symm.trans hq'
  exact hstep

/-! ### The transaction -/

theorem PortState.transaction_of_pending {p : PortState} {w : CommandWord} (h : p.pending = some w) :
    p.transaction = exec (decodeCommand w) p.core := by
  simp only [PortState.transaction, h]

theorem PortState.transaction_of_none {p : PortState} (h : p.pending = none) :
    p.transaction = .next (emitAll p.staged p.core) := by
  simp only [PortState.transaction, h]

/-- The waiting bytes are what the command emitted. -/
theorem PortState.executed_transaction {w : CommandWord} {p : PortState} {t : State}
    (h : exec (decodeCommand w) p.core = .next t) : (p.executed t).transaction = .next t := by
  obtain ⟨bs, hbs⟩ := exec_emits h
  rw [executed, settle_transaction, transaction_of_none rfl]
  simp [emitAll, hbs, State.ext_iff]

theorem PortState.transferred_transaction {b : Byte} {rest : List Byte} {p : PortState} (hpending : p.pending = none)
    (hstaged : p.staged = b :: rest) : (p.transferred b rest).transaction = p.transaction := by
  rw [transferred, settle_transaction, transaction_of_none (p := p) hpending, hstaged]
  refine Eq.trans (transaction_of_none hpending) ?_
  rw [emitAll_append, List.singleton_append]

theorem PortState.not_cmdReady_of_pending {p : PortState} {w : CommandWord} (h : p.pending = some w) :
    p.cmdReady = false := by
  simp [cmdReady, h]

theorem PortState.not_cmdReady_of_staged {p : PortState} (h : p.staged ≠ []) : p.cmdReady = false := by
  simp [cmdReady, h]

theorem EdgeStep.transaction {x : PortIn} {p q : PortState} (h : EdgeStep x p q) :
    q.transaction =
      if p.cmdReady = true ∧ x.cmdValid = true then exec (decodeCommand (commandWord x.cmdOp x.cmdData)) p.core
      else p.transaction := by
  cases h with
  | work hpending hwork =>
    rw [if_neg (by simp [PortState.not_cmdReady_of_pending hpending]),
      PortState.transaction_of_pending (p := p) hpending]
    exact PortState.transaction_of_pending hpending
  | execute hpending hwork hexec =>
    rw [if_neg (by simp [PortState.not_cmdReady_of_pending hpending]), PortState.transaction_of_pending hpending,
      PortState.executed_transaction hexec, hexec]
  | transfer hpending hstaged hready =>
    rw [if_neg (by simp [PortState.not_cmdReady_of_staged, hstaged]),
      PortState.transferred_transaction hpending hstaged]
  | wait hpending hstaged hready => rw [if_neg (by simp [PortState.not_cmdReady_of_staged hstaged])]
  | accept hready hvalid => rw [if_pos ⟨hready, hvalid⟩, PortState.transaction_of_pending rfl]
  | idle hready hvalid => rw [if_neg (by simp [hvalid])]

/-- Settles O54: by what the edge does. -/
theorem portEdgesRefineCommands : Obligations.PortEdgesRefineCommands :=
  fun _ _ _ hp hx h => (edgeStep_of_edge hp.1 hx h).transaction

/-! ### The invariant -/

theorem portInv_settle {p : PortState} (hinv : Inv p.core) (hpending : p.pending = none) : PortInv p.settle := by
  refine ⟨by simpa using hinv, fun h => absurd (by simpa using hpending) h, fun hready => ?_⟩
  obtain ⟨-, hstaged⟩ := p.settle.cmdReady_iff.mp hready
  rw [PortState.settle_staged] at hstaged
  rw [PortState.settle_shown_of_nil hstaged, PortState.settle_core]

theorem EdgeStep.portInv {x : PortIn} {p q : PortState} (hp : PortInv p) (h : EdgeStep x p q) : PortInv q := by
  obtain ⟨hinv, hstaged, hshown⟩ := id hp
  cases h with
  | work hpending hwork =>
    exact ⟨hinv, hstaged, fun hready => absurd hready (by simp [PortState.cmdReady, hpending])⟩
  | execute hpending hwork hexec =>
    have hnext := inv_of_exec hinv hexec
    exact portInv_settle hnext rfl
  | transfer hpending hstaged hready => exact portInv_settle hinv hpending
  | wait | idle => exact hp
  | accept hready hvalid => exact ⟨hinv, fun _ => (p.cmdReady_iff.mp hready).2, nofun⟩

/-- Settles O55: `rst` leads to the reset state, and any other edge keeps the invariant. -/
theorem portEdgesCompleteAndKeepTheInvariant : Obligations.PortEdgesCompleteAndKeepTheInvariant := by
  intro x p hp
  cases hx : x.rst with
  | true => exact ⟨_, edge_of_rst p hx, applyRst_inv p.core, fun _ => rfl, fun _ => rfl⟩
  | false =>
    obtain ⟨q, hq, hstep⟩ := exists_edgeStep hp.1 hx
    exact ⟨q, hq, hstep.portInv hp⟩

/-! ### When the status changes -/

theorem Phase.code_beq (a b : Phase) : (a.code == b.code) = (a == b) := by
  cases a <;> cases b <;> rfl

theorem PortState.doneLine_of_shown {p : PortState} (h : p.shown = p.core.status) :
    p.doneLine = p.core.doneLine := by
  rw [doneLine, h, State.status_phaseField, Phase.code_beq, State.doneLine]

theorem PortState.errorLine_of_shown {p : PortState} (h : p.shown = p.core.status) :
    p.errorLine = p.core.errorLine := by
  rw [errorLine, h, State.status_phaseField, Phase.code_beq, State.errorLine]

/-- The shown status changes where the last byte is gone. -/
theorem PortState.cmdReady_of_settle_shown_ne {p : PortState} (hpending : p.pending = none)
    (h : p.settle.shown ≠ p.shown) : p.settle.cmdReady = true := by
  have hstaged : p.staged = [] := not_not.mp fun hne => h (settle_shown_of_ne_nil hne)
  exact p.settle.cmdReady_iff.mpr ⟨by simpa using hpending, by simpa using hstaged⟩

theorem EdgeStep.shown_ne {x : PortIn} {p q : PortState} (h : EdgeStep x p q) (hne : q.shown ≠ p.shown) :
    p.cmdReady = false ∧ q.cmdReady = true := by
  cases h with
  | execute hpending hwork hexec =>
    exact ⟨PortState.not_cmdReady_of_pending hpending, PortState.cmdReady_of_settle_shown_ne rfl hne⟩
  | transfer hpending hstaged hready =>
    exact ⟨PortState.not_cmdReady_of_staged (by simp [hstaged]), PortState.cmdReady_of_settle_shown_ne hpending hne⟩
  | work | wait | accept | idle => exact absurd rfl hne

/-- A byte that waits has no command behind it. -/
theorem pending_eq_none_of_outValid {p : PortState} (hp : PortInv p) (h : p.outValid = true) : p.pending = none := by
  obtain ⟨-, hstaged, -⟩ := hp
  exact not_not.mp (mt hstaged (p.outValid_iff.mp h))

theorem EdgeStep.waits {x : PortIn} {p q : PortState} (hp : PortInv p) (h : EdgeStep x p q) (hvalid : p.outValid = true)
    (hready : x.outReady = false) : q = p := by
  have hnone := pending_eq_none_of_outValid hp hvalid
  have hne := p.outValid_iff.mp hvalid
  cases h with
  | work hpending | execute hpending => cases hnone.symm.trans hpending
  | transfer _ _ htrue => cases hready.symm.trans htrue
  | accept hcmd => exact absurd (p.cmdReady_iff.mp hcmd).2 hne
  | wait | idle => rfl

theorem EdgeStep.transfers {x : PortIn} {p q : PortState} (hp : PortInv p) (h : EdgeStep x p q)
    (hvalid : p.outValid = true) (hready : x.outReady = true) :
    ∃ b, p.outData = some b ∧ q.core.out = p.core.out ++ [b] ∧ q.staged = p.staged.tail := by
  have hnone := pending_eq_none_of_outValid hp hvalid
  have hne := p.outValid_iff.mp hvalid
  cases h with
  | work hpending | execute hpending => cases hnone.symm.trans hpending
  | @transfer b _ _ hstaged =>
    exact ⟨b, by simp [PortState.outData, hstaged], by simp [PortState.transferred],
      by simp [PortState.transferred, hstaged]⟩
  | wait _ _ hfalse => cases hready.symm.trans hfalse
  | accept hcmd | idle hcmd => exact absurd (p.cmdReady_iff.mp hcmd).2 hne

/-- Settles O57: by what the edge does, and for a ready ENGINE by the invariant. -/
theorem statusChangesOnlyWhenACommandCompletes : Obligations.StatusChangesOnlyWhenACommandCompletes := by
  intro x p q hp hx h
  have hstep := edgeStep_of_edge hp.1 hx h
  obtain ⟨-, -, hshown⟩ := hstep.portInv hp
  exact ⟨hstep.shown_ne, fun hready => ⟨(q.cmdReady_iff.mp hready).2, hshown hready,
    PortState.doneLine_of_shown (hshown hready), PortState.errorLine_of_shown (hshown hready)⟩,
    hstep.waits hp, hstep.transfers hp⟩

end Sys2Proof.Machine
end

section
/-! Progress at the port level (70_reset_and_hazards.md section 4): a command emits at most 508 bytes, and every edge
at which the SINK takes the byte presented brings the command nearer to its end. -/

namespace Sys2Proof.Machine

/-! ### The output of one command -/

/-- From `s` to `t` at most `n` bytes are emitted. -/
def EmitsAtMost (n : Nat) (s t : State) : Prop := ∃ bs : List Byte, bs.length ≤ n ∧ t.out = s.out ++ bs

theorem EmitsAtMost.of_eq {n : Nat} {s t : State} (h : t.out = s.out) : EmitsAtMost n s t :=
  ⟨[], Nat.zero_le n, by rw [h, List.append_nil]⟩

theorem EmitsAtMost.ite {c : Prop} [Decidable c] {n : Nat} {s t u : State} (ht : EmitsAtMost n s t)
    (hu : EmitsAtMost n s u) : EmitsAtMost n s (if c then t else u) := by
  split <;> assumption

theorem pushed_emitsAtMost (v : Variant) (b : Byte) (s : State) : EmitsAtMost 508 s (pushed v b s) := by
  have hb := byte_toNat_lt b
  obtain ⟨-, -, htoken, -⟩ := tokenOut_bounds v s.win (la := s.la ++ [b]) (by simp)
  refine pushed_cases v b s (fun _ => .of_eq rfl) (fun _ => ?_) (fun _ _ => ?_) (fun _ _ => ?_) (fun _ _ => ?_)
    fun _ _ => ?_
  · exact .ite (.of_eq rfl) (.of_eq rfl)
  · exact .ite (.of_eq rfl) (.ite (.of_eq rfl) ⟨_, by simp, rfl⟩)
  · exact .ite (.of_eq rfl) (.ite (.of_eq rfl) ⟨_, by rw [List.length_replicate]; omega, rfl⟩)
  · exact .ite ⟨_, htoken.trans (by decide), rfl⟩ (.of_eq rfl)
  · exact .ite (.ite (.of_eq rfl) (.of_eq rfl))
      (.ite (.ite ⟨[b], by simp, rfl⟩ (.of_eq rfl)) (.ite (.of_eq rfl) ⟨_, by rw [copyBytes_length]; omega, rfl⟩))

theorem chunkEnded_emitsAtMost (v : Variant) {s : State} (hla : s.la.length ≤ 254) :
    EmitsAtMost 508 s (chunkEnded v s) :=
  .ite ⟨_, (drainOut_length_le v _ _ _).trans (Nat.mul_le_mul_left 2 hla), rfl⟩ (.of_eq rfl)

theorem finished_emitsAtMost (v : Variant) {s : State} (hla : s.la.length ≤ 254) :
    EmitsAtMost 508 s (finished v s) := by
  have hlen : (s.la.flatMap fun b => [0x00#8, b]).length = 2 * s.la.length := by
    simp [List.length_flatMap, Nat.mul_comm]
  exact finished_cases v s (fun _ => .of_eq rfl) (fun _ => .of_eq (finishEmpty_out v s))
    (fun _ _ => ⟨_, by split <;> simp, rfl⟩) (fun _ _ => ⟨_, hlen.trans_le (Nat.mul_le_mul_left 2 hla), rfl⟩)
    fun _ _ => .ite (.of_eq rfl) (.of_eq rfl)

/-- The bound of 44_framing_commands.md R221: twice the look-ahead of a command boundary. -/
theorem exec_emitsAtMost {i : Instr} (hunit : unitBytes i = []) {s t : State} (hs : Inv s)
    (h : exec i s = .next t) : EmitsAtMost 508 s t := by
  obtain ⟨-, hla, -⟩ := id hs
  have hla : s.la.length ≤ 254 := Nat.le_of_lt_succ hla
  induction i using instr_cases with
  | start m =>
    cases (exec_startInstr m s).symm.trans h
    cases m
    case rleEnc | lzEnc => exact ⟨_, by simp, rfl⟩
    case rleDec | lzDec => exact .of_eq rfl
  | abort => cases (exec_abort s).symm.trans h; exact .of_eq rfl
  | push b => cases (exec_push_of_inv b hs).symm.trans h; exact pushed_emitsAtMost _ b s
  | eoc => cases (exec_eoc_eq s).symm.trans h; exact chunkEnded_emitsAtMost _ hla
  | finish => cases (exec_finish_eq s).symm.trans h; exact finished_emitsAtMost _ hla
  | reserved i hi => cases (exec_reserved hi s).symm.trans h; exact .of_eq rfl
  | unit i hne => exact absurd hunit hne

theorem unitBytes_decodeCommand (w : CommandWord) : unitBytes (decodeCommand w) = [] := by
  unfold decodeCommand decodeStart
  repeat' split
  all_goals rfl

theorem PortState.executed_staged_length_le {w : CommandWord} {p : PortState} {t : State} (hinv : Inv p.core)
    (h : exec (decodeCommand w) p.core = .next t) : (p.executed t).staged.length ≤ 508 := by
  obtain ⟨bs, hlen, hbs⟩ := exec_emitsAtMost (unitBytes_decodeCommand w) hinv h
  simpa [executed, hbs] using hlen

/-! ### Progress -/

/-- How many edges the command in execution still takes at most, if the SINK is ready at each. -/
def PortState.remaining (p : PortState) : Nat :=
  match p.pending with
  | some _ => p.work + 509
  | none => p.staged.length

theorem PortState.remaining_of_pending {p : PortState} {w : CommandWord} (h : p.pending = some w) :
    p.remaining = p.work + 509 := by
  simp only [remaining, h]

theorem PortState.remaining_of_none {p : PortState} (h : p.pending = none) : p.remaining = p.staged.length := by
  simp only [remaining, h]

theorem PortState.cmdReady_of_remaining_eq_zero {p : PortState} (h : p.remaining = 0) : p.cmdReady = true := by
  cases hpending : p.pending with
  | some w => rw [remaining_of_pending hpending] at h; omega
  | none =>
    rw [remaining_of_none hpending] at h
    exact p.cmdReady_iff.mpr ⟨hpending, List.length_eq_zero_iff.mp h⟩

theorem EdgeStep.remaining_lt {x : PortIn} {p q : PortState} (hinv : Inv p.core) (h : EdgeStep x p q)
    (hbusy : p.cmdReady = false) (hsink : p.outValid = true → x.outReady = true) : q.remaining < p.remaining := by
  cases h with
  | work hpending hwork =>
    rw [PortState.remaining_of_pending (p := p) hpending, hwork, PortState.remaining]
    simp only [hpending]
    omega
  | execute hpending hwork hexec =>
    have hlen := PortState.executed_staged_length_le hinv hexec
    rw [PortState.remaining_of_pending hpending, PortState.remaining_of_none (by simp [PortState.executed])]
    omega
  | transfer hpending hstaged hready =>
    rw [PortState.remaining_of_none (p := p) hpending,
      PortState.remaining_of_none (by simpa [PortState.transferred] using hpending), hstaged]
    simp [PortState.transferred]
  | wait hpending hstaged hready => cases hready.symm.trans (hsink (p.outValid_iff.mpr hstaged))
  | accept hready | idle hready => cases hbusy.symm.trans hready

/-- An edge of a busy ENGINE whose SINK takes what is presented. -/
theorem edge_progress {x : PortIn} {p : PortState} (hp : PortInv p) (hx : x.rst = false) (hbusy : p.cmdReady = false)
    (hsink : p.outValid = true → x.outReady = true) :
    ∃ q, edge x p = .next q ∧ PortInv q ∧ q.transaction = p.transaction ∧ q.remaining < p.remaining := by
  obtain ⟨q, hq, hstep⟩ := exists_edgeStep hp.1 hx
  have htransaction := hstep.transaction
  rw [if_neg (by simp [hbusy])] at htransaction
  exact ⟨q, hq, hstep.portInv hp, htransaction, hstep.remaining_lt hp.1 hbusy hsink⟩

theorem edges_cons_of_next {x : PortIn} {p q : PortState} (xs : List PortIn) (h : edge x p = .next q) :
    edges (x :: xs) p = edges xs q := by
  simp only [edges, h]

/-! ### A SINK that is always ready -/

theorem edges_replicate_complete {x : PortIn} (hx : x.rst = false) (hsink : x.outReady = true) (k : Nat)
    {p : PortState} (hp : PortInv p) (hk : p.remaining ≤ k) :
    ∃ n q, n ≤ k ∧ edges (List.replicate n x) p = .next q ∧ q.cmdReady = true ∧ q.transaction = p.transaction := by
  induction k generalizing p with
  | zero => exact ⟨0, p, le_rfl, rfl, PortState.cmdReady_of_remaining_eq_zero (Nat.le_zero.mp hk), rfl⟩
  | succ k ih =>
    cases hready : p.cmdReady with
    | true => exact ⟨0, p, Nat.zero_le _, rfl, hready, rfl⟩
    | false =>
      obtain ⟨q, hq, hpq, htransaction, hlt⟩ := edge_progress hp hx hready fun _ => hsink
      obtain ⟨n, r, hn, hr, hready', htransaction'⟩ := ih hpq (by omega)
      exact ⟨n + 1, r, Nat.succ_le_succ hn, (edges_cons_of_next _ hq).trans hr, hready',
        htransaction'.trans htransaction⟩

/-- Settles O58: at most `remaining` edges. -/
theorem commandsCompleteWithinTheirOutputBound : Obligations.CommandsCompleteWithinTheirOutputBound := by
  intro x p hp hpending hx hsink
  obtain ⟨w, hw⟩ := Option.ne_none_iff_exists'.mp hpending
  exact edges_replicate_complete hx hsink _ hp (PortState.remaining_of_pending hw).le

/-! ### A fair SINK -/

/-- The signals from the second edge on. -/
def laterEdges (xs : Nat → PortIn) : Nat → PortIn := fun n => xs (n + 1)

theorem edges_range_succ {xs : Nat → PortIn} {p q : PortState} (n : Nat) (h : edge (xs 0) p = .next q) :
    edges ((List.range (n + 1)).map xs) p = edges ((List.range n).map (laterEdges xs)) q := by
  rw [List.range_succ_eq_map, List.map_cons, edges_cons_of_next _ h, List.map_map]
  rfl

theorem sinkFair_later {xs : Nat → PortIn} {p q : PortState} (h : SinkFair xs p) (hq : edge (xs 0) p = .next q) :
    SinkFair (laterEdges xs) q := by
  intro n r hr hvalid
  obtain ⟨m, hm, hready⟩ := h (n + 1) r ((edges_range_succ n hq).trans hr) hvalid
  obtain ⟨m, rfl⟩ := Nat.exists_eq_succ_of_ne_zero (by omega : m ≠ 0)
  exact ⟨m, Nat.le_of_succ_le_succ hm, hready⟩

/-- The command in execution completes on the edges `xs`, with the effect of its transaction. -/
def Completes (xs : Nat → PortIn) (p : PortState) : Prop :=
  ∃ n q, edges ((List.range n).map xs) p = .next q ∧ q.cmdReady = true ∧ q.transaction = p.transaction

theorem Completes.of_later {xs : Nat → PortIn} {p q : PortState} (hq : edge (xs 0) p = .next q)
    (htransaction : q.transaction = p.transaction) (h : Completes (laterEdges xs) q) : Completes xs p := by
  obtain ⟨n, r, hr, hready, htransaction'⟩ := h
  exact ⟨n + 1, r, (edges_range_succ n hq).trans hr, hready, htransaction'.trans htransaction⟩

/-- Nothing happens until the edge at which the SINK is ready; from there on `h` leads to completion. -/
theorem completes_of_wait {p : PortState} (hp : PortInv p) (hvalid : p.outValid = true)
    (h : ∀ xs : Nat → PortIn, (∀ n, (xs n).rst = false) → SinkFair xs p → (xs 0).outReady = true → Completes xs p)
    (m : Nat) {xs : Nat → PortIn} (hrst : ∀ n, (xs n).rst = false) (hfair : SinkFair xs p)
    (hm : (xs m).outReady = true) : Completes xs p := by
  induction m generalizing xs with
  | zero => exact h xs hrst hfair hm
  | succ m ih =>
    cases hready : (xs 0).outReady with
    | true => exact h xs hrst hfair hready
    | false =>
      obtain ⟨q, hq, hstep⟩ := exists_edgeStep hp.1 (hrst 0)
      obtain rfl := hstep.waits hp hvalid hready
      exact .of_later hq rfl (ih (fun n => hrst (n + 1)) (sinkFair_later hfair hq) hm)

theorem completes_of_sinkFair (k : Nat) {p : PortState} (hp : PortInv p) (hk : p.remaining ≤ k)
    {xs : Nat → PortIn} (hrst : ∀ n, (xs n).rst = false) (hfair : SinkFair xs p) : Completes xs p := by
  induction k generalizing p xs with
  | zero => exact ⟨0, p, rfl, PortState.cmdReady_of_remaining_eq_zero (Nat.le_zero.mp hk), rfl⟩
  | succ k ih =>
    have hprogress {xs : Nat → PortIn} (hrst : ∀ n, (xs n).rst = false) (hfair : SinkFair xs p)
        (hbusy : p.cmdReady = false) (hsink : p.outValid = true → (xs 0).outReady = true) : Completes xs p := by
      obtain ⟨q, hq, hpq, htransaction, hlt⟩ := edge_progress hp (hrst 0) hbusy hsink
      exact .of_later hq htransaction (ih hpq (by omega) (fun n => hrst (n + 1)) (sinkFair_later hfair hq))
    cases hready : p.cmdReady with
    | true => exact ⟨0, p, rfl, hready, rfl⟩
    | false =>
      cases hvalid : p.outValid with
      | false => exact hprogress hrst hfair hready (by simp [hvalid])
      | true =>
        obtain ⟨m, -, hm⟩ := hfair 0 p rfl hvalid
        exact completes_of_wait hp hvalid (fun _ hrst hfair hsink => hprogress hrst hfair hready fun _ => hsink) m
          hrst hfair hm

/-- Settles O59: the ENGINE's work is finite, and the SINK takes each byte. -/
theorem fairSinkLetsEveryCommandComplete : Obligations.FairSinkLetsEveryCommandComplete :=
  fun _ _ hp hrst hfair _ => completes_of_sinkFair _ hp le_rfl hrst hfair

end Sys2Proof.Machine
end

section
/-! How a run ends (70_reset_and_hazards.md R285): by an instruction, by a move of the HOST and by a clock edge. -/

namespace Sys2Proof.Machine

/-! ### The end that an instruction brings -/

/-- What an end of the run in progress says of the states `s` before and `t` after, where only `completing` can
complete the run and only `discarding` can discard it. -/
def EndsAs (completing discarding : Prop) (s t : State) : Option RunEnd → Prop
  | none => Active t ∧ t.mode = s.mode ∧ t.err = .noError
  | some .complete => completing ∧ t.phase = .done ∧ t.err = .noError ∧ t.mode = s.mode
  | some (.failed k) => t.phase = .error ∧ t.err = k ∧ k ≠ .noError ∧ t.mode = s.mode
  | some .discarded => discarding

theorem EndsAs.imp {c c' d d' : Prop} {s t : State} {e : Option RunEnd} (hc : c → c') (hd : d → d')
    (h : EndsAs c d s t e) : EndsAs c' d' s t e := by
  match e, h with
  | none, h => exact h
  | some .complete, ⟨hcomplete, h⟩ => exact ⟨hc hcomplete, h⟩
  | some (.failed _), h => exact h
  | some .discarded, h => exact hd h

/-- The run of `s` goes on in `t`, or has failed there. -/
structure GoesOn (s t : State) : Prop where
  inv : Inv t
  mode : t.mode = s.mode
  phase : Active t ∨ t.phase = .error

theorem active_ne_error {s : State} (h : Active s) : s.phase ≠ .error := by
  rcases h with h | h <;> simp [h]

theorem err_ne_noError_of_inv {s : State} (hs : Inv s) (hp : s.phase = .error) : s.err ≠ .noError := by
  obtain ⟨-, -, -, herr, -⟩ := hs
  exact herr.mpr hp

theorem GoesOn.endsAs {s t : State} (h : GoesOn s t) (c d : Prop) :
    EndsAs c d s t (if t.phase = .error then some (.failed t.err) else none) := by
  by_cases hp : t.phase = .error
  · rw [if_pos hp]
    exact ⟨hp, rfl, err_ne_noError_of_inv h.inv hp, h.mode⟩
  · rw [if_neg hp]
    exact ⟨h.phase.resolve_right hp, h.mode, err_eq_noError_of_inv h.inv hp⟩

theorem Raises.active_or_error {e : Option Err} {p : Phase} {s t : State} (h : Raises e p s t)
    (hp : (p = .header ∨ p = .body) ∨ p = .error) : Active t ∨ t.phase = .error := by
  rcases h with ⟨k, -, -, rfl⟩ | ⟨-, -, hphase⟩
  · exact .inr rfl
  · rwa [Active, hphase]

theorem exec_push_goesOn {b : Byte} {s₀ s t : State} (hs : GoesOn s₀ s) (h : exec (.push b) s = .next t) :
    GoesOn s₀ t := by
  obtain ⟨hinv, hmode, hphase⟩ := hs
  cases (exec_push_of_inv b hinv).symm.trans h
  refine ⟨pushed_inv _ b hinv, (pushed_framed _ b s).mode.trans hmode, (pushed_raises b _ s).active_or_error ?_⟩
  unfold phaseOfRole
  split
  · exact hphase
  · exact .inl (.inr rfl)

theorem execAll_pushes_goesOn {bs : List Byte} {s₀ s t : State} (hs : GoesOn s₀ s)
    (h : execAll (pushes bs) s = .next t) : GoesOn s₀ t :=
  execAll_induction (forall_mem_pushes (fun _ _ _ => exec_push_goesOn) bs) hs h

theorem runEnd_of_not_active (i : Instr) {s : State} (ha : ¬Active s) (t : State) : runEnd i s t = none := if_neg ha

theorem runEnd_startInstr {s : State} (ha : Active s) (m : Mode) (t : State) :
    runEnd (startInstr m) s t = some .discarded := by
  cases m <;> exact if_pos ha

theorem runEnd_unit {i : Instr} (hi : unitBytes i ≠ []) {s : State} (ha : Active s) (t : State) :
    runEnd i s t = if t.phase = .error then some (.failed t.err) else none := by
  cases i
  case startRleEnc | startRleDec | startLzEnc | startLzDec | push | eoc | finish | abort | reserved5 | reserved6
      | reserved7 => exact absurd rfl hi
  all_goals exact if_pos ha

theorem runEnd_reserved {i : Instr} (hi : i = .reserved5 ∨ i = .reserved6 ∨ i = .reserved7) {s : State}
    (ha : Active s) (t : State) : runEnd i s t = if t.phase = .error then some (.failed t.err) else none := by
  rcases hi with rfl | rfl | rfl <;> exact if_pos ha

/-- FINISH completes the run or fails it. -/
theorem finished_endsAs {s : State} (hs : Inv s) (ha : Active s) (d : Prop) :
    EndsAs True d s (finished Config.hw.variant s) (runEnd .finish s (finished Config.hw.variant s)) := by
  have hinv := finished_inv Config.hw.variant hs
  have hmode := (finished_framed Config.hw.variant s).mode
  have hend : (finished Config.hw.variant s).phase = .done ∨ (finished Config.hw.variant s).phase = .error := by
    rw [finished_phase hs]
    rcases ha with hp | hp
    · simp [hp]
    · simp only [hp]
      split <;> simp
  rw [runEnd, if_pos ha]
  rcases hend with hdone | herror
  · simp only [hdone, if_true]
    exact ⟨trivial, hdone, err_eq_noError_of_inv hinv (by simp [hdone]), hmode⟩
  · simp only [herror]
    exact ⟨herror, rfl, err_ne_noError_of_inv hinv herror, hmode⟩

/-- R285 (a) to (d). -/
theorem runEnd_endsAs {i : Instr} {s t : State} (hs : Inv s) (ha : Active s) (h : exec i s = .next t) :
    EndsAs (i = .finish) (i = .abort ∨ ∃ m, i = startInstr m) s t (runEnd i s t) := by
  have hgoes : GoesOn s s := ⟨hs, rfl, .inl ha⟩
  induction i using instr_cases with
  | start m =>
    rw [runEnd_startInstr ha]
    exact .inr ⟨m, rfl⟩
  | abort =>
    rw [runEnd, if_pos ha]
    exact .inl rfl
  | push b =>
    rw [runEnd, if_pos ha]
    exact (exec_push_goesOn hgoes h).endsAs _ _
  | eoc =>
    cases (exec_eoc_eq s).symm.trans h
    rw [runEnd, if_pos ha]
    have hphase := chunkEnded_phase Config.hw.variant s
    exact GoesOn.endsAs ⟨chunkEnded_inv _ hs, (chunkEnded_framed _ s).mode, .inl (by rwa [Active, hphase])⟩ _ _
  | finish =>
    cases (exec_finish_eq s).symm.trans h
    exact (finished_endsAs hs ha _).imp (fun _ => rfl) id
  | reserved i hi =>
    cases (exec_reserved hi s).symm.trans h
    rw [runEnd_reserved hi ha]
    exact hgoes.endsAs _ _
  | unit i hi =>
    rw [exec_unit hi] at h
    rw [runEnd_unit hi ha]
    exact (execAll_pushes_goesOn hgoes h).endsAs _ _

/-! ### The end that a move brings -/

theorem moveEnd_endsAs {x : Input} {rest : List Input} {s t : State} (hs : Inv s) (ha : Active s)
    (hx : s.input = x :: rest) (h : step s = .next t) :
    EndsAs (decode x = .ok .finish) (x = .rst ∨ decode x = .ok .abort ∨ ∃ m, decode x = .ok (startInstr m)) s t
      (moveEnd x s t) := by
  cases x with
  | command w =>
    rw [step_command hx] at h
    have hend := runEnd_endsAs (s := { s with input := rest }) hs ha h
    exact EndsAs.imp (s := s) (congrArg Except.ok)
      (fun hd => .inr (hd.imp (congrArg Except.ok) fun ⟨m, hm⟩ => ⟨m, congrArg Except.ok hm⟩)) hend
  | wire fmt bytes =>
    rw [step_wire hx] at h
    have hgoes : GoesOn s t := execAll_pushes_goesOn (s := { s with input := rest }) ⟨hs, rfl, .inl ha⟩ h
    simp only [moveEnd, ha, true_and]
    exact hgoes.endsAs _ _
  | rst =>
    rw [moveEnd, if_pos ha]
    exact .inl rfl

theorem moveEnd_rst {s t : State} {rest : List Input} (ha : Active s) (hx : s.input = .rst :: rest)
    (h : step s = .next t) : moveEnd .rst s t = some .discarded ∧ t.phase = .idle := by
  cases (step_rst hx).symm.trans h
  exact ⟨if_pos ha, rfl⟩

/-! ### The end that an edge brings -/

/-- What an end of the run in progress says of the port states before and after. -/
def EdgeEndsAs (x : PortIn) (p q : PortState) : Option RunEnd → Prop
  | none => InRun p → InRun q
  | some .complete => InRun p ∧ x.rst = false ∧ q.core.phase = .done ∧ q.core.err = .noError ∧ q.cmdReady = true
  | some (.failed k) =>
    InRun p ∧ x.rst = false ∧ q.core.phase = .error ∧ q.core.err = k ∧ k ≠ .noError ∧ q.cmdReady = true
  | some .discarded =>
    InRun p ∧ (x.rst = true ∨ ∃ w, p.pending = some w ∧
      (decodeCommand w = .abort ∨ ∃ m, decodeCommand w = startInstr m))

theorem edgeEnd_of_rst {x : PortIn} {p : PortState} (hx : x.rst = true) (q : PortState) :
    edgeEnd x p q = if InRun p then some .discarded else none := if_pos hx

theorem edgeEnd_rst_endsAs {x : PortIn} {p : PortState} (hx : x.rst = true) (q : PortState) :
    EdgeEndsAs x p q (edgeEnd x p q) := by
  rw [edgeEnd_of_rst hx]
  by_cases hrun : InRun p
  · rw [if_pos hrun]
    exact ⟨hrun, .inl hx⟩
  · rw [if_neg hrun]
    exact fun h => absurd h hrun

theorem edgeEnd_of_pending {x : PortIn} {p : PortState} {w : CommandWord} (hx : x.rst = false)
    (hpending : p.pending = some w) (q : PortState) :
    edgeEnd x p q =
      if p.work ≠ 0 then none
      else if q.core.phase = .done ∧ q.staged ≠ [] then none else runEnd (decodeCommand w) p.core q.core := by
  rw [edgeEnd, if_neg (by simp [hx])]
  simp only [hpending]

theorem edgeEnd_of_no_pending {x : PortIn} {p : PortState} (hx : x.rst = false) (hpending : p.pending = none)
    (q : PortState) :
    edgeEnd x p q = if InRun p ∧ q.core.phase = .done ∧ q.staged = [] then some .complete else none := by
  rw [edgeEnd, if_neg (by simp [hx])]
  simp only [hpending]

/-- Between commands an edge completes a run at the last byte of its FINISH, and ends no other. -/
theorem edgeEnd_no_pending_endsAs {x : PortIn} {p q : PortState} (hx : x.rst = false) (hpending : p.pending = none)
    (hq : PortInv q) (hphase : q.core.phase = p.core.phase) (hqpending : p.staged ≠ [] → q.pending = none) :
    EdgeEndsAs x p q (edgeEnd x p q) := by
  obtain ⟨hinv, -, -⟩ := hq
  rw [edgeEnd_of_no_pending hx hpending]
  split
  case isTrue h =>
    obtain ⟨hrun, hdone, hempty⟩ := h
    have hne : p.staged ≠ [] := by
      rcases hrun with (hp | hp) | ⟨-, hne⟩
      · rw [hphase, hp] at hdone; cases hdone
      · rw [hphase, hp] at hdone; cases hdone
      · exact hne
    exact ⟨hrun, hx, hdone, err_eq_noError_of_inv hinv (by simp [hdone]),
      q.cmdReady_iff.mpr ⟨hqpending hne, hempty⟩⟩
  case isFalse h =>
    intro hrun
    rcases id hrun with hactive | ⟨hdone, -⟩
    · exact .inl (by rwa [Active, hphase])
    · exact .inr ⟨hphase.trans hdone, fun hempty => h ⟨hrun, hphase.trans hdone, hempty⟩⟩

@[simp] theorem PortState.executed_core (t : State) (p : PortState) :
    (p.executed t).core = { t with out := p.core.out } := by
  simp [executed]

/-- An error is entered with no byte emitted, so nothing waits. -/
theorem PortState.executed_staged_of_error {w : CommandWord} {p : PortState} {t : State}
    (h : exec (decodeCommand w) p.core = .next t) (hs : p.core.phase ≠ .error) (ht : t.phase = .error) :
    (p.executed t).staged = [] := by
  obtain ⟨k, -, rfl⟩ := exec_entersError (unitBytes_decodeCommand w) h hs ht
  simp [executed]

theorem PortState.executed_cmdReady {p : PortState} {t : State} (h : (p.executed t).staged = []) :
    (p.executed t).cmdReady = true :=
  (p.executed t).cmdReady_iff.mpr ⟨by simp [executed], h⟩

/-- In an active run the command ends it as its instruction does. -/
theorem EndsAs.edgeEndsAs {x : PortIn} {p : PortState} {w : CommandWord} {t : State} {e : Option RunEnd}
    (hx : x.rst = false) (hpending : p.pending = some w) (ha : Active p.core)
    (hexec : exec (decodeCommand w) p.core = .next t)
    (hdone : ¬((p.executed t).core.phase = .done ∧ (p.executed t).staged ≠ []))
    (h : EndsAs (decodeCommand w = .finish) (decodeCommand w = .abort ∨ ∃ m, decodeCommand w = startInstr m)
      p.core t e) : EdgeEndsAs x p (p.executed t) e := by
  match e, h with
  | none, ⟨hactive, _, _⟩ => exact fun _ => .inl (by simpa using hactive)
  | some .complete, ⟨_, hphase, herr, _⟩ =>
    have hempty : (p.executed t).staged = [] := not_not.mp fun hne => hdone ⟨by simpa using hphase, hne⟩
    exact ⟨.inl ha, hx, by simpa using hphase, by simpa using herr, PortState.executed_cmdReady hempty⟩
  | some (.failed _), ⟨hphase, herr, hk, _⟩ =>
    have hempty := PortState.executed_staged_of_error hexec (active_ne_error ha) hphase
    exact ⟨.inl ha, hx, by simpa using hphase, by simpa using herr, hk, PortState.executed_cmdReady hempty⟩
  | some .discarded, hdiscard => exact ⟨.inl ha, .inr ⟨w, hpending, hdiscard⟩⟩

/-- The edge of a command's state update, unless bytes of a FINISH wait after it. -/
theorem edgeEnd_execute_endsAs {x : PortIn} {p : PortState} {w : CommandWord} {t : State} (hp : PortInv p)
    (hx : x.rst = false) (hpending : p.pending = some w) (hwork : p.work = 0)
    (hexec : exec (decodeCommand w) p.core = .next t) :
    EdgeEndsAs x p (p.executed t) (edgeEnd x p (p.executed t)) := by
  obtain ⟨hinv, hstaged, -⟩ := hp
  rw [edgeEnd_of_pending hx hpending, if_neg (by simp [hwork])]
  split
  case isTrue hdone => exact fun _ => .inr hdone
  case isFalse hdone =>
    by_cases ha : Active p.core
    · have hend := (runEnd_endsAs hinv ha hexec).edgeEndsAs hx hpending ha hexec hdone
      rwa [PortState.executed_core]
    · have hidle : ¬InRun p := not_or.mpr ⟨ha, fun h => h.2 (hstaged (by simp [hpending]))⟩
      rw [runEnd_of_not_active _ ha]
      exact fun h => absurd h hidle

theorem EdgeStep.endsAs {x : PortIn} {p q : PortState} (h : EdgeStep x p q) (hp : PortInv p)
    (hx : x.rst = false) : EdgeEndsAs x p q (edgeEnd x p q) := by
  have hq := h.portInv hp
  cases h with
  | work hpending hwork =>
    rw [edgeEnd_of_pending hx hpending, if_pos (by simp [hwork])]
    exact id
  | execute hpending hwork hexec => exact edgeEnd_execute_endsAs hp hx hpending hwork hexec
  | transfer hpending hstaged hready =>
    exact edgeEnd_no_pending_endsAs hx hpending hq (by simp [PortState.transferred])
      fun _ => by simpa [PortState.transferred] using hpending
  | wait hpending hstaged hready => exact edgeEnd_no_pending_endsAs hx hpending hq rfl fun _ => hpending
  | accept hready hvalid =>
    obtain ⟨hpending, hstaged⟩ := p.cmdReady_iff.mp hready
    exact edgeEnd_no_pending_endsAs hx hpending hq rfl fun hne => absurd hstaged hne
  | idle hready hvalid =>
    obtain ⟨hpending, hstaged⟩ := p.cmdReady_iff.mp hready
    exact edgeEnd_no_pending_endsAs hx hpending hq rfl fun _ => hpending

theorem edge_endsAs {x : PortIn} {p q : PortState} (hp : PortInv p) (h : edge x p = .next q) :
    EdgeEndsAs x p q (edgeEnd x p q) := by
  cases hx : x.rst with
  | true => exact edgeEnd_rst_endsAs hx q
  | false => exact (edgeStep_of_edge hp.1 hx h).endsAs hp hx

/-- `rst` leaves no run. -/
theorem not_inRun_applyRst (p : PortState) : ¬InRun p.applyRst := by
  simp [InRun, Active]

/-- Settles O53: the ends by instruction, by move and by edge. -/
theorem runsEndOnlyAsDefined : Obligations.RunsEndOnlyAsDefined := by
  refine ⟨fun s t i hs ha h => ?_, fun s t x rest hs ha hx h => ?_, fun s t rest ha hx h => moveEnd_rst ha hx h,
    fun x p q hp h => ?_, fun x p q hx hrun h => ?_⟩
  · have hend := (runEnd_endsAs hs ha h).imp (d' := i = .startRleEnc ∨ i = .startRleDec ∨ i = .startLzEnc ∨
      i = .startLzDec ∨ i = .abort) id ?_
    · exact hend
    · rintro (rfl | ⟨m, rfl⟩)
      · simp
      · cases m <;> simp [startInstr]
  · exact moveEnd_endsAs hs ha hx h
  · exact edge_endsAs hp h
  · cases (edge_of_rst p hx).symm.trans h
    exact ⟨by rw [edgeEnd_of_rst hx, if_pos hrun], not_inRun_applyRst p⟩

end Sys2Proof.Machine
end
